-- ==== Sys2Proof/Word.lean ====
section
/-! DEFINITION. The units of the XM-23: bytes and words (R9, R61, R62), and the W/B width of an operation (R101). -/

namespace Sys2Proof

/-- A byte, 8 bits (R61). -/
abbrev Byte := BitVec 8

/-- A word, 16 bits (R62); registers and addresses are words (R7). -/
abbrev Word := BitVec 16

/-- The W/B field: word (0) or byte (1) (R101). -/
inductive Width where
  | word
  | byte
  deriving DecidableEq, Repr

/-- The number `W` of bits an operation of this width works on (R18, R170). -/
@[reducible] def Width.bits : Width → Nat
  | .word => 16
  | .byte => 8

end Sys2Proof
end

