-- ==== Sys2Proof/Syntax.lean ====
section
/-! DEFINITION. The 41 instructions of the XM-23 as syntax, one constructor per row of the opcode table (R3, R121), with the operands of R101. -/

namespace Sys2Proof

/-- The eight registers (R20, R21): R4 is BP, R5 is LR, R6 is SP, R7 is PC. -/
inductive Reg where
  | r0
  | r1
  | r2
  | r3
  | r4
  | r5
  | r6
  | r7
  deriving DecidableEq, Repr

/-- The eight built-in constants of the two-operand instructions (R112). -/
inductive Constant where
  | zero
  | one
  | two
  | four
  | eight
  | sixteen
  | thirtyTwo
  | minusOne
  deriving DecidableEq, Repr

/-- The source of a two-operand instruction: a register (R/C = 0) or a constant (R/C = 1) (R112). -/
inductive Source where
  | reg (r : Reg)
  | con (k : Constant)
  deriving DecidableEq, Repr

/-- The three addressing fields PRPO, DEC and INC of LD and ST (R110, R157). -/
structure AddrMode where
  prpo : Bool
  dec : Bool
  inc : Bool
  deriving DecidableEq, Repr

/-- The sixteen condition codes of CEX, in the order of their numbers 0000 to 1111 (R251). -/
inductive Cond where
  | eq
  | ne
  | cs
  | cc
  | mi
  | pl
  | vs
  | vc
  | hi
  | ls
  | ge
  | lt
  | gt
  | le
  | tr
  | fl
  deriving DecidableEq, Repr

/-- The 41 machine instructions, in the order of the opcode table (R121). -/
inductive Instr where
  | bl (off : BitVec 13)
  | beq (off : BitVec 10)
  | bne (off : BitVec 10)
  | bc (off : BitVec 10)
  | bnc (off : BitVec 10)
  | bn (off : BitVec 10)
  | bge (off : BitVec 10)
  | blt (off : BitVec 10)
  | bra (off : BitVec 10)
  | add (wb : Width) (src : Source) (d : Reg)
  | addc (wb : Width) (src : Source) (d : Reg)
  | sub (wb : Width) (src : Source) (d : Reg)
  | subc (wb : Width) (src : Source) (d : Reg)
  | dadd (wb : Width) (src : Source) (d : Reg)
  | cmp (wb : Width) (src : Source) (d : Reg)
  | xor (wb : Width) (src : Source) (d : Reg)
  | and (wb : Width) (src : Source) (d : Reg)
  | or (wb : Width) (src : Source) (d : Reg)
  | bit (wb : Width) (src : Source) (d : Reg)
  | bic (wb : Width) (src : Source) (d : Reg)
  | bis (wb : Width) (src : Source) (d : Reg)
  | mov (wb : Width) (s d : Reg)
  | swap (s d : Reg)
  | sra (wb : Width) (d : Reg)
  | rrc (wb : Width) (d : Reg)
  | comp (wb : Width) (d : Reg)
  | swpb (d : Reg)
  | sxt (d : Reg)
  /-- `pr` is the new priority (R118). -/
  | setpri (pr : BitVec 3)
  /-- `sa` is the vector number (R118). -/
  | svc (sa : BitVec 4)
  /-- `m` is the set V, SLP, N, Z, C in bits 4 to 0, where the PSW has them (R108, R118). -/
  | setcc (m : BitVec 5)
  /-- `m` as for SETCC (R118). -/
  | clrcc (m : BitVec 5)
  | cex (code : Cond) (t f : BitVec 3)
  | ld (mode : AddrMode) (wb : Width) (s d : Reg)
  | st (mode : AddrMode) (wb : Width) (s d : Reg)
  | movl (b : Byte) (d : Reg)
  | movlz (b : Byte) (d : Reg)
  | movls (b : Byte) (d : Reg)
  | movh (b : Byte) (d : Reg)
  | ldr (off : BitVec 7) (wb : Width) (s d : Reg)
  | str (off : BitVec 7) (wb : Width) (s d : Reg)
  deriving DecidableEq, Repr

end Sys2Proof
end

