-- ==== Sys2Proof/Config.lean ====
section
/-! DEFINITION. What the document leaves to an implementation (R8): the parameters at the defaults the spec recommends, the free values, and the launch contents of memory. -/

namespace Sys2Proof

/-- Which of the four condition bits an instruction writes (one row of R38's table). -/
structure FlagMask where
  v : Bool
  n : Bool
  z : Bool
  c : Bool
  deriving DecidableEq, Repr

/-- The two instances of `IRQ_MODEL` (R352). -/
inductive IrqModel where
  | latch
  | level
  deriving DecidableEq, Repr

/-- The two instances of `FAULT_SAVED_PC` (R322): R7 as it stands, or the address of the faulting instruction. -/
inductive SavedPc where
  | current
  | faulting
  deriving DecidableEq, Repr

/-- The two instances of `LDST_UNDEFINED_MODE` (R126): the illegal instruction fault, or a model that refuses the word. -/
inductive UndefinedMode where
  | fault
  | refuse
  deriving DecidableEq, Repr

/-- The two instances of `ODD_SP` (R69): bit 0 of the address ignored, as for any register, or a model that refuses a state with an odd R6. -/
inductive OddSp where
  | ignoreBit0
  | refuse
  deriving DecidableEq, Repr

namespace Config

/-! ## Free values -/

/-- The free values of the machine: the draws of R17's `unspecified(N)` and of the spec's "any value". The `n`-th draw is `draw n`; nothing is known of it. DESIGN CHOICE (log 6): safe. -/
opaque draw : Nat → Word

/-- `CEX_SAVE_FORMAT` (R259, open): the word that stands for the CEX state is an unknown one-to-one recoding of the suggested layout. DESIGN CHOICE (log 7): safe. -/
opaque cexCode : Equiv.Perm Word

/-- What CEX state a pulled word denotes when no CEX state packs to it (R259, open). DESIGN CHOICE (log 9): safe. -/
opaque cexStray : Word → Byte

/-! ## Parameters of R8, at the spec's defaults -/

/-- `WB_IGNORED_DECODES` (R106, R107). DESIGN CHOICE of the spec (log 10): unsafe. -/
def wbIgnoredDecodes : Bool := true

/-- `FAULT_PRIORITY_CHECK` (R325): true is the default, the CPU is stuck on a fault whose vector's priority is not above CUR. DESIGN CHOICE of the spec (log 18): safe. -/
def faultPriorityCheck : Bool := true

/-- `DOUBLE_FAULT_HALTS` (R327). DESIGN CHOICE of the spec (log 19): safe. -/
def doubleFaultHalts : Bool := true

/-- `FAULT_SAVED_PC` (R322). DESIGN CHOICE of the spec (log 21): unsafe. -/
def faultSavedPc : SavedPc := .current

/-- `IRQ_MODEL` (R352). DESIGN CHOICE of the spec (log 22): unsafe. -/
def irqModel : IrqModel := .latch

/-- `BITOP_RANGE` (R187): the mask of BIT, BIC and BIS at a width for a bit number not below it. DESIGN CHOICE of the spec (log 14): unsafe. -/
def bitopOutOfRange (w _bitNumber : Nat) : BitVec w := 0#w

/-- `LDST_UNDEFINED_MODE` (R126, R157). DESIGN CHOICE of the spec (log 16): unsafe. -/
def ldstUndefinedMode : UndefinedMode := .fault

/-- `ODD_SP` (R69). DESIGN CHOICE of the spec (log 17): unsafe. -/
def oddSp : OddSp := .ignoreBit0

/-- `PSW_RESERVED_BITS` (R37): true is the default, a load of the whole PSW stores bits 12 to 9 as they come; with false they read as 0. DESIGN CHOICE of the spec (log 41): unsafe. -/
def pswReservedStored : Bool := true

/-! ## The flag table of R38 (`LOGIC_FLAGS`), held as configuration -/

/-- ADD, ADDC, SUB, SUBC, CMP: the source's own row (R38, R173). -/
def flagsArith : FlagMask := ⟨true, true, true, true⟩

/-- DADD. C is the source's; N, Z written and V kept are the spec's decision D31 (log 12). DESIGN CHOICE: unsafe. -/
def flagsDadd : FlagMask := ⟨false, true, true, true⟩

/-- XOR, AND, OR: the spec's decision D6 (R186, log 11). DESIGN CHOICE: unsafe. -/
def flagsLogic : FlagMask := ⟨false, true, true, false⟩

/-- BIT: the source's own row for N and Z (R38, R186); that C and V are kept is D6 (log 11). DESIGN CHOICE: unsafe. -/
def flagsBit : FlagMask := ⟨false, true, true, false⟩

/-- BIC, BIS: Z is the source's, N and the kept bits are D6 (R38, R186, log 11). DESIGN CHOICE: unsafe. -/
def flagsBicBis : FlagMask := ⟨false, true, true, false⟩

/-- SRA, RRC: C is the source's, N, Z and the kept V are D6 (R216, log 11). DESIGN CHOICE: unsafe. -/
def flagsShift : FlagMask := ⟨false, true, true, true⟩

/-- COMP, SWPB, SXT: D6 (R216, log 11). DESIGN CHOICE: unsafe. -/
def flagsSingle : FlagMask := ⟨false, true, true, false⟩

/-- MOVL, MOVLZ, MOVLS, MOVH: D6 (R38, R140, log 11). DESIGN CHOICE: unsafe. -/
def flagsMovx : FlagMask := ⟨false, false, false, false⟩

/-- LD, ST: D6 (R38, R155, log 11). LDR and STR have the source's own "None of the PSW bits are affected" and no row. DESIGN CHOICE: unsafe. -/
def flagsLdSt : FlagMask := ⟨false, false, false, false⟩

/-- BL and the eight branches: D6 (R38, log 11). DESIGN CHOICE: unsafe. -/
def flagsTransfer : FlagMask := ⟨false, false, false, false⟩

/-- CEX: D6 (R38, log 11). DESIGN CHOICE: unsafe. -/
def flagsCex : FlagMask := ⟨false, false, false, false⟩

/-! ## Launch values -/

/-- What a byte of memory reads as before anything is written to it: the default reset vector words #60E0 at #FFFC and #0800 at #FFFE (R382), and 0x4E elsewhere. The spec gives no other launch value and asks that zero not be assumed (R53, R381); a word of two such bytes is an illegal instruction (R125). DESIGN CHOICE (log 1): unsafe. -/
def unlistedByte (a : Nat) : Byte :=
  if a = 0xFFFC then 0xE0
  else if a = 0xFFFD then 0x60
  else if a = 0xFFFE then 0x00
  else if a = 0xFFFF then 0x08
  else 0x4E

end Config

end Sys2Proof
end

