-- ==== Sys2Proof/WellFormed.lean ====
section
/-! DEFINITION. Which terms of Instr are instructions of the machine. Every operand type admits only what its field encodes; the one check left is the addressing mode of LD and ST (R110, R126). -/

namespace Sys2Proof

/-- The five addressing modes: direct, post-increment, post-decrement, pre-increment, pre-decrement. PRPO:DEC:INC = 011, 100 and 111 "are undefined" (R110, R157). -/
def AddrMode.defined (m : AddrMode) : Bool :=
  if m.prpo then m.dec != m.inc else !(m.dec && m.inc)

/-- An instruction of the opcode table (R120, R126). -/
def Instr.wellFormed : Instr → Bool
  | .ld mode _ _ _ => mode.defined
  | .st mode _ _ _ => mode.defined
  | .bl _ | .beq _ | .bne _ | .bc _ | .bnc _ | .bn _ | .bge _ | .blt _ | .bra _ => true
  | .add _ _ _ | .addc _ _ _ | .sub _ _ _ | .subc _ _ _ | .dadd _ _ _ | .cmp _ _ _ => true
  | .xor _ _ _ | .and _ _ _ | .or _ _ _ | .bit _ _ _ | .bic _ _ _ | .bis _ _ _ => true
  | .mov _ _ _ | .swap _ _ | .sra _ _ | .rrc _ _ | .comp _ _ | .swpb _ | .sxt _ => true
  | .setpri _ | .svc _ | .setcc _ | .clrcc _ | .cex _ _ _ => true
  | .movl _ _ | .movlz _ _ | .movls _ _ | .movh _ _ | .ldr _ _ _ _ | .str _ _ _ _ => true

end Sys2Proof
end

