-- ==== Sys2Proof/Decode.lean ====
section
/-! DEFINITION. The decoder (R120, R121) and the encoder, written from the formats of 30_encoding.md. -/

namespace Sys2Proof

/-! ## Operand fields -/

/-- The 3-bit number of a register (R20). -/
def Reg.toBits : Reg → BitVec 3
  | .r0 => 0b000#3
  | .r1 => 0b001#3
  | .r2 => 0b010#3
  | .r3 => 0b011#3
  | .r4 => 0b100#3
  | .r5 => 0b101#3
  | .r6 => 0b110#3
  | .r7 => 0b111#3

/-- The register a 3-bit field names (R20). -/
def Reg.ofBits (b : BitVec 3) : Reg :=
  match b.toNat with
  | 0 => .r0
  | 1 => .r1
  | 2 => .r2
  | 3 => .r3
  | 4 => .r4
  | 5 => .r5
  | 6 => .r6
  | _ => .r7

/-- The S/C number of a constant (R112, Table 8). -/
def Constant.toBits : Constant → BitVec 3
  | .zero => 0b000#3
  | .one => 0b001#3
  | .two => 0b010#3
  | .four => 0b011#3
  | .eight => 0b100#3
  | .sixteen => 0b101#3
  | .thirtyTwo => 0b110#3
  | .minusOne => 0b111#3

/-- The constant an S/C number selects (R112, Table 8). -/
def Constant.ofBits (b : BitVec 3) : Constant :=
  match b.toNat with
  | 0 => .zero
  | 1 => .one
  | 2 => .two
  | 3 => .four
  | 4 => .eight
  | 5 => .sixteen
  | 6 => .thirtyTwo
  | _ => .minusOne

/-- The W/B bit: 0 word, 1 byte (R101). -/
def Width.toBit : Width → BitVec 1
  | .word => 0#1
  | .byte => 1#1

/-- The width a W/B bit selects (R101). -/
def Width.ofBit (b : BitVec 1) : Width :=
  if b = 1#1 then .byte else .word

/-- The R/C bit and the S/C field of a source (R104, R112). -/
def Source.toBits : Source → BitVec 4
  | .reg r => 0#1 ++ r.toBits
  | .con k => 1#1 ++ k.toBits

/-- The source that an R/C bit and an S/C field select (R104, R112). -/
def Source.ofBits (rc : BitVec 1) (sc : BitVec 3) : Source :=
  if rc = 1#1 then .con (Constant.ofBits sc) else .reg (Reg.ofBits sc)

/-- PRPO, DEC and INC as the three bits 9, 8, 7 (R110). -/
def AddrMode.toBits (m : AddrMode) : BitVec 3 :=
  BitVec.ofBool m.prpo ++ BitVec.ofBool m.dec ++ BitVec.ofBool m.inc

/-- The addressing fields of bits 9, 8, 7 (R110). -/
def AddrMode.ofBits (b : BitVec 3) : AddrMode :=
  ⟨b.getLsbD 2, b.getLsbD 1, b.getLsbD 0⟩

/-- The number of a condition code (R251, Table 14). -/
def Cond.toBits : Cond → BitVec 4
  | .eq => 0#4
  | .ne => 1#4
  | .cs => 2#4
  | .cc => 3#4
  | .mi => 4#4
  | .pl => 5#4
  | .vs => 6#4
  | .vc => 7#4
  | .hi => 8#4
  | .ls => 9#4
  | .ge => 10#4
  | .lt => 11#4
  | .gt => 12#4
  | .le => 13#4
  | .tr => 14#4
  | .fl => 15#4

/-- The condition code of a number (R251, Table 14). -/
def Cond.ofBits (b : BitVec 4) : Cond :=
  match b.toNat with
  | 0 => .eq
  | 1 => .ne
  | 2 => .cs
  | 3 => .cc
  | 4 => .mi
  | 5 => .pl
  | 6 => .vs
  | 7 => .vc
  | 8 => .hi
  | 9 => .ls
  | 10 => .ge
  | 11 => .lt
  | 12 => .gt
  | 13 => .le
  | 14 => .tr
  | _ => .fl

/-! ## Decoding -/

/-- Why bytes are no instruction: the unassigned ranges of R125, the undefined modes of R126, the ignored bit of R106 and R107 under strict decoding, and bytes that are no whole word. -/
inductive DecodeError where
  /-- Fewer than two bytes: no instruction word (R100). -/
  | truncated
  /-- 0x4D28 to 0x4D3F and 0x4D68 to 0x4D7F (R125). -/
  | unassignedSingleRegister
  /-- SETPRI with bit 3 or 4 set, 0x4D88 to 0x4D9F (R108, R125). -/
  | setpriReservedBit
  /-- SVC with bit 4 set, 0x4DB0 to 0x4DBF (R108, R125). -/
  | svcReservedBit
  /-- Opcode bytes 0x4E and 0x4F (R125). -/
  | unassignedOpcodeByte
  /-- Bits 15 to 10 = 010101, 0x5400 to 0x57FF (R125). -/
  | unassignedBesideCex
  /-- LD or ST with PRPO:DEC:INC = 011, 100 or 111 (R126). -/
  | undefinedAddressingMode
  /-- Bit 6 of SWAP, SWPB or SXT set where `WB_IGNORED_DECODES` is false (R106, R107). -/
  | ignoredBitSet
  deriving DecidableEq, Repr

/-- The two-operand instruction of an opcode byte's low four bits 0 to 11 (R104). -/
def decodeTwoOperand (op : BitVec 4) (wb : Width) (src : Source) (d : Reg) : Option Instr :=
  match op.toNat with
  | 0 => some (.add wb src d)
  | 1 => some (.addc wb src d)
  | 2 => some (.sub wb src d)
  | 3 => some (.subc wb src d)
  | 4 => some (.dadd wb src d)
  | 5 => some (.cmp wb src d)
  | 6 => some (.xor wb src d)
  | 7 => some (.and wb src d)
  | 8 => some (.or wb src d)
  | 9 => some (.bit wb src d)
  | 10 => some (.bic wb src d)
  | 11 => some (.bis wb src d)
  | _ => none

/-- An instruction whose bit 6 "is ignored" (R106, R107): refused with bit 6 set only under strict decoding. -/
def decodeIgnoringBit6 (bit6 : BitVec 1) (i : Instr) : Except DecodeError Instr :=
  if bit6 = 0#1 || Config.wbIgnoredDecodes then .ok i else .error .ignoredBitSet

/-- Words 0x4D00 to 0x4D7F: format ONE, by `ir[5:3]` (R107). -/
def decodeSingleRegister (bit6 : BitVec 1) (sub : BitVec 3) (d : Reg) : Except DecodeError Instr :=
  match sub.toNat with
  | 0 => .ok (.sra (Width.ofBit bit6) d)
  | 1 => .ok (.rrc (Width.ofBit bit6) d)
  | 2 => .ok (.comp (Width.ofBit bit6) d)
  | 3 => decodeIgnoringBit6 bit6 (.swpb d)
  | 4 => decodeIgnoringBit6 bit6 (.sxt d)
  | _ => .error .unassignedSingleRegister

/-- Words 0x4D80 to 0x4DFF: format PSW, by `ir[6:5]` (R108). -/
def decodePsw (sel : BitVec 2) (is : BitVec 5) : Except DecodeError Instr :=
  match sel.toNat with
  | 0 => if is.extractLsb' 3 2 = 0#2 then .ok (.setpri (is.extractLsb' 0 3)) else .error .setpriReservedBit
  | 1 => if is.extractLsb' 4 1 = 0#1 then .ok (.svc (is.extractLsb' 0 4)) else .error .svcReservedBit
  | 2 => .ok (.setcc is)
  | _ => .ok (.clrcc is)

/-- Words 0x2000 to 0x3FFF: the eight branches by `ir[12:10]` (R103). -/
def decodeBranch (cond : BitVec 3) (off : BitVec 10) : Instr :=
  match cond.toNat with
  | 0 => .beq off
  | 1 => .bne off
  | 2 => .bc off
  | 3 => .bnc off
  | 4 => .bn off
  | 5 => .bge off
  | 6 => .blt off
  | _ => .bra off

/-- Words 0x4000 to 0x4FFF by bits 11 to 7 (R104 to R108, R120). -/
def decodeRegisterGroup (w : Word) : Except DecodeError Instr :=
  let wb := Width.ofBit (w.extractLsb' 6 1)
  let s := Reg.ofBits (w.extractLsb' 3 3)
  let d := Reg.ofBits (w.extractLsb' 0 3)
  match decodeTwoOperand (w.extractLsb' 8 4) wb (Source.ofBits (w.extractLsb' 7 1) (w.extractLsb' 3 3)) d with
  | some i => .ok i
  | none =>
    if w.extractLsb' 8 4 = 0xC#4 then
      if w.extractLsb' 7 1 = 0#1 then .ok (.mov wb s d) else decodeIgnoringBit6 (w.extractLsb' 6 1) (.swap s d)
    else if w.extractLsb' 8 4 = 0xD#4 then
      if w.extractLsb' 7 1 = 0#1 then decodeSingleRegister (w.extractLsb' 6 1) (w.extractLsb' 3 3) d
      else decodePsw (w.extractLsb' 5 2) (w.extractLsb' 0 5)
    else .error .unassignedOpcodeByte

/-- Words 0x5000 to 0x5FFF: CEX, LD and ST (R109, R110, R120). -/
def decodeCexLdSt (w : Word) : Except DecodeError Instr :=
  let mode := AddrMode.ofBits (w.extractLsb' 7 3)
  let wb := Width.ofBit (w.extractLsb' 6 1)
  let s := Reg.ofBits (w.extractLsb' 3 3)
  let d := Reg.ofBits (w.extractLsb' 0 3)
  match (w.extractLsb' 10 2).toNat with
  | 0 => .ok (.cex (Cond.ofBits (w.extractLsb' 6 4)) (w.extractLsb' 3 3) (w.extractLsb' 0 3))
  | 1 => .error .unassignedBesideCex
  | 2 => if mode.defined then .ok (.ld mode wb s d) else .error .undefinedAddressingMode
  | _ => if mode.defined then .ok (.st mode wb s d) else .error .undefinedAddressingMode

/-- Words 0x6000 to 0x7FFF: the register initialization instructions by `ir[12:11]` (R111). -/
def decodeMovx (sel : BitVec 2) (b : Byte) (d : Reg) : Instr :=
  match sel.toNat with
  | 0 => .movl b d
  | 1 => .movlz b d
  | 2 => .movls b d
  | _ => .movh b d

/-- The decoder, by the ranges of R120: total, every word is an instruction or an error of a name. -/
def decode (w : Word) : Except DecodeError Instr :=
  match (w.extractLsb' 13 3).toNat with
  | 0 => .ok (.bl (w.extractLsb' 0 13))
  | 1 => .ok (decodeBranch (w.extractLsb' 10 3) (w.extractLsb' 0 10))
  | 2 => if w.extractLsb' 12 1 = 0#1 then decodeRegisterGroup w else decodeCexLdSt w
  | 3 => .ok (decodeMovx (w.extractLsb' 11 2) (w.extractLsb' 3 8) (Reg.ofBits (w.extractLsb' 0 3)))
  | _ =>
    if w.extractLsb' 14 1 = 0#1 then
      .ok (.ldr (w.extractLsb' 7 7) (Width.ofBit (w.extractLsb' 6 1)) (Reg.ofBits (w.extractLsb' 3 3)) (Reg.ofBits (w.extractLsb' 0 3)))
    else
      .ok (.str (w.extractLsb' 7 7) (Width.ofBit (w.extractLsb' 6 1)) (Reg.ofBits (w.extractLsb' 3 3)) (Reg.ofBits (w.extractLsb' 0 3)))

/-- The instruction at the head of some bytes, and the bytes after it: one word, its low byte first (R62, R63, R100). -/
def decodeBytes : List Byte → Except DecodeError (Instr × List Byte)
  | lo :: hi :: rest =>
    match decode (hi ++ lo) with
    | .ok i => .ok (i, rest)
    | .error e => .error e
  | _ => .error .truncated

/-! ## Encoding -/

/-- Format BR (R103). -/
def encodeBranch (cond : BitVec 3) (off : BitVec 10) : Word := 0b001#3 ++ cond ++ off

/-- Format ALU (R104): `op` is the low half of the opcode byte. -/
def encodeTwoOperand (op : BitVec 4) (wb : Width) (src : Source) (d : Reg) : Word :=
  0x4#4 ++ op ++ src.toBits.extractLsb' 3 1 ++ wb.toBit ++ src.toBits.extractLsb' 0 3 ++ d.toBits

/-- Formats MOV and SWAP (R105, R106): `sel` is bit 7, `b6` bit 6. -/
def encodeExchange (sel b6 : BitVec 1) (s d : Reg) : Word := 0x4C#8 ++ sel ++ b6 ++ s.toBits ++ d.toBits

/-- Format ONE (R107): an assembler emits bit 6 = 0 for SWPB and SXT. -/
def encodeSingleRegister (b6 : BitVec 1) (sub : BitVec 3) (d : Reg) : Word := 0b010011010#9 ++ b6 ++ sub ++ d.toBits

/-- Format PSW (R108). -/
def encodePsw (sel : BitVec 2) (is : BitVec 5) : Word := 0b010011011#9 ++ sel ++ is

/-- Format CEX (R109). -/
def encodeCex (code : BitVec 4) (t f : BitVec 3) : Word := 0b010100#6 ++ code ++ t ++ f

/-- Format LDST (R110): `op` is bit 10. -/
def encodeLdSt (op : BitVec 1) (mode : AddrMode) (wb : Width) (s d : Reg) : Word :=
  0b01011#5 ++ op ++ mode.toBits ++ wb.toBit ++ s.toBits ++ d.toBits

/-- Format MOVx (R111). -/
def encodeMovx (sel : BitVec 2) (b : Byte) (d : Reg) : Word := 0b011#3 ++ sel ++ b ++ d.toBits

/-- Format REL (R113): `op` is bit 14. -/
def encodeRel (op : BitVec 1) (off : BitVec 7) (wb : Width) (s d : Reg) : Word :=
  1#1 ++ op ++ off ++ wb.toBit ++ s.toBits ++ d.toBits

/-- The word of an instruction, by the rows of R121. -/
def encode : Instr → Word
  | .bl off => 0b000#3 ++ off
  | .beq off => encodeBranch 0b000#3 off
  | .bne off => encodeBranch 0b001#3 off
  | .bc off => encodeBranch 0b010#3 off
  | .bnc off => encodeBranch 0b011#3 off
  | .bn off => encodeBranch 0b100#3 off
  | .bge off => encodeBranch 0b101#3 off
  | .blt off => encodeBranch 0b110#3 off
  | .bra off => encodeBranch 0b111#3 off
  | .add wb src d => encodeTwoOperand 0x0#4 wb src d
  | .addc wb src d => encodeTwoOperand 0x1#4 wb src d
  | .sub wb src d => encodeTwoOperand 0x2#4 wb src d
  | .subc wb src d => encodeTwoOperand 0x3#4 wb src d
  | .dadd wb src d => encodeTwoOperand 0x4#4 wb src d
  | .cmp wb src d => encodeTwoOperand 0x5#4 wb src d
  | .xor wb src d => encodeTwoOperand 0x6#4 wb src d
  | .and wb src d => encodeTwoOperand 0x7#4 wb src d
  | .or wb src d => encodeTwoOperand 0x8#4 wb src d
  | .bit wb src d => encodeTwoOperand 0x9#4 wb src d
  | .bic wb src d => encodeTwoOperand 0xA#4 wb src d
  | .bis wb src d => encodeTwoOperand 0xB#4 wb src d
  | .mov wb s d => encodeExchange 0#1 wb.toBit s d
  | .swap s d => encodeExchange 1#1 0#1 s d
  | .sra wb d => encodeSingleRegister wb.toBit 0b000#3 d
  | .rrc wb d => encodeSingleRegister wb.toBit 0b001#3 d
  | .comp wb d => encodeSingleRegister wb.toBit 0b010#3 d
  | .swpb d => encodeSingleRegister 0#1 0b011#3 d
  | .sxt d => encodeSingleRegister 0#1 0b100#3 d
  | .setpri pr => encodePsw 0b00#2 (0b00#2 ++ pr)
  | .svc sa => encodePsw 0b01#2 (0b0#1 ++ sa)
  | .setcc m => encodePsw 0b10#2 m
  | .clrcc m => encodePsw 0b11#2 m
  | .cex code t f => encodeCex code.toBits t f
  | .ld mode wb s d => encodeLdSt 0#1 mode wb s d
  | .st mode wb s d => encodeLdSt 1#1 mode wb s d
  | .movl b d => encodeMovx 0b00#2 b d
  | .movlz b d => encodeMovx 0b01#2 b d
  | .movls b d => encodeMovx 0b10#2 b d
  | .movh b d => encodeMovx 0b11#2 b d
  | .ldr off wb s d => encodeRel 0#1 off wb s d
  | .str off wb s d => encodeRel 1#1 off wb s d

/-- The instruction the decoder reads from the word `w` of `nbits` bits, numbered as spec/opcode_table.json numbers them, laid out in memory order: low byte first (R63). -/
def decodeTableWord (nbits w : Nat) : Option Instr :=
  let word : Word := BitVec.ofNat 16 (w % 2 ^ nbits)
  match decodeBytes [word.extractLsb' 0 8, word.extractLsb' 8 8] with
  | .ok (i, _) => some i
  | .error _ => none

end Sys2Proof
end

