-- ==== Sys2Proof/Machine/State.lean ====
section
/-! DEFINITION. The state of the XM-23 (R52, R45 to R48) as plain data, the reasons a step can stop, and the state after reset (R380 to R383). -/

namespace Sys2Proof.Machine

/-- The register file R0 to R7 (R20); R4 is BP, R5 is LR, R6 is SP, R7 is PC (R21). -/
structure Regs where
  r0 : Word
  r1 : Word
  r2 : Word
  r3 : Word
  r4 : Word
  r5 : Word
  r6 : Word
  r7 : Word
  deriving DecidableEq, Repr

/-- The conditional-execution state (R45): whether a block is in progress, the outcome of its condition, and how many words are still to come in its true and false parts. -/
structure Cex where
  active : Bool
  cond : Bool
  t : BitVec 3
  f : BitVec 3
  deriving DecidableEq, Repr

/-- Outside any block; "inactive (t = 0, f = 0)" (R312, R383). It is one value: log 8. -/
def Cex.inactive : Cex := ⟨false, false, 0#3, 0#3⟩

/-- A CEX state the machine can be in: inside a block with words still to come, or inactive (R254, R259). -/
abbrev Cex.wf (c : Cex) : Prop := if c.active then c.t ≠ 0#3 ∨ c.f ≠ 0#3 else c = Cex.inactive

/-- Ordinary memory #0010 to #FFFF (R73): the bytes that differ from what an unlisted address reads as (`Config.unlistedByte`), by rising address. -/
abbrev Memory := List Host.Cell

/-- The canonical form of memory: addresses strictly rising, each one of ordinary memory, and no entry equal to what an unlisted address reads as. -/
abbrev Memory.wf (m : Memory) : Prop :=
  m.Pairwise (fun p q => p.1 < q.1) ∧ ∀ p ∈ m, 16 ≤ p.1 ∧ p.1 < 65536 ∧ p.2 ≠ Config.unlistedByte p.1

/-- The control/status register and the data register of a device (R48, R346). -/
structure DevRegs where
  csr : Byte
  dr : Byte
  deriving DecidableEq, Repr

/-- A byte on its way to the console, and whether the screen was enabled as an output device when it was written (R351, log 29). -/
structure Transit where
  byte : Byte
  enabled : Bool
  deriving DecidableEq, Repr

/-- What the device agent may do between two steps (R358). -/
inductive DeviceEvent where
  /-- The timer reaches zero (R349). -/
  | timerExpiry
  /-- A byte arrives from the keyboard (R350). -/
  | keyArrival (k : Byte)
  /-- The screen finishes a byte in transit (R351). -/
  | screenDone
  deriving DecidableEq, Repr

/-- The devices and the interrupt controller (R47, R48). Devices 3 to 7 are absent and have no registers (R357). -/
structure Devices where
  timer : DevRegs
  keyboard : DevRegs
  screen : DevRegs
  /-- One pending request per device 0 to 7 (R47, R352). -/
  irq : BitVec 8
  /-- The timer's OF has been set since power-up; from then on it reads as any value (R359). -/
  timerOf : Bool
  /-- The keyboard's OF has been set since power-up (R359). -/
  keyboardOf : Bool
  /-- The bytes in transit to the console, the oldest first (R351). -/
  transit : List Transit
  /-- The console output, the first byte first (R351). -/
  console : List Byte
  deriving DecidableEq, Repr

/-- The whole machine (R52). -/
structure State where
  regs : Regs
  /-- PREV 15:13, RSV 12:9, FLT 8, CUR 7:5, V 4, SLP 3, N 2, Z 1, C 0 (R31). -/
  psw : Word
  cex : Cex
  mem : Memory
  dev : Devices
  /-- Set only by a double fault (R327). -/
  halted : Bool
  /-- The vector of a fault that could not be delivered: the CPU is stuck on it (R325, R373). -/
  stuck : Option (BitVec 4)
  /-- The model's own: the device events of each step to come, the next step's first (R358, log 24). -/
  inbox : List (List DeviceEvent)
  /-- The model's own: how many free values have been drawn (log 6). -/
  draws : Nat
  deriving DecidableEq, Repr

/-- Why the machine stops. -/
inductive Fault where
  /-- Raised by the step of a machine that a double fault has halted, once its schedule holds no more turns of the device agent: "no step is possible" (R304 line 0, R327, R373). Safe: the CPU takes no step either. -/
  | halted
  /-- Raised by the step of a machine stuck on a fault of this vector, whose priority is not above CUR, once its schedule holds no more turns of the device agent: "fault not deliverable" (R325, R373). Safe: the CPU takes no further step. -/
  | faultNotDeliverable (vector : BitVec 4)
  deriving DecidableEq, Repr

/-- Why an instruction has no meaning. -/
inductive Refusal where
  /-- Raised by the arm of an instruction the model does not give a meaning to. Safe. No arm raises it: every instruction is modelled. -/
  | notModelled (mnemonic : String)
  /-- Raised for an LD or ST with PRPO:DEC:INC = 011, 100 or 111 under the instance `refuse` of `LDST_UNDEFINED_MODE` (92_eei_decisions.md D9), never under the default. Safe. -/
  | undefinedAddressingMode
  /-- Raised for a state with an odd R6 under the instance `refuse` of `ODD_SP` (92_eei_decisions.md D10), never under the default. Safe. -/
  | oddStackPointer
  deriving DecidableEq, Repr

/-- What a step or a meaning answers. -/
abbrev Result := Host.Outcome State Fault Refusal

/-- The machine right after power-up with the launch values the document's loader supplies by default (R380 to R383, R359): PSW #60E0, PC #0800, SP #0800, CEX inactive, no request pending, timer DR = 1, not halted, not stuck. R0 to R5, the other device registers and the unlisted memory are values the model names: log 1, 2, 3, 5 (DESIGN CHOICE, unsafe). -/
def State.reset : State where
  regs :=
    { r0 := 0x5A5A#16
      r1 := 0x5A5A#16
      r2 := 0x5A5A#16
      r3 := 0x5A5A#16
      r4 := 0x5A5A#16
      r5 := 0x5A5A#16
      r6 := 0x0800#16
      r7 := 0x0800#16 }
  psw := 0x60E0#16
  cex := Cex.inactive
  mem := []
  dev :=
    { timer := ⟨0x12#8, 0x01#8⟩
      keyboard := ⟨0x12#8, 0x5A#8⟩
      screen := ⟨0x14#8, 0x5A#8⟩
      irq := 0#8
      timerOf := false
      keyboardOf := false
      transit := []
      console := [] }
  halted := false
  stuck := none
  inbox := []
  draws := 0

end Sys2Proof.Machine
end

