-- ==== Sys2Proof/Machine/Psw.lean ====
section
/-! DEFINITION. Single bits of a word or byte, and the fields of the PSW (R31). -/

namespace Sys2Proof.Machine

/-- `w` with bit `i` at `b` (bit numbering of R9). -/
def setBit {n : Nat} (w : BitVec n) (i : Nat) (b : Bool) : BitVec n :=
  if b then w ||| BitVec.twoPow n i else w &&& ~~~(BitVec.twoPow n i)

/-! ## Reading the fields (R31) -/

/-- C, carry (R32). -/
def Psw.c (w : Word) : Bool := w.getLsbD 0

/-- Z, zero (R33). -/
def Psw.z (w : Word) : Bool := w.getLsbD 1

/-- N, negative (R34). -/
def Psw.n (w : Word) : Bool := w.getLsbD 2

/-- SLP, the sleep state (R37). -/
def Psw.slp (w : Word) : Bool := w.getLsbD 3

/-- V, overflow (R35). -/
def Psw.v (w : Word) : Bool := w.getLsbD 4

/-- CUR, the current priority (R37). -/
def Psw.cur (w : Word) : BitVec 3 := w.extractLsb' 5 3

/-- FLT, the fault state (R37). -/
def Psw.flt (w : Word) : Bool := w.getLsbD 8

/-- RSV, bits 12 to 9, without a meaning (R37, log 41). -/
def Psw.rsv (w : Word) : BitVec 4 := w.extractLsb' 9 4

/-- PREV, the previous priority (R37). -/
def Psw.prev (w : Word) : BitVec 3 := w.extractLsb' 13 3

/-! ## Writing the fields -/

/-- Write C. -/
def Psw.setC (w : Word) (b : Bool) : Word := setBit w 0 b

/-- Write Z. -/
def Psw.setZ (w : Word) (b : Bool) : Word := setBit w 1 b

/-- Write N. -/
def Psw.setN (w : Word) (b : Bool) : Word := setBit w 2 b

/-- Write SLP. -/
def Psw.setSlp (w : Word) (b : Bool) : Word := setBit w 3 b

/-- Write V. -/
def Psw.setV (w : Word) (b : Bool) : Word := setBit w 4 b

/-- Write CUR. -/
def Psw.setCur (w : Word) (p : BitVec 3) : Word := w.extractLsb' 8 8 ++ p ++ w.extractLsb' 0 5

/-- Write FLT. -/
def Psw.setFlt (w : Word) (b : Bool) : Word := setBit w 8 b

/-- The PSW after a load of the whole word: bits 12 to 9 by `PSW_RESERVED_BITS` (R37, log 41). -/
def Psw.loaded (w : Word) : Word := if Config.pswReservedStored then w else w &&& 0xE1FF#16

/-- Write PREV. -/
def Psw.setPrev (w : Word) (p : BitVec 3) : Word := p ++ w.extractLsb' 0 13

end Sys2Proof.Machine
end

