-- ==== Sys2Proof/Machine/Flags.lean ====
section
/-! DEFINITION. The flag computations: the adder (R18, R172), N and Z of a result, the flag table of R38, the condition codes (R251), and decimal addition (R178). -/

namespace Sys2Proof.Machine

/-- The four condition bits that an operation computes (R32 to R35). -/
structure Flags where
  v : Bool
  n : Bool
  z : Bool
  c : Bool
  deriving DecidableEq, Repr

/-- The PSW after an instruction: the condition bits of its row of R38 take the computed values, every other bit stays (R36, R38). -/
def Psw.writeFlags (w : Word) (row : FlagMask) (f : Flags) : Word :=
  let w := if row.v then Psw.setV w f.v else w
  let w := if row.n then Psw.setN w f.n else w
  let w := if row.z then Psw.setZ w f.z else w
  if row.c then Psw.setC w f.c else w

/-- N and Z of a result (R33, R34), beside a given C; V clear, for rows that do not write it. -/
def resultFlags {w : Nat} (r : BitVec w) (c : Bool) : Flags :=
  { v := false, n := r.msb, z := r == 0#w, c := c }

/-- The unbounded sum of `addw` (R18). -/
def exactSum {w : Nat} (d b : BitVec w) (cin : Bool) : Nat := d.toNat + b.toNat + cin.toNat

/-- `addw(d, b, cin, W)` (R18, R172) with the flags of R173: C is the carry out, V is judged on the signs of `d` and `b` alone (R35). -/
def addw {w : Nat} (d b : BitVec w) (cin : Bool) : BitVec w × Flags :=
  let r := BitVec.ofNat w (exactSum d b cin)
  (r, { v := d.msb == b.msb && r.msb != d.msb
        n := r.msb
        z := r == 0#w
        c := decide (2 ^ w ≤ exactSum d b cin) })

/-- `cond(CC, psw)` (R251). -/
def condHolds (code : Cond) (w : Word) : Bool :=
  match code with
  | .eq => Psw.z w
  | .ne => !Psw.z w
  | .cs => Psw.c w
  | .cc => !Psw.c w
  | .mi => Psw.n w
  | .pl => !Psw.n w
  | .vs => Psw.v w
  | .vc => !Psw.v w
  | .hi => Psw.c w && !Psw.z w
  | .ls => !Psw.c w || Psw.z w
  | .ge => Psw.n w == Psw.v w
  | .lt => Psw.n w != Psw.v w
  | .gt => !Psw.z w && Psw.n w == Psw.v w
  | .le => Psw.z w || Psw.n w != Psw.v w
  | .tr => true
  | .fl => false

/-! ## Decimal addition (R178, log 12) -/

/-- The low `k` four-bit digits of a number are decimal digits. -/
def bcdValid : Nat → Nat → Bool
  | 0, _ => true
  | k + 1, a => decide (a % 16 ≤ 9) && bcdValid k (a / 16)

/-- Digit-serial decimal addition of `k` digits: the digits of the sum and the carry out (R178). PRESUMED of the spec (log 12): unsafe. -/
def bcdAdd : Nat → Nat → Nat → Bool → Nat × Bool
  | 0, _, _, carry => (0, carry)
  | k + 1, a, b, carry =>
    let t := a % 16 + b % 16 + carry.toNat
    let digit := if 10 ≤ t then t - 10 else t
    let rest := bcdAdd k (a / 16) (b / 16) (decide (10 ≤ t))
    (digit + 16 * rest.1, rest.2)

/-- DADD's result and flags where both operands are decimal (R178): C is the decimal carry. -/
def daddDecimal {w : Nat} (d b : BitVec w) (cin : Bool) : BitVec w × Flags :=
  let sum := bcdAdd (w / 4) d.toNat b.toNat cin
  let r := BitVec.ofNat w sum.1
  (r, resultFlags r sum.2)

/-- The four condition bits of a draw: any values (R17, log 6). -/
def freeFlags (free : Word) : Flags :=
  { v := free.getLsbD 3, n := free.getLsbD 2, z := free.getLsbD 1, c := free.getLsbD 0 }

/-- DADD's result and flags where a digit exceeds 9: any values, from two draws (R178, log 13). -/
def daddFree {w : Nat} (free flagDraw : Word) : BitVec w × Flags :=
  (free.setWidth w, freeFlags flagDraw)

end Sys2Proof.Machine
end

