-- ==== Sys2Proof/Machine/Devices.lean ====
section
/-! DEFINITION. The device registers at #0000 to #000F as the CPU accesses them (R75, R345 to R351, R354, R357), and what the device agent does between steps (R358). -/

namespace Sys2Proof.Machine

/-- One more free value has been drawn (log 6). -/
def State.tick (s : State) : State := { s with draws := s.draws + 1 }

/-- The next free value: nothing is known of it (R17, log 6). -/
def State.freeWord (s : State) : Word := Config.draw s.draws

/-! ## The control/status byte (R346) -/

/-- IE, interrupt enable. -/
def csrIe (b : Byte) : Bool := b.getLsbD 0

/-- I/O: input (1) or output (0). -/
def csrIo (b : Byte) : Bool := b.getLsbD 1

/-- DBA, data or buffer available. -/
def csrDba (b : Byte) : Bool := b.getLsbD 2

/-- OF, overflow. -/
def csrOf (b : Byte) : Bool := b.getLsbD 3

/-- ENA, device enabled. -/
def csrEna (b : Byte) : Bool := b.getLsbD 4

/-- Write DBA. -/
def csrSetDba (b : Byte) (v : Bool) : Byte := setBit b 2 v

/-- Write OF. -/
def csrSetOf (b : Byte) (v : Bool) : Byte := setBit b 3 v

/-- A CPU write of `b` to a CSR that holds `old`: the control bits and bits 7 to 5 are `b`'s, DBA and OF stay (R348). DESIGN CHOICE of the spec (log 25): unsafe. -/
def csrWritten (old b : Byte) : Byte := csrSetOf (csrSetDba b (csrDba old)) (csrOf old)

/-- The byte that a read of a CSR gives: after OF has once been set it reads as any value, a draw (R359, log 26). -/
def csrSeen (csr : Byte) (ofSet : Bool) (free : Word) : Byte :=
  if ofSet then csrSetOf csr (free.getLsbD 0) else csr

/-- The timer's status changes per second: "A zero takes the default value of 1" (R349). It bounds only a host that models real time (R392, log 50). -/
def timerRate (dr : Byte) : Nat := if dr = 0#8 then 1 else dr.toNat

/-! ## The CPU's accesses -/

/-- An access to a register of device `d` clears its request (R354, log 22). -/
def State.clearRequest (s : State) (d : Nat) : State :=
  { s with dev := { s.dev with irq := setBit s.dev.irq d false } }

/-- A read of the timer's CSR: the value read still shows DBA, which is then cleared (R349). -/
def readTimerCsr (s : State) : Byte × State :=
  let v := csrSeen s.dev.timer.csr s.dev.timerOf s.freeWord
  let s := if s.dev.timerOf then s.tick else s
  let s := { s with dev := { s.dev with timer := { s.dev.timer with csr := csrSetDba s.dev.timer.csr false } } }
  (v, s.clearRequest 0)

/-- A read of the keyboard's CSR has no effect on DBA (R350). -/
def readKeyboardCsr (s : State) : Byte × State :=
  let v := csrSeen s.dev.keyboard.csr s.dev.keyboardOf s.freeWord
  let s := if s.dev.keyboardOf then s.tick else s
  (v, s.clearRequest 1)

/-- A read of the keyboard's DR clears DBA; the character stays (R350). -/
def readKeyboardDr (s : State) : Byte × State :=
  let v := s.dev.keyboard.dr
  let s := { s with dev := { s.dev with keyboard := { s.dev.keyboard with csr := csrSetDba s.dev.keyboard.csr false } } }
  (v, s.clearRequest 1)

/-- A read of a register of an absent device: any value, a draw on every read (R357, log 27). -/
def readAbsent (s : State) (d : Nat) : Byte × State :=
  (s.freeWord.extractLsb' 0 8, s.tick.clearRequest d)

/-- A CPU read of #0000 to #000F (R349 to R351, R357). A read of the screen's DR gives the last byte written (log 31). -/
def portRead (a : Word) (s : State) : Byte × State :=
  match a.toNat with
  | 0 => readTimerCsr s
  | 1 => (s.dev.timer.dr, s.clearRequest 0)
  | 2 => readKeyboardCsr s
  | 3 => readKeyboardDr s
  | 4 => (s.dev.screen.csr, s.clearRequest 2)
  | 5 => (s.dev.screen.dr, s.clearRequest 2)
  | n => readAbsent s (n / 2)

/-- The bytes in transit after a write of `b` to the screen's DR. With a byte still in transit, whether the earlier, the later or both reach the console is any value, a draw (R351, log 30). -/
def screenTransit (old : List Transit) (new : Transit) (free : Word) : List Transit :=
  match old with
  | [] => [new]
  | _ :: _ =>
    match free.toNat % 3 with
    | 0 => old
    | 1 => [new]
    | _ => old ++ [new]

/-- A write of the screen's DR: DBA falls and the byte is in transit (R351, log 29, log 30). -/
def writeScreenDr (b : Byte) (s : State) : State :=
  let new : Transit := ⟨b, csrEna s.dev.screen.csr && !csrIo s.dev.screen.csr⟩
  let sent := screenTransit s.dev.transit new s.freeWord
  let t := if s.dev.transit.isEmpty then s else s.tick
  let t := { t with dev := { t.dev with screen := ⟨csrSetDba t.dev.screen.csr false, b⟩, transit := sent } }
  t.clearRequest 2

/-- A CPU write to #0000 to #000F: a CSR by R348, the timer's and the screen's DR as R349 and R351 say; the keyboard's DR ignores it (R350), an absent device discards it (R357). -/
def portWrite (a : Word) (b : Byte) (s : State) : State :=
  match a.toNat with
  | 0 => { s with dev := { s.dev with timer := { s.dev.timer with csr := csrWritten s.dev.timer.csr b } } }.clearRequest 0
  | 1 => { s with dev := { s.dev with timer := { s.dev.timer with dr := b } } }.clearRequest 0
  | 2 => { s with dev := { s.dev with keyboard := { s.dev.keyboard with csr := csrWritten s.dev.keyboard.csr b } } }.clearRequest 1
  | 3 => s.clearRequest 1
  | 4 => { s with dev := { s.dev with screen := { s.dev.screen with csr := csrWritten s.dev.screen.csr b } } }.clearRequest 2
  | 5 => writeScreenDr b s
  | n => s.clearRequest (n / 2)

/-! ## The device agent (R358) -/

/-- An input device's status change: OF where the last one was not read, then DBA (R349, R350). -/
def csrArrived (csr : Byte) : Byte := csrSetDba (if csrDba csr then csrSetOf csr true else csr) true

/-- A CSR whose DBA and OF are a draw's bits 0 and 1: the device's I/O bit is contrary to its kind (log 28). -/
def csrContrary (csr : Byte) (free : Word) : Byte :=
  csrSetOf (csrSetDba csr (free.getLsbD 0)) (free.getLsbD 1)

/-- The timer reaches zero (R349). With I/O contrary to an input device its status and request are any value (log 28). -/
def timerExpiry (s : State) : State :=
  let csr := s.dev.timer.csr
  if csrEna csr then
    if csrIo csr then
      { s with
        dev := { s.dev with
          timer := { s.dev.timer with csr := csrArrived csr }
          timerOf := s.dev.timerOf || csrDba csr
          irq := if csrIe csr then setBit s.dev.irq 0 true else s.dev.irq } }
    else
      { s with
        dev := { s.dev with
          timer := { s.dev.timer with csr := csrContrary csr s.freeWord }
          timerOf := true
          irq := setBit s.dev.irq 0 (s.freeWord.getLsbD 2) } }.tick
  else s

/-- A byte arrives from the keyboard (R350): "The first data-byte is lost". With I/O contrary to an input device its DR, status and request are any value (log 28). -/
def keyArrival (k : Byte) (s : State) : State :=
  let csr := s.dev.keyboard.csr
  if csrEna csr then
    if csrIo csr then
      { s with
        dev := { s.dev with
          keyboard := ⟨csrArrived csr, k⟩
          keyboardOf := s.dev.keyboardOf || csrDba csr
          irq := if csrIe csr then setBit s.dev.irq 1 true else s.dev.irq } }
    else
      { s with
        dev := { s.dev with
          keyboard := ⟨csrContrary csr s.freeWord, s.freeWord.extractLsb' 8 8⟩
          keyboardOf := true
          irq := setBit s.dev.irq 1 (s.freeWord.getLsbD 2) } }.tick
  else s

/-- The screen finishes the oldest byte in transit (R351); with none in transit the event does not happen (R358). Where the screen is not an enabled output device, whether the byte reaches the console, DBA is set and a request is raised are any values (log 29). -/
def screenDone (s : State) : State :=
  match s.dev.transit with
  | [] => s
  | x :: rest =>
    let csr := s.dev.screen.csr
    if x.enabled && csrEna csr && !csrIo csr then
      { s with
        dev := { s.dev with
          screen := { s.dev.screen with csr := csrSetDba csr true }
          transit := rest
          console := s.dev.console ++ [x.byte]
          irq := if csrIe csr then setBit s.dev.irq 2 true else s.dev.irq } }
    else
      { s with
        dev := { s.dev with
          screen := { s.dev.screen with csr := csrSetDba csr (csrDba csr || s.freeWord.getLsbD 1) }
          transit := rest
          console := if s.freeWord.getLsbD 0 then s.dev.console ++ [x.byte] else s.dev.console
          irq := setBit s.dev.irq 2 (s.dev.irq.getLsbD 2 || s.freeWord.getLsbD 2) } }.tick

/-- One event of the device agent (R358). -/
def deviceEvent (e : DeviceEvent) (s : State) : State :=
  match e with
  | .timerExpiry => timerExpiry s
  | .keyArrival k => keyArrival k s
  | .screenDone => screenDone s

/-- Some events in their order. -/
def deviceEvents (es : List DeviceEvent) (s : State) : State :=
  match es with
  | [] => s
  | e :: rest => deviceEvents rest (deviceEvent e s)

/-- What the device agent does before a step: the events that the schedule holds for it (R358, log 24). -/
def agentTurn (s : State) : State :=
  match s.inbox with
  | [] => s
  | es :: rest => deviceEvents es { s with inbox := rest }

end Sys2Proof.Machine
end

