-- ==== Sys2Proof/Machine/Memory.lean ====
section
/-! DEFINITION. Ordinary memory, #0010 to #FFFF (R73), byte by byte and as little-endian words (R62). The device registers below it are in Devices.lean. -/

namespace Sys2Proof.Machine

/-- The entry listed for an address, if there is one. -/
def Memory.lookup : Memory → Nat → Option Byte
  | [], _ => none
  | (k, v) :: m, a => if k = a then some v else Memory.lookup m a

/-- The list with an entry for `a`, in its place by rising address. -/
def Memory.putEntry : Memory → Nat → Byte → Memory
  | [], a, b => [(a, b)]
  | (k, v) :: m, a, b =>
    if a < k then (a, b) :: (k, v) :: m
    else if a = k then (a, b) :: m
    else (k, v) :: Memory.putEntry m a b

/-- The list without an entry for `a`. -/
def Memory.dropEntry : Memory → Nat → Memory
  | [], _ => []
  | (k, v) :: m, a => if k = a then m else (k, v) :: Memory.dropEntry m a

/-- The byte at an address: the one listed, else what an unlisted address reads as (log 1). -/
def Memory.readByte (m : Memory) (a : Word) : Byte :=
  (Memory.lookup m a.toNat).getD (Config.unlistedByte a.toNat)

/-- Store a byte, in the canonical form. Addresses below #0010 are no ordinary memory (R74): nothing is stored there. -/
def Memory.writeByte (m : Memory) (a : Word) (b : Byte) : Memory :=
  if a.toNat < 16 then m
  else if b = Config.unlistedByte a.toNat then Memory.dropEntry m a.toNat
  else Memory.putEntry m a.toNat b

/-- The even address of the word that a word access at `a` touches: bit 0 is ignored (R66, log 33). -/
def wordAddr (a : Word) : Word := a &&& 0xFFFE#16

/-- The word at an address, its low byte at the even address (R62, R66). -/
def Memory.readWord (m : Memory) (a : Word) : Word :=
  Memory.readByte m (wordAddr a + 1#16) ++ Memory.readByte m (wordAddr a)

/-- Store a word, its low byte at the even address (R62, R66). -/
def Memory.writeWord (m : Memory) (a v : Word) : Memory :=
  Memory.writeByte (Memory.writeByte m (wordAddr a) (v.extractLsb' 0 8)) (wordAddr a + 1#16) (v.extractLsb' 8 8)

end Sys2Proof.Machine
end

