-- ==== Sys2Proof/Machine/Ops.lean ====
section
/-! DEFINITION. The named operations over registers, memory and the stack (R14, R16), the interrupt controller (R355), taking an exception (R312, R320) and returning from one (R340), and power-up (R380). -/

namespace Sys2Proof.Machine

/-! ## Registers (R14) -/

/-- The value of a register. -/
def Regs.get (g : Regs) : Reg → Word
  | .r0 => g.r0
  | .r1 => g.r1
  | .r2 => g.r2
  | .r3 => g.r3
  | .r4 => g.r4
  | .r5 => g.r5
  | .r6 => g.r6
  | .r7 => g.r7

/-- The register file with one register written. No register is hardwired (R22). -/
def Regs.set (g : Regs) (r : Reg) (v : Word) : Regs :=
  match r with
  | .r0 => { g with r0 := v }
  | .r1 => { g with r1 := v }
  | .r2 => { g with r2 := v }
  | .r3 => { g with r3 := v }
  | .r4 => { g with r4 := v }
  | .r5 => { g with r5 := v }
  | .r6 => { g with r6 := v }
  | .r7 => { g with r7 := v }

/-- Read a register: `x[i]`. -/
def State.reg (s : State) (r : Reg) : Word := s.regs.get r

/-- Write a register: `x[i] <- v`. -/
def State.setReg (s : State) (r : Reg) (v : Word) : State := { s with regs := s.regs.set r v }

/-- The program counter, R7 (R27). -/
def State.pc (s : State) : Word := s.reg .r7

/-- The stack pointer, R6 (R26). -/
def State.sp (s : State) : Word := s.reg .r6

/-- The link register, R5 (R25). -/
def State.lr (s : State) : Word := s.reg .r5

/-- Load the whole PSW. -/
def State.setPsw (s : State) (w : Word) : State := { s with psw := w }

/-- Load the CEX state. -/
def State.setCex (s : State) (c : Cex) : State := { s with cex := c }

/-! ## Memory accesses of the CPU: `MemRead` and `MemWrite` (R16) -/

/-- An address of #0000 to #000F belongs to a device register (R74). -/
def isPort (a : Word) : Bool := a.toNat < 16

/-- `MemRead(a, 1)`, with the side effects of a device register (R75). -/
def loadByte (a : Word) (s : State) : Byte × State :=
  if isPort a then portRead a s else (Memory.readByte s.mem a, s)

/-- `MemRead(a, 2)`: the byte at the even address, then the byte above it (R62, R66); for a device its CSR and then its DR (R77, log 32). -/
def loadWord (a : Word) (s : State) : Word × State :=
  let lo := loadByte (wordAddr a) s
  let hi := loadByte (wordAddr a + 1#16) lo.2
  (hi.1 ++ lo.1, hi.2)

/-- `MemWrite(a, 1, b)`, with the side effects of a device register (R75). -/
def storeByte (a : Word) (b : Byte) (s : State) : State :=
  if isPort a then portWrite a b s else { s with mem := Memory.writeByte s.mem a b }

/-- `MemWrite(a, 2, v)` (R62, R66, R77). -/
def storeWord (a v : Word) (s : State) : State :=
  storeByte (wordAddr a + 1#16) (v.extractLsb' 8 8) (storeByte (wordAddr a) (v.extractLsb' 0 8) s)

/-- `push(v)` (R16, R26): the stack grows downwards. -/
def push (v : Word) (s : State) : State :=
  let s := s.setReg .r6 (s.sp - 2#16)
  storeWord s.sp v s

/-- `pull()` (R16, R26). -/
def pull (s : State) : Word × State :=
  let r := loadWord s.sp s
  (r.1, r.2.setReg .r6 (r.2.sp + 2#16))

/-! ## Vectors and priorities (R80, R301) -/

/-- The address of vector `n`: `0xFFC0 + 4n` (R80). -/
def vectorAddr (n : BitVec 4) : Word := 0xFFC0#16 + 4#16 * n.setWidth 16

/-- The PSW word of vector `n` (R80, R82). -/
def vectorPsw (m : Memory) (n : BitVec 4) : Word := Memory.readWord m (vectorAddr n)

/-- The entry-point word of vector `n` (R80). -/
def vectorEntry (m : Memory) (n : BitVec 4) : Word := Memory.readWord m (vectorAddr n + 2#16)

/-- `prio(n)`: the CURRENT field of vector `n`'s PSW word (R304); read from memory when it is needed (R355, log 47). -/
def prio (m : Memory) (n : BitVec 4) : BitVec 3 := Psw.cur (vectorPsw m n)

/-- The vector of a device: its number (R345). -/
def deviceVector (d : BitVec 3) : BitVec 4 := d.setWidth 4

/-! ## The interrupt controller (R352 to R355) -/

/-- The CSR of a device that exists (R345, R357). -/
def deviceCsr (v : Devices) (d : BitVec 3) : Option Byte :=
  match d.toNat with
  | 0 => some v.timer.csr
  | 1 => some v.keyboard.csr
  | 2 => some v.screen.csr
  | _ => none

/-- The request under the level instance of `IRQ_MODEL`: IE and ENA and DBA (R352). -/
def levelRequest (v : Devices) (d : BitVec 3) : Bool :=
  match deviceCsr v d with
  | some csr => csrIe csr && csrEna csr && csrDba csr
  | none => false

/-- Device `d` is pending (R353). -/
def pending (v : Devices) (d : BitVec 3) : Bool :=
  match Config.irqModel with
  | .latch => v.irq.getLsbD d.toNat
  | .level => levelRequest v d

/-- The eight device numbers. -/
def deviceNumbers : List (BitVec 3) := [0#3, 1#3, 2#3, 3#3, 4#3, 5#3, 6#3, 7#3]

/-- The pending devices whose priority no pending device exceeds (R355). -/
def picCandidates (m : Memory) (v : Devices) : List (BitVec 3) :=
  let p := deviceNumbers.filter (pending v)
  p.filter (fun d => p.all (fun e => decide (prio m (deviceVector e) ≤ prio m (deviceVector d))))

/-- One of some devices: the only one, or a draw among several (R355, log 23). -/
def choose (ds : List (BitVec 3)) (free : Word) : Option (BitVec 3) :=
  match ds with
  | [] => none
  | [d] => some d
  | d :: e :: rest => (d :: e :: rest)[free.toNat % (rest.length + 2)]?

/-- `pic_select()` (R355). -/
def picSelect (s : State) : Option (BitVec 3) := choose (picCandidates s.mem s.dev) s.freeWord

/-- The device that `pic_select()` gives, where its priority is above `p` (R310, R341). -/
def picAbove (p : BitVec 3) (s : State) : Option (BitVec 3) :=
  match picSelect s with
  | some d => if p < prio s.mem (deviceVector d) then some d else none
  | none => none

/-! ## The saved CEX word (R259) -/

/-- A state inside a block without a word to come is the inactive state (R254, R259, log 8). -/
def Cex.settle (c : Cex) : Cex := if c.active && !(c.t == 0#3 && c.f == 0#3) then c else Cex.inactive

/-- The layout the spec suggests: `f` 2:0, `t` 5:3, `cond` 6, `active` 7, 15:8 zero (R259). -/
def Cex.code (c : Cex) : Word := 0#8 ++ BitVec.ofBool c.active ++ BitVec.ofBool c.cond ++ c.t ++ c.f

/-- The CEX state of a byte in the suggested layout. -/
def Cex.ofByte (b : Byte) : Cex :=
  Cex.settle ⟨b.getLsbD 7, b.getLsbD 6, b.extractLsb' 3 3, b.extractLsb' 0 3⟩

/-- `cex_pack`: the word pushed for a CEX state, an unknown recoding of the suggested layout (R259, log 7). -/
def cexPack (c : Cex) : Word := Config.cexCode c.code

/-- `cex_unpack`: the state that packs to the word, or where no state does, an unknown one (R259, log 7, log 9). -/
def cexUnpack (w : Word) : Cex :=
  let u := Config.cexCode.symm w
  let c := Cex.ofByte (u.extractLsb' 0 8)
  if c.code = u then c else Cex.ofByte (Config.cexStray w)

/-! ## Taking an exception -/

/-- The four pushes of the entry: PC, LR, PSW, CEX state (R312 steps 1 to 4). -/
def pushFrame (savedPc : Word) (s : State) : State :=
  let s := push savedPc s
  let s := push s.lr s
  let s := push s.psw s
  push (cexPack s.cex) s

/-- The new PSW of an entry or a chain: the vector's PSW word with SLP 0, PREV the old CUR, and for a fault FLT 1 (R312 steps 6 to 8, R320, log 20). -/
def handlerPsw (vector old : Word) (fault : Bool) : Word :=
  let w := Psw.setPrev (Psw.setSlp (Psw.loaded vector) false) (Psw.cur old)
  if fault then Psw.setFlt w true else w

/-- `enter(n, savedpc, fault)`: the eleven steps of R312; the vector is read after the pushes. -/
def enter (n : BitVec 4) (savedPc : Word) (fault : Bool) (s : State) : State :=
  let s := pushFrame savedPc s
  let s := s.setPsw (handlerPsw (vectorPsw s.mem n) s.psw fault)
  let s := s.setReg .r7 (vectorEntry s.mem n)
  let s := s.setReg .r5 0xFFFF#16
  s.setCex Cex.inactive

/-- The three causes of a single fault (R302). -/
inductive FaultCause where
  /-- Vector 8 (R321). -/
  | illegalInstruction
  /-- Vector 9 (R323). -/
  | invalidAddress
  /-- Vector 10 (R324). -/
  | priority
  deriving DecidableEq, Repr

/-- The vector of a fault (R302). -/
def FaultCause.vector : FaultCause → BitVec 4
  | .illegalInstruction => 8#4
  | .invalidAddress => 9#4
  | .priority => 10#4

/-- The PC a fault pushes (`FAULT_SAVED_PC`, R322, log 21). -/
def faultPc (c : FaultCause) (s : State) : Word :=
  match Config.faultSavedPc with
  | .current => s.pc
  | .faulting =>
    match c with
    | .invalidAddress => s.pc
    | .illegalInstruction => s.pc - 2#16
    | .priority => s.pc - 2#16

/-- A double fault: the CPU halts (R327, log 19). -/
def doubleFault (c : FaultCause) (s : State) : State :=
  if Config.doubleFaultHalts then { s with halted := true } else enter 11#4 (faultPc c s) true s

/-- `fault(v)` (R320): a double fault in the fault state (R327); stuck, with no other change, where the handler's priority is not above CUR (R325, log 18); else the entry. -/
def raise (c : FaultCause) (s : State) : State :=
  if Psw.flt s.psw then doubleFault c s
  else if Config.faultPriorityCheck && decide (prio s.mem c.vector ≤ Psw.cur s.psw) then
    { s with stuck := some c.vector }
  else enter c.vector (faultPc c s) true s

/-- What becomes of an LD or ST with an undefined mode: the illegal instruction fault, or a refusal (`LDST_UNDEFINED_MODE`, R126, R157, log 16). -/
def undefinedMode (s : State) : Result :=
  match Config.ldstUndefinedMode with
  | .fault => .next (raise .illegalInstruction s)
  | .refuse => .refused .undefinedAddressingMode

/-! ## Returning from an exception (R340, R341) -/

/-- Branch (b) of R340: pull the CEX state, the PSW (SLP then cleared), LR and PC. -/
def pullFrame (s : State) : State :=
  let r := pull s
  let s := r.2.setCex (cexUnpack r.1)
  let r := pull s
  let s := r.2.setPsw (Psw.setSlp (Psw.loaded r.1) false)
  let r := pull s
  let s := r.2.setReg .r5 r.1
  let r := pull s
  r.2.setReg .r7 r.1

/-- Branch (c) of R340: control goes to device `d`'s handler without a push or a pull; PREV is the CUR of the handler that ended (R341, log 37). -/
def tailChain (d : BitVec 3) (s : State) : State :=
  let n := deviceVector d
  let s := s.setPsw (handlerPsw (vectorPsw s.mem n) s.psw false)
  s.setReg .r7 (vectorEntry s.mem n)

/-- `end_of_exception()` (R340): a pending device above PREV is chained, else the frame is pulled. -/
def endOfException (s : State) : State :=
  match picAbove (Psw.prev s.psw) s with
  | some d => tailChain d s.tick
  | none => pullFrame s

/-! ## Power-up -/

/-- The power-up sequence over launch values of memory, registers and device registers (R380, R383, R359): the timer's DR starts at 1, nothing is pending or in transit. -/
def powerUp (s : State) : State :=
  { s with
    psw := Psw.setSlp (Psw.loaded (vectorPsw s.mem 15#4)) false
    regs := s.regs.set .r7 (vectorEntry s.mem 15#4)
    cex := Cex.inactive
    halted := false
    stuck := none
    dev := { s.dev with
      timer := { s.dev.timer with dr := 1#8 }
      irq := 0#8
      timerOf := false
      keyboardOf := false
      transit := [] } }

/-- A start under the debugger: PC, PSW and SP from the host, the rest as after power-up (R372, R385, log 44). -/
def debuggerStart (pc psw sp : Word) (s : State) : State :=
  (((powerUp s).setReg .r7 pc).setReg .r6 sp).setPsw (Psw.loaded psw)

end Sys2Proof.Machine
end

