-- ==== Sys2Proof/Machine/Operands.lean ====
section
/-! DEFINITION. The operand forms: register and constant operands of either width (R14, R112, R170), result writes (R171), the addressing modes and offsets of the memory instructions (R157, R156), branch targets (R231) and bit masks (R187). -/

namespace Sys2Proof.Machine

/-! ## Registers and constants -/

/-- `opd(i, wb)`: the register, or its low byte (R14, R30). -/
def State.opd (s : State) (wb : Width) (r : Reg) : BitVec wb.bits := (s.reg r).setWidth wb.bits

/-- A register value after a write of either width: a byte write keeps the high byte (R30). -/
def mergeLow (wb : Width) (old : Word) (v : BitVec wb.bits) : Word :=
  match wb, v with
  | .word, v => v
  | .byte, v => old.extractLsb' 8 8 ++ v

/-- `regw(i, wb, v)` (R14, R171). -/
def State.regw (s : State) (wb : Width) (r : Reg) (v : BitVec wb.bits) : State :=
  s.setReg r (mergeLow wb (s.reg r) v)

/-- The value of a constant (R112, Table 8). -/
def constantValue : Constant → Word
  | .zero => 0#16
  | .one => 1#16
  | .two => 2#16
  | .four => 4#16
  | .eight => 8#16
  | .sixteen => 16#16
  | .thirtyTwo => 32#16
  | .minusOne => 0xFFFF#16

/-- The source operand of a two-operand instruction: a register, or a constant truncated to the width (R170). -/
def State.source (s : State) (wb : Width) : Source → BitVec wb.bits
  | .reg r => s.opd wb r
  | .con k => (constantValue k).setWidth wb.bits

/-- The state with the condition bits of one row of R38 written. -/
def State.setFlags (s : State) (row : FlagMask) (f : Flags) : State :=
  { s with psw := Psw.writeFlags s.psw row f }

/-- The row of R38 of an instruction that has no result to judge: a bit that the row names takes any value, a draw (log 11). Under the default rows no bit is named and nothing changes. -/
def State.setFreeFlags (s : State) (row : FlagMask) : State :=
  if row = ⟨false, false, false, false⟩ then s else (s.setFlags row (freeFlags s.freeWord)).tick

/-- A result written to the destination, and its flags (R171, R173). -/
def State.answer (s : State) (wb : Width) (d : Reg) (row : FlagMask) (r : BitVec wb.bits × Flags) : State :=
  (s.regw wb d r.1).setFlags row r.2

/-- `m` of R187: the bit whose number is the source, or the mask of `BITOP_RANGE` where the number is not below the width (log 14, log 15). -/
def bitMask {w : Nat} (n : BitVec w) : BitVec w := if n.toNat < w then BitVec.twoPow w n.toNat else Config.bitopOutOfRange w n.toNat

/-! ## Memory operands -/

/-- `k`: the step of an auto-increment or auto-decrement (R151). -/
def autoStep : Width → Word
  | .word => 2#16
  | .byte => 1#16

/-- `delta` of R152: `+k`, `-k` or nothing. -/
def autoDelta (m : AddrMode) (wb : Width) : Word :=
  if m.inc then autoStep wb else if m.dec then 0#16 - autoStep wb else 0#16

/-- The index register stepped before the access, where PRPO = 1 (R152, R154). -/
def preStep (m : AddrMode) (wb : Width) (r : Reg) (s : State) : State :=
  if m.prpo then s.setReg r (s.reg r + autoDelta m wb) else s

/-- The index register stepped after the access, where PRPO = 0; by nothing in the direct mode (R152, R154). -/
def postStep (m : AddrMode) (wb : Width) (r : Reg) (s : State) : State :=
  if m.prpo then s else s.setReg r (s.reg r + autoDelta m wb)

/-- The effective address of LDR and STR: base plus sign-extended byte offset (R115, R156, R158). -/
def relAddr (s : State) (base : Reg) (off : BitVec 7) : Word := s.reg base + off.signExtend 16

/-- `MemRead` of either width (R151, R153). -/
def load (wb : Width) (a : Word) (s : State) : BitVec wb.bits × State :=
  match wb with
  | .word => loadWord a s
  | .byte => loadByte a s

/-- `MemWrite` of either width (R151, R153). -/
def store (wb : Width) (a : Word) (v : BitVec wb.bits) (s : State) : State :=
  match wb, v with
  | .word, v => storeWord a v s
  | .byte, v => storeByte a v s

/-- A load of either width into a register, without a flag (R156). -/
def loadInto (wb : Width) (a : Word) (d : Reg) (s : State) : State :=
  let r := load wb a s
  r.2.regw wb d r.1

/-! ## Branch targets (R231) -/

/-- The target of a transfer of control: the sign-extended offset shifted left by one and added to the PC, which is already the address of the instruction plus 2 (R231). -/
def branchTarget {k : Nat} (s : State) (off : BitVec k) : Word := s.pc + off.signExtend 16 <<< 1

/-- A branch taken where its condition holds (R233 to R240), over its row of R38. -/
def branchIf {k : Nat} (taken : Bool) (off : BitVec k) (s : State) : State :=
  (if taken then s.setReg .r7 (branchTarget s off) else s).setFreeFlags Config.flagsTransfer

end Sys2Proof.Machine
end

