-- ==== Sys2Proof/Machine/Conditional.lean ====
section
/-! DEFINITION. CEX (46_conditional_execution.md) and the count of one fetched word (R254). -/

namespace Sys2Proof.Machine

/-- CEX: the condition is evaluated once and the whole CEX state is replaced (R252, R255, log 35); with both counts zero it is inactive. -/
def execCex (code : Cond) (t f : BitVec 3) (s : State) : Result :=
  .next ((s.setCex (Cex.settle ⟨true, condHolds code s.psw, t, f⟩)).setFreeFlags Config.flagsCex)

/-- The count of a fetched word: whether it is executed, and the CEX state after it (R254). -/
def Cex.consume (c : Cex) : Bool × Cex :=
  if c.active then
    if c.t = 0#3 then (!c.cond, Cex.settle { c with f := c.f - 1#3 })
    else (c.cond, Cex.settle { c with t := c.t - 1#3 })
  else (true, c)

end Sys2Proof.Machine
end

