-- ==== Sys2Proof/Machine/Exchange.lean ====
section
/-! DEFINITION. MOV and SWAP (43_register_exchange.md). -/

namespace Sys2Proof.Machine

/-- MOV: `regw(d, wb, opd(s, wb))` (R201). -/
def execMov (wb : Width) (src d : Reg) (s : State) : Result :=
  .next (s.regw wb d (s.opd wb src))

/-- SWAP: `t <- x[d]; x[d] <- x[s]; x[s] <- t` (R202). -/
def execSwap (src d : Reg) (s : State) : Result :=
  let t := s.reg d
  let s := s.setReg d (s.reg src)
  .next (s.setReg src t)

end Sys2Proof.Machine
end

