-- ==== Sys2Proof/Machine/MemoryAccess.lean ====
section
/-! DEFINITION. LD, ST, LDR, STR (41_memory_access.md). No data access faults (R155); the flags of LD and ST are their row of R38, LDR and STR change none. -/

namespace Sys2Proof.Machine

/-- LD (R152): the steps in the order of Table 5 (log 40); the undefined modes are `undefinedMode` (R157, log 16). -/
def execLd (mode : AddrMode) (wb : Width) (src d : Reg) (s : State) : Result :=
  if mode.defined then
    let s := preStep mode wb src s
    let r := load wb (s.reg src) s
    .next (postStep mode wb src (r.2.answer wb d Config.flagsLdSt (r.1, resultFlags r.1 false)))
  else undefinedMode s

/-- ST (R154): the steps in the order of Table 5 (log 40); the undefined modes are `undefinedMode` (R157, log 16). -/
def execSt (mode : AddrMode) (wb : Width) (src d : Reg) (s : State) : Result :=
  if mode.defined then
    let s := preStep mode wb d s
    let v := s.opd wb src
    .next (postStep mode wb d ((store wb (s.reg d) v s).setFlags Config.flagsLdSt (resultFlags v false)))
  else undefinedMode s

/-- LDR (R156). -/
def execLdr (off : BitVec 7) (wb : Width) (src d : Reg) (s : State) : Result :=
  .next (loadInto wb (relAddr s src off) d s)

/-- STR (R158). -/
def execStr (off : BitVec 7) (wb : Width) (src d : Reg) (s : State) : Result :=
  .next (store wb (relAddr s d off) (s.opd wb src) s)

end Sys2Proof.Machine
end

