-- ==== Sys2Proof/Machine/PswControl.lean ====
section
/-! DEFINITION. SETPRI, SVC, SETCC, CLRCC (47_psw_and_svc.md). -/

namespace Sys2Proof.Machine

/-- SETPRI: CUR is lowered, or a priority fault (R266). -/
def execSetpri (pr : BitVec 3) (s : State) : Result :=
  if pr < Psw.cur s.psw then .next (s.setPsw (Psw.setCur s.psw pr)) else .next (raise .priority s)

/-- SVC: the trap through vector `sa`, or a priority fault (R268, R330). Any vector (log 42). -/
def execSvc (sa : BitVec 4) (s : State) : Result :=
  if Psw.cur s.psw < prio s.mem sa then .next (enter sa s.pc false s) else .next (raise .priority s)

/-- The bits that SETCC sets: at priority 7 the SLP request is dropped (R272, log 39). -/
def setccMask (m : BitVec 5) (w : Word) : BitVec 5 := if Psw.cur w = 7#3 then m &&& 0b10111#5 else m

/-- SETCC (R272). -/
def execSetcc (m : BitVec 5) (s : State) : Result :=
  .next (s.setPsw (s.psw ||| (setccMask m s.psw).setWidth 16))

/-- CLRCC (R274). -/
def execClrcc (m : BitVec 5) (s : State) : Result :=
  .next (s.setPsw (s.psw &&& ~~~(m.setWidth 16)))

end Sys2Proof.Machine
end

