-- ==== Sys2Proof/Machine/RegisterInit.lean ====
section
/-! DEFINITION. MOVL, MOVLZ, MOVLS, MOVH (40_register_init.md). -/

namespace Sys2Proof.Machine

/-- A register initialized, over the family's row of R38 (R140, log 11). -/
def State.initReg (s : State) (d : Reg) (v : Word) : State :=
  s.answer .word d Config.flagsMovx (v, resultFlags v false)

/-- MOVL: `x[d] <- x[d][15:8] :: b` (R141). -/
def execMovl (b : Byte) (d : Reg) (s : State) : Result :=
  .next (s.initReg d ((s.reg d).extractLsb' 8 8 ++ b))

/-- MOVLZ: `x[d] <- 0x00 :: b` (R142). -/
def execMovlz (b : Byte) (d : Reg) (s : State) : Result :=
  .next (s.initReg d (0x00#8 ++ b))

/-- MOVLS: `x[d] <- 0xFF :: b` (R143). -/
def execMovls (b : Byte) (d : Reg) (s : State) : Result :=
  .next (s.initReg d (0xFF#8 ++ b))

/-- MOVH: `x[d] <- b :: x[d][7:0]` (R144). -/
def execMovh (b : Byte) (d : Reg) (s : State) : Result :=
  .next (s.initReg d (b ++ (s.reg d).extractLsb' 0 8))

end Sys2Proof.Machine
end

