-- ==== Sys2Proof/Machine/SingleRegister.lean ====
section
/-! DEFINITION. SRA, RRC, COMP, SWPB, SXT (44_single_register.md), over the rows of the flag table of R38. -/

namespace Sys2Proof.Machine

/-- The operand shifted right by one with `top` as its new top bit, and the bit shifted out as C (R211, R212). -/
def shiftedRight {w : Nat} (x : BitVec w) (top : Bool) : BitVec w × Flags :=
  let r := setBit (x >>> 1) (w - 1) top
  (r, resultFlags r (x.getLsbD 0))

/-- SRA: the top bit stays (R211). -/
def execSra (wb : Width) (d : Reg) (s : State) : Result :=
  .next (s.answer wb d Config.flagsShift (shiftedRight (s.opd wb d) (s.opd wb d).msb))

/-- RRC: the old carry enters at the top (R212). -/
def execRrc (wb : Width) (d : Reg) (s : State) : Result :=
  .next (s.answer wb d Config.flagsShift (shiftedRight (s.opd wb d) (Psw.c s.psw)))

/-- COMP: the ones' complement (R213). -/
def execComp (wb : Width) (d : Reg) (s : State) : Result :=
  let r := ~~~(s.opd wb d)
  .next (s.answer wb d Config.flagsSingle (r, resultFlags r false))

/-- SWPB: the bytes exchanged, always a word (R214). -/
def execSwpb (d : Reg) (s : State) : Result :=
  let r : Word := (s.reg d).extractLsb' 0 8 ++ (s.reg d).extractLsb' 8 8
  .next (s.answer .word d Config.flagsSingle (r, resultFlags r false))

/-- SXT: the low byte sign-extended, always a word (R215). -/
def execSxt (d : Reg) (s : State) : Result :=
  let r : Word := ((s.reg d).extractLsb' 0 8).signExtend 16
  .next (s.answer .word d Config.flagsSingle (r, resultFlags r false))

end Sys2Proof.Machine
end

