-- ==== Sys2Proof/Machine/Transfer.lean ====
section
/-! DEFINITION. BL and the eight branches (45_transfer_of_control.md). -/

namespace Sys2Proof.Machine

/-- BL: `x[5] <- pc; pc <- target` (R232). -/
def execBl (off : BitVec 13) (s : State) : Result :=
  .next (((s.setReg .r5 s.pc).setReg .r7 (branchTarget s off)).setFreeFlags Config.flagsTransfer)

/-- BEQ (R233). -/
def execBeq (off : BitVec 10) (s : State) : Result :=
  .next (branchIf (Psw.z s.psw) off s)

/-- BNE (R234). -/
def execBne (off : BitVec 10) (s : State) : Result :=
  .next (branchIf (!Psw.z s.psw) off s)

/-- BC (R235). -/
def execBc (off : BitVec 10) (s : State) : Result :=
  .next (branchIf (Psw.c s.psw) off s)

/-- BNC (R236). -/
def execBnc (off : BitVec 10) (s : State) : Result :=
  .next (branchIf (!Psw.c s.psw) off s)

/-- BN (R237). -/
def execBn (off : BitVec 10) (s : State) : Result :=
  .next (branchIf (Psw.n s.psw) off s)

/-- BGE (R238). -/
def execBge (off : BitVec 10) (s : State) : Result :=
  .next (branchIf (Psw.n s.psw == Psw.v s.psw) off s)

/-- BLT (R239). -/
def execBlt (off : BitVec 10) (s : State) : Result :=
  .next (branchIf (Psw.n s.psw != Psw.v s.psw) off s)

/-- BRA (R240). -/
def execBra (off : BitVec 10) (s : State) : Result :=
  .next (branchIf true off s)

end Sys2Proof.Machine
end

