-- ==== Sys2Proof/Machine/TwoOperand.lean ====
section
/-! DEFINITION. The twelve two-operand instructions (42_two_operand.md), over the rows of the flag table of R38. -/

namespace Sys2Proof.Machine

/-- ADD: `addw(D, S, 0, W)` (R174). -/
def execAdd (wb : Width) (src : Source) (d : Reg) (s : State) : Result :=
  .next (s.answer wb d Config.flagsArith (addw (s.opd wb d) (s.source wb src) false))

/-- ADDC: `addw(D, S, psw.C, W)` (R175). -/
def execAddc (wb : Width) (src : Source) (d : Reg) (s : State) : Result :=
  .next (s.answer wb d Config.flagsArith (addw (s.opd wb d) (s.source wb src) (Psw.c s.psw)))

/-- SUB: `addw(D, ~S, 1, W)` (R176). -/
def execSub (wb : Width) (src : Source) (d : Reg) (s : State) : Result :=
  .next (s.answer wb d Config.flagsArith (addw (s.opd wb d) (~~~(s.source wb src)) true))

/-- SUBC: `addw(D, ~S, psw.C, W)` (R177). -/
def execSubc (wb : Width) (src : Source) (d : Reg) (s : State) : Result :=
  .next (s.answer wb d Config.flagsArith (addw (s.opd wb d) (~~~(s.source wb src)) (Psw.c s.psw)))

/-- Both operands of DADD hold decimal digits only (R178). -/
def daddValid (wb : Width) (src : Source) (d : Reg) (s : State) : Bool :=
  bcdValid (wb.bits / 4) (s.opd wb d).toNat && bcdValid (wb.bits / 4) (s.source wb src).toNat

/-- DADD (R178, log 12); with a digit above 9 the result and N, Z, C are two draws (log 13). -/
def execDadd (wb : Width) (src : Source) (d : Reg) (s : State) : Result :=
  if daddValid wb src d s then
    .next (s.answer wb d Config.flagsDadd (daddDecimal (s.opd wb d) (s.source wb src) (Psw.c s.psw)))
  else
    .next (s.tick.tick.answer wb d Config.flagsDadd (daddFree s.freeWord s.tick.freeWord))

/-- CMP: SUB with the result discarded (R179). -/
def execCmp (wb : Width) (src : Source) (d : Reg) (s : State) : Result :=
  .next (s.setFlags Config.flagsArith (addw (s.opd wb d) (~~~(s.source wb src)) true).2)

/-- XOR (R180). -/
def execXor (wb : Width) (src : Source) (d : Reg) (s : State) : Result :=
  let r := s.opd wb d ^^^ s.source wb src
  .next (s.answer wb d Config.flagsLogic (r, resultFlags r false))

/-- AND (R181). -/
def execAnd (wb : Width) (src : Source) (d : Reg) (s : State) : Result :=
  let r := s.opd wb d &&& s.source wb src
  .next (s.answer wb d Config.flagsLogic (r, resultFlags r false))

/-- OR (R182). -/
def execOr (wb : Width) (src : Source) (d : Reg) (s : State) : Result :=
  let r := s.opd wb d ||| s.source wb src
  .next (s.answer wb d Config.flagsLogic (r, resultFlags r false))

/-- BIT: the test of one bit, the result discarded (R183, log 15). -/
def execBit (wb : Width) (src : Source) (d : Reg) (s : State) : Result :=
  .next (s.setFlags Config.flagsBit (resultFlags (s.opd wb d &&& bitMask (s.source wb src)) false))

/-- BIC: one bit cleared (R184, log 15). -/
def execBic (wb : Width) (src : Source) (d : Reg) (s : State) : Result :=
  let r := s.opd wb d &&& ~~~(bitMask (s.source wb src))
  .next (s.answer wb d Config.flagsBicBis (r, resultFlags r false))

/-- BIS: one bit set (R185, log 15). -/
def execBis (wb : Width) (src : Source) (d : Reg) (s : State) : Result :=
  let r := s.opd wb d ||| bitMask (s.source wb src)
  .next (s.answer wb d Config.flagsBicBis (r, resultFlags r false))

end Sys2Proof.Machine
end

