-- ==== Sys2Proof/Machine/Dispatch.lean ====
section
/-! DEFINITION. One arm per instruction, in the order of the opcode table (R121). -/

namespace Sys2Proof.Machine

def exec (i : Instr) (s : State) : Host.Outcome State Fault Refusal :=
  match i with
  | .bl off => Sys2Proof.Machine.execBl off s
  | .beq off => Sys2Proof.Machine.execBeq off s
  | .bne off => Sys2Proof.Machine.execBne off s
  | .bc off => Sys2Proof.Machine.execBc off s
  | .bnc off => Sys2Proof.Machine.execBnc off s
  | .bn off => Sys2Proof.Machine.execBn off s
  | .bge off => Sys2Proof.Machine.execBge off s
  | .blt off => Sys2Proof.Machine.execBlt off s
  | .bra off => Sys2Proof.Machine.execBra off s
  | .add wb src d => Sys2Proof.Machine.execAdd wb src d s
  | .addc wb src d => Sys2Proof.Machine.execAddc wb src d s
  | .sub wb src d => Sys2Proof.Machine.execSub wb src d s
  | .subc wb src d => Sys2Proof.Machine.execSubc wb src d s
  | .dadd wb src d => Sys2Proof.Machine.execDadd wb src d s
  | .cmp wb src d => Sys2Proof.Machine.execCmp wb src d s
  | .xor wb src d => Sys2Proof.Machine.execXor wb src d s
  | .and wb src d => Sys2Proof.Machine.execAnd wb src d s
  | .or wb src d => Sys2Proof.Machine.execOr wb src d s
  | .bit wb src d => Sys2Proof.Machine.execBit wb src d s
  | .bic wb src d => Sys2Proof.Machine.execBic wb src d s
  | .bis wb src d => Sys2Proof.Machine.execBis wb src d s
  | .mov wb src d => Sys2Proof.Machine.execMov wb src d s
  | .swap src d => Sys2Proof.Machine.execSwap src d s
  | .sra wb d => Sys2Proof.Machine.execSra wb d s
  | .rrc wb d => Sys2Proof.Machine.execRrc wb d s
  | .comp wb d => Sys2Proof.Machine.execComp wb d s
  | .swpb d => Sys2Proof.Machine.execSwpb d s
  | .sxt d => Sys2Proof.Machine.execSxt d s
  | .setpri pr => Sys2Proof.Machine.execSetpri pr s
  | .svc sa => Sys2Proof.Machine.execSvc sa s
  | .setcc m => Sys2Proof.Machine.execSetcc m s
  | .clrcc m => Sys2Proof.Machine.execClrcc m s
  | .cex code t f => Sys2Proof.Machine.execCex code t f s
  | .ld mode wb src d => Sys2Proof.Machine.execLd mode wb src d s
  | .st mode wb src d => Sys2Proof.Machine.execSt mode wb src d s
  | .movl b d => Sys2Proof.Machine.execMovl b d s
  | .movlz b d => Sys2Proof.Machine.execMovlz b d s
  | .movls b d => Sys2Proof.Machine.execMovls b d s
  | .movh b d => Sys2Proof.Machine.execMovh b d s
  | .ldr off wb src d => Sys2Proof.Machine.execLdr off wb src d s
  | .str off wb src d => Sys2Proof.Machine.execStr off wb src d s

end Sys2Proof.Machine
end

