-- ==== Sys2Proof/Machine/Cycle.lean ====
section
/-! DEFINITION. The instruction cycle: one step of R304, with the device agent's turn before it (R358). -/

namespace Sys2Proof.Machine

/-- The fetch: the word at the PC, and the PC incremented by 2 while it is read (R27, R28, R304 line 5). -/
def fetch (s : State) : Word × State :=
  let r := loadWord s.pc s
  (r.1, r.2.setReg .r7 (r.2.pc + 2#16))

/-- Decode a word and run its instruction; a word that is none raises the illegal instruction fault (R304 lines 7 and 8, R321), one with an undefined mode by `LDST_UNDEFINED_MODE` (log 16). -/
def runWord (w : Word) (s : State) : Result :=
  match decode w with
  | .ok i => exec i s
  | .error .undefinedAddressingMode => undefinedMode s
  | .error _ => .next (raise .illegalInstruction s)

/-- What becomes of a fetched word: skipped, "fetched but not decoded", or run (R254, R304 line 6). -/
def gate (w : Word) (s : State) : Result :=
  let k := s.cex.consume
  if k.1 then runWord w (s.setCex k.2) else .next (s.setCex k.2)

/-- The fetch and execution of one word (R304 lines 5 to 8). -/
def fetchAndRun (s : State) : Result :=
  let r := fetch s
  gate r.1 r.2

/-- The device whose interrupt is taken at a boundary: none while the PC is #FFFF (R304 line 1, R311, log 36). -/
def acceptable (s : State) : Option (BitVec 3) :=
  if s.pc = 0xFFFF#16 then none else picAbove (Psw.cur s.psw) s

/-- An interrupt is taken (R304 line 1, R312); the selection among equals used up a draw (log 23). -/
def takeInterrupt (d : BitVec 3) (s : State) : State := enter (deviceVector d) s.pc false s.tick

/-- R304 lines 1 to 8. -/
def boundary (s : State) : Result :=
  match acceptable s with
  | some d => .next (takeInterrupt d s)
  | none =>
    if Psw.slp s.psw then .next s
    else if s.pc = 0xFFFF#16 then .next (endOfException s)
    else if s.pc.getLsbD 0 then .next (raise .invalidAddress s)
    else fetchAndRun s

/-- The CPU's step of a state it can run: a state with an odd R6 is refused by one instance of `ODD_SP` (R69, log 17). -/
def cpuStep (s : State) : Result :=
  match Config.oddSp with
  | .ignoreBit0 => boundary s
  | .refuse => if s.sp.getLsbD 0 then .refused .oddStackPointer else boundary s

/-- Why the CPU takes no further step, if it takes none: the two terminal conditions of R373. -/
def State.stopReason (s : State) : Option Fault :=
  if s.halted then some .halted else s.stuck.map Fault.faultNotDeliverable

/-- One step: the device agent's turn, then the CPU's step, R304 lines 1 to 8. A halted or stuck CPU takes none (R304 line 0, R325, R327): the agent alone goes on (R358), and when the schedule holds no more turns the step reports the failure (R373, log 18, log 19, log 24). -/
def cycle (s : State) : Result :=
  match s.stopReason with
  | none => cpuStep (agentTurn s)
  | some failure => if s.inbox.isEmpty then .fault failure else .next (agentTurn s)

/-- A word stored by the loader at the even address `a` of ordinary memory, its low byte first (R63, R83, R381, log 4, log 52). -/
def placeWord (a v : Word) (s : State) : State := { s with mem := Memory.writeWord s.mem a v }

end Sys2Proof.Machine
end

