-- ==== Sys2Proof/Machine/Step.lean ====
section
/-! DEFINITION. The step of the machine, and the placing of an instruction where the next step fetches. -/

namespace Sys2Proof.Machine

/-- One step of R304. -/
def step (s : State) : Host.Outcome State Fault Refusal := cycle s

/-- The state with an instruction of `nbits` bits `w` where the next step fetches, at the PC (log 4, log 52). Every instruction is one word (R100). -/
def State.withFetchWord (s : State) (nbits w : Nat) : State := placeWord s.pc (BitVec.ofNat 16 (w % 2 ^ nbits)) s

end Sys2Proof.Machine
end

