-- ==== Sys2Proof/Safety.lean ====
section
/-! DEFINITION. The terms claims are stated in: the invariant, the conditions of a run (R373), what two states agree on (frames), and decimal values. -/

namespace Sys2Proof.Machine

/-! ## The invariant -/

/-- What every step keeps: memory in its canonical form, a CEX state that is one of R254's, no request of an absent device (R357), no sleep at priority 7 (R37, R272), the halted state only in the fault state (R327), and stuck only outside it, on a fault whose priority is not above CUR (R325). -/
abbrev State.Inv (s : State) : Prop :=
  Memory.wf s.mem ∧ Cex.wf s.cex ∧ s.dev.irq.extractLsb' 3 5 = 0#5 ∧
    (Psw.slp s.psw = true → Psw.cur s.psw ≠ 7#3) ∧ (s.halted = true → Psw.flt s.psw = true) ∧
    (∀ v, s.stuck = some v → Psw.flt s.psw = false ∧ prio s.mem v ≤ Psw.cur s.psw)

/-- SP is even, as the document asks: a state with an odd SP is outside its guarantee (R26, 93_implementation_defined.md U3, log 17). -/
abbrev State.spEven (s : State) : Prop := s.sp.getLsbD 0 = false

/-! ## The conditions of a run (R373) -/

/-- "A run of the model is in exactly one of these conditions after any step" (R373). -/
inductive RunStatus where
  | running
  | asleep
  | halted
  | stuck
  deriving DecidableEq, Repr

/-- The condition of a run at a state (R373). -/
def State.runStatus (s : State) : RunStatus :=
  if s.halted then .halted
  else if s.stuck.isSome then .stuck
  else if Psw.slp s.psw then .asleep
  else .running

/-- The CPU can take a step: it is neither halted nor stuck (R373). -/
abbrev State.live (s : State) : Prop := s.halted = false ∧ s.stuck = none

/-- An event of an input device with this CSR may raise a request: enabled, with IE set or with I/O contrary to its kind (R352, log 28). -/
def inputMayRequest (csr : Byte) : Bool := csrEna csr && (csrIe csr || !csrIo csr)

/-- The screen may raise a request: enabled with IE set, or with a byte in transit whose completion is open (R352, log 29). -/
def screenMayRequest (v : Devices) : Bool :=
  csrEna v.screen.csr && csrIe v.screen.csr ||
    v.transit.any (fun x => !(x.enabled && csrEna v.screen.csr && !csrIo v.screen.csr))

/-- An event of device `n` may raise its request. -/
def eventMayRequest (v : Devices) (n : Nat) : Bool :=
  match n with
  | 0 => inputMayRequest v.timer.csr
  | 1 => inputMayRequest v.keyboard.csr
  | 2 => screenMayRequest v
  | _ => false

/-- Device `d` is pending, or may come to be without the CPU touching it. -/
def mayInterrupt (v : Devices) (d : BitVec 3) : Bool := pending v d || eventMayRequest v d.toNat

/-- No word is skipped under this CEX state, however many are fetched (R254). -/
def Cex.skipsNothing (c : Cex) : Bool := !c.active || (if c.cond then c.f == 0#3 else c.t == 0#3)

/-- The spec's convention for a program that finishes: at the fetch of a branch to itself, 0x3FFF in ordinary memory, that is executed and not skipped, in a running machine, at a priority that no device exceeds which is pending or may come to be (R373, log 46). -/
def State.finished (s : State) : Bool :=
  s.runStatus == .running && Memory.readWord s.mem s.pc == 0x3FFF#16 && !isPort s.pc && !s.pc.getLsbD 0 &&
    s.cex.skipsNothing &&
    deviceNumbers.all (fun d => !mayInterrupt s.dev d || decide (prio s.mem (deviceVector d) ≤ Psw.cur s.psw))

/-! ## Frames -/

/-- Every register outside the list is unchanged. -/
abbrev sameRegsBut (rs : List Reg) (s t : State) : Prop := ∀ r, r ∉ rs → t.reg r = s.reg r

/-- Every PSW bit outside the mask is unchanged. -/
abbrev samePswBut (mask : Word) (s t : State) : Prop := t.psw &&& ~~~mask = s.psw &&& ~~~mask

/-- Every byte of memory outside the addresses is unchanged. -/
abbrev sameMemoryBut (as : List Word) (s t : State) : Prop :=
  ∀ a, a ∉ as → Memory.readByte t.mem a = Memory.readByte s.mem a

/-- The CEX state, the devices, the halted bit, the stuck condition, the schedule and the draws are unchanged. -/
abbrev sameRest (s t : State) : Prop :=
  t.cex = s.cex ∧ t.dev = s.dev ∧ t.halted = s.halted ∧ t.stuck = s.stuck ∧ t.inbox = s.inbox ∧ t.draws = s.draws

/-- The bytes an access of a width touches: the byte, or the two bytes of the even word (R66). -/
def accessBytes (wb : Width) (a : Word) : List Word :=
  match wb with
  | .word => [wordAddr a, wordAddr a + 1#16]
  | .byte => [a]

/-- What memory reads as for an access of a width (R62, R66), without device registers. -/
def memoryValue (wb : Width) (m : Memory) (a : Word) : BitVec wb.bits :=
  match wb with
  | .word => Memory.readByte m (wordAddr a + 1#16) ++ Memory.readByte m (wordAddr a)
  | .byte => Memory.readByte m a

/-- The eight bytes of the exception frame pushed from a stack pointer: the words at SP - 2 (PC), SP - 4 (LR), SP - 6 (PSW) and SP - 8 (CEX state) (R313). -/
def frameBytes (sp : Word) : List Word :=
  accessBytes .word (sp - 2#16) ++ accessBytes .word (sp - 4#16) ++ accessBytes .word (sp - 6#16) ++ accessBytes .word (sp - 8#16)

/-- The address is one of ordinary memory, #0010 to #FFFF (R74). -/
abbrev ordinary (a : Word) : Prop := 16 ≤ a.toNat

/-- The high byte of a register (R30). -/
def highByte (w : Word) : Byte := w.extractLsb' 8 8

/-- The low byte of a register (R30). -/
def lowByte (w : Word) : Byte := w.extractLsb' 0 8

/-! ## Words that are no instruction -/

/-- The word lies in a range. -/
abbrev inRange (w : Word) (lo hi : Nat) : Prop := lo ≤ w.toNat ∧ w.toNat ≤ hi

/-- The words of no instruction: the ranges of R125 and, with an undefined mode, those of R126. -/
abbrev isNoInstruction (w : Word) : Prop :=
  inRange w 0x4D28 0x4D3F ∨ inRange w 0x4D68 0x4D7F ∨ inRange w 0x4D88 0x4D9F ∨ inRange w 0x4DB0 0x4DBF ∨
  inRange w 0x4E00 0x4FFF ∨ inRange w 0x5400 0x57FF ∨
  inRange w 0x5980 0x5A7F ∨ inRange w 0x5B80 0x5BFF ∨ inRange w 0x5D80 0x5E7F ∨ inRange w 0x5F80 0x5FFF

/-! ## Conditional blocks -/

/-- What becomes of the next `n` fetched words under a CEX state, the first word first, and the state after them (R253, R254). -/
def blockOutcomes : Nat → Cex → List Bool × Cex
  | 0, c => ([], c)
  | n + 1, c =>
    let k := c.consume
    let rest := blockOutcomes n k.2
    (k.1 :: rest.1, rest.2)

/-! ## Decimal values -/

/-- The number that `k` decimal digits of four bits stand for, the lowest digit first. -/
def bcdValue : Nat → Nat → Nat
  | 0, _ => 0
  | k + 1, a => a % 16 + 10 * bcdValue k (a / 16)

end Sys2Proof.Machine
end

