-- ==== Sys2Proof/Certificates/Slice0/Obligations.lean ====
section
/-! DEFINITION. The statements for the provers. Each docstring names the rules of spec/ it formalises; where a clause rests on a decision of the spec or a choice of the model, it names the log entry. -/

open Sys2Proof Sys2Proof.Machine

/-! ## Encoding -/

/-- Words of every family, written from the formats of R102 to R113, decode to the instructions they stand for. -/
def Obligations.SpecWordsDecode : Prop :=
  decode 0x07FF#16 = .ok (.bl 0x7FF#13) ∧
  decode 0x27FC#16 = .ok (.bne 0x3FC#10) ∧
  decode 0x4048#16 = .ok (.add .byte (.reg .r1) .r0) ∧
  decode 0x42B8#16 = .ok (.sub .word (.con .minusOne) .r0) ∧
  decode 0x4C5A#16 = .ok (.mov .byte .r3 .r2) ∧
  decode 0x4C93#16 = .ok (.swap .r2 .r3) ∧
  decode 0x4D48#16 = .ok (.rrc .byte .r0) ∧
  decode 0x4D83#16 = .ok (.setpri 3#3) ∧
  decode 0x4DA4#16 = .ok (.svc 4#4) ∧
  decode 0x4DFA#16 = .ok (.clrcc 0b11010#5) ∧
  decode 0x5289#16 = .ok (.cex .ge 1#3 1#3) ∧
  decode 0x58CA#16 = .ok (.ld ⟨false, false, true⟩ .byte .r1 .r2) ∧
  decode 0x5F16#16 = .ok (.st ⟨true, true, false⟩ .word .r2 .r6) ∧
  decode 0x77FC#16 = .ok (.movls 0xFF#8 .r4) ∧
  decode 0xC0C8#16 = .ok (.str 1#7 .byte .r1 .r0)

/-- Every well-formed instruction, with every operand, is what its word decodes to (R121). -/
def Obligations.DecodeEncodeRoundTrip : Prop :=
  ∀ i : Instr, i.wellFormed = true → decode (encode i) = .ok i

/-- The words that are no instruction are those of R125 and R126, the LD and ST modes at the default of log 16 and the SETPRI and SVC bits of log 43; so the 80 words of SWAP, SWPB and SXT with bit 6 set decode (R106, R107, R127), the default of log 10. -/
def Obligations.DecodeRefusesExactly : Prop :=
  ∀ w : Word, (∃ e, decode w = .error e) ↔ isNoInstruction w

/-- A word that decodes gives a well-formed instruction, and it is that instruction's word but for the ignored bit 6 of SWAP, SWPB and SXT (R106, R107, log 10). -/
def Obligations.DecodedWordReencodes : Prop :=
  ∀ (w : Word) (i : Instr), decode w = .ok i →
    i.wellFormed = true ∧
    (encode i = w ∨
      (encode i = w &&& 0xFFBF#16 ∧ ((∃ r d, i = .swap r d) ∨ (∃ d, i = .swpb d) ∨ (∃ d, i = .sxt d))))

/-! ## The step (R304); the order of its lines is log 36 -/

/-- A step runs the decoded instruction: where no interrupt is accepted, the CPU is awake, the PC is even and no CEX count skips the word, the step is `exec` of the instruction that the word at the PC decodes to, after the PC has moved past the word and the CEX count is taken (R27, R304 lines 5 to 8). -/
def Obligations.StepRunsDecodedInstruction : Prop :=
  ∀ (s a : State) (c : Cex) (i : Instr), s.live → a = agentTurn s → acceptable a = none →
    Psw.slp a.psw = false → a.pc ≠ 0xFFFF#16 → a.pc.getLsbD 0 = false → a.cex.consume = (true, c) →
    decode (fetch a).1 = .ok i →
      step s = exec i ((fetch a).2.setCex c) ∧
      (ordinary a.pc → fetch a = (Memory.readWord a.mem a.pc, a.setReg .r7 (a.pc + 2#16)))

/-- A word that a CEX count skips has no effect but the PC's advance and the count, whatever its bits (R254). -/
def Obligations.StepSkipsCountedWord : Prop :=
  ∀ (s a : State) (c : Cex), s.live → a = agentTurn s → acceptable a = none →
    Psw.slp a.psw = false → a.pc ≠ 0xFFFF#16 → a.pc.getLsbD 0 = false → ordinary a.pc →
    a.cex.consume = (false, c) →
      ∃ t, step s = .next t ∧ t.pc = a.pc + 2#16 ∧ t.cex = c ∧ sameRegsBut [.r7] a t ∧ t.psw = a.psw ∧
        sameMemoryBut [] a t ∧ t.dev = a.dev ∧ t.live ∧ t.inbox = a.inbox ∧ t.draws = a.draws

/-- The two faults of the fetch and decode phases: an odd PC raises vector 9 before anything is fetched (R323), a word that is no instruction raises vector 8 after the PC has advanced (R321), one of an undefined addressing mode too (log 16). -/
def Obligations.StepRaisesFetchFaults : Prop :=
  FaultCause.invalidAddress.vector = 9#4 ∧ FaultCause.illegalInstruction.vector = 8#4 ∧
  ∀ (s a : State), s.live → a = agentTurn s → acceptable a = none →
    Psw.slp a.psw = false → a.pc ≠ 0xFFFF#16 →
      (a.pc.getLsbD 0 = true → step s = .next (raise .invalidAddress a)) ∧
      (a.pc.getLsbD 0 = false → ∀ c e, a.cex.consume = (true, c) → decode (fetch a).1 = .error e →
        step s = .next (raise .illegalInstruction ((fetch a).2.setCex c)))

/-- Asleep with no interrupt to take, the CPU fetches nothing and only the device agent acts (R360). Halted by a double fault (R327, log 19) or stuck on a fault that cannot be delivered (R325, log 18), the CPU takes no step: the device agent alone acts while the schedule holds turns for it (R358, log 24), and then the step reports the failure (R373). -/
def Obligations.SleepAndHalt : Prop :=
  (∀ s : State, s.live → acceptable (agentTurn s) = none → Psw.slp (agentTurn s).psw = true →
    step s = .next (agentTurn s)) ∧
  (∀ s : State, ¬ s.live → s.inbox ≠ [] → step s = .next (agentTurn s)) ∧
  (∀ s : State, s.halted = true → s.inbox = [] → step s = .fault .halted) ∧
  (∀ (s : State) (v : BitVec 4), s.halted = false → s.stuck = some v → s.inbox = [] →
    step s = .fault (.faultNotDeliverable v))

/-- An accepted interrupt is taken before anything is fetched, asleep or not: entry through the device's vector at a priority above the old one, with the PC as it stands (R304 line 1, R310, R311, log 36). -/
def Obligations.StepTakesInterrupt : Prop :=
  ∀ (s a : State) (d : BitVec 3), s.live → a = agentTurn s → acceptable a = some d →
    pending a.dev d = true ∧ Psw.cur a.psw < prio a.mem (deviceVector d) ∧ a.pc ≠ 0xFFFF#16 ∧
    step s = .next (enter (deviceVector d) a.pc false a.tick)

/-- PC = #FFFF starts the end-of-exception sequence at the next step of an awake CPU, whatever is pending and whoever put it there (R340, R342, log 38): nothing is fetched. -/
def Obligations.StepEndsException : Prop :=
  ∀ s : State, s.live → (agentTurn s).pc = 0xFFFF#16 → Psw.slp (agentTurn s).psw = false →
    step s = .next (endOfException (agentTurn s))

/-! ## The interrupt controller -/

/-- An interrupt is accepted exactly where the PC is not #FFFF and some pending device's priority is above CUR, strictly (R310, R356, log 36). -/
def Obligations.InterruptAcceptedExactly : Prop :=
  ∀ s : State, (∃ d, acceptable s = some d) ↔
    s.pc ≠ 0xFFFF#16 ∧ ∃ d, pending s.dev d = true ∧ Psw.cur s.psw < prio s.mem (deviceVector d)

/-- The controller selects a pending device that no pending device exceeds in priority, and none only where none is pending (R355); which of several equals is open (log 23). -/
def Obligations.PicSelectsMaximum : Prop :=
  (∀ (s : State) (d : BitVec 3), picSelect s = some d →
    pending s.dev d = true ∧
    ∀ e, pending s.dev e = true → prio s.mem (deviceVector e) ≤ prio s.mem (deviceVector d)) ∧
  (∀ s : State, picSelect s = none ↔ ∀ d, pending s.dev d = false)

/-! ## Taking an exception -/

/-- The entry (R312, R313): SP falls by 8 and in ordinary memory the frame holds PC, LR, PSW and the CEX word; the new PSW has CUR, V, N, Z, C and RSV of the vector's word, SLP 0, PREV the old CUR and FLT set for a fault (log 20); the PC is the vector's entry word, LR is #FFFF, the CEX state is inactive; R0 to R4 and all other memory stay. The CEX word's layout is open (log 7), SP's bit 0 is ignored (log 17), RSV is storage (log 41). -/
def Obligations.ExceptionEntryFrame : Prop :=
  ∀ (s t : State) (n : BitVec 4) (pc v : Word) (fault : Bool), Memory.wf s.mem → t = enter n pc fault s →
    v = Memory.readWord t.mem (0xFFC0#16 + 4#16 * n.setWidth 16) →
      t.sp = s.sp - 8#16 ∧ t.lr = 0xFFFF#16 ∧
      t.pc = Memory.readWord t.mem (0xFFC2#16 + 4#16 * n.setWidth 16) ∧
      sameRegsBut [.r5, .r6, .r7] s t ∧ t.cex = Cex.inactive ∧
      Psw.cur t.psw = Psw.cur v ∧ Psw.prev t.psw = Psw.cur s.psw ∧ Psw.slp t.psw = false ∧
      Psw.flt t.psw = (fault || Psw.flt v) ∧ Psw.rsv t.psw = Psw.rsv v ∧
      Psw.v t.psw = Psw.v v ∧ Psw.n t.psw = Psw.n v ∧ Psw.z t.psw = Psw.z v ∧ Psw.c t.psw = Psw.c v ∧
      sameMemoryBut (frameBytes s.sp) s t ∧ t.halted = s.halted ∧ t.stuck = s.stuck ∧ t.inbox = s.inbox ∧
      ((∀ a ∈ frameBytes s.sp, ordinary a) →
        Memory.readWord t.mem (s.sp - 2#16) = pc ∧ Memory.readWord t.mem (s.sp - 4#16) = s.lr ∧
        Memory.readWord t.mem (s.sp - 6#16) = s.psw ∧ Memory.readWord t.mem (s.sp - 8#16) = cexPack s.cex ∧
        t.dev = s.dev ∧ t.draws = s.draws)

/-- A fault, of vector 8, 9 or 10 (R302, R320): in the fault state the machine halts with all else as at the fault (R327, log 19); where the handler's priority is not above CUR the CPU is stuck with all else as at the fault (R325, log 18); else it enters the fault's vector with FLT set in the new PSW (log 20), saving R7 as it stands (R322, log 21). -/
def Obligations.FaultEntry : Prop :=
  (FaultCause.illegalInstruction.vector = 8#4 ∧ FaultCause.invalidAddress.vector = 9#4 ∧ FaultCause.priority.vector = 10#4) ∧
  ∀ (c : FaultCause) (s t : State), t = raise c s →
    (Psw.flt s.psw = true → t.halted = true ∧ t.stuck = s.stuck ∧ sameRegsBut [] s t ∧ t.psw = s.psw ∧
      t.cex = s.cex ∧ sameMemoryBut [] s t ∧ t.dev = s.dev ∧ t.inbox = s.inbox ∧ t.draws = s.draws) ∧
    (Psw.flt s.psw = false → prio s.mem c.vector ≤ Psw.cur s.psw →
      t.stuck = some c.vector ∧ t.halted = s.halted ∧ sameRegsBut [] s t ∧ t.psw = s.psw ∧
      t.cex = s.cex ∧ sameMemoryBut [] s t ∧ t.dev = s.dev ∧ t.inbox = s.inbox ∧ t.draws = s.draws) ∧
    (Psw.flt s.psw = false → Psw.cur s.psw < prio s.mem c.vector →
      t = enter c.vector s.pc true s ∧ Psw.flt t.psw = true ∧
        Psw.prev t.psw = Psw.cur s.psw ∧ t.lr = 0xFFFF#16 ∧ t.sp = s.sp - 8#16 ∧ t.cex = Cex.inactive ∧
        sameRegsBut [.r5, .r6, .r7] s t ∧ sameMemoryBut (frameBytes s.sp) s t ∧ t.halted = s.halted ∧ t.stuck = s.stuck)

/-! ## Returning from an exception -/

/-- The return (R340 branch b): with no pending device above PREV the frame is pulled in the order CEX state, PSW (SLP cleared), LR, PC; SP rises by 8; nothing else changes. For a frame in ordinary memory. That a pending device at exactly PREV leaves the pull to happen is log 37, that an odd SP reads the even words is log 17, that PSW bits 12 to 9 come back is log 41. -/
def Obligations.ReturnPullsFrame : Prop :=
  ∀ (s t : State), picAbove (Psw.prev s.psw) s = none →
    (∀ a ∈ frameBytes (s.sp + 8#16), ordinary a) → t = endOfException s →
      t.cex = cexUnpack (Memory.readWord s.mem s.sp) ∧
      t.psw = Memory.readWord s.mem (s.sp + 2#16) &&& 0xFFF7#16 ∧
      t.lr = Memory.readWord s.mem (s.sp + 4#16) ∧ t.pc = Memory.readWord s.mem (s.sp + 6#16) ∧
      t.sp = s.sp + 8#16 ∧ sameRegsBut [.r5, .r6, .r7] s t ∧ sameMemoryBut [] s t ∧
      t.dev = s.dev ∧ t.halted = s.halted ∧ t.stuck = s.stuck ∧ t.inbox = s.inbox ∧ t.draws = s.draws

/-- The tail chain (R340 branch c, R341): a pending device above PREV gets control without a push or a pull; CUR, V, N, Z, C, FLT and RSV (log 41) are those of the vector's word, SLP is 0, PREV is the CUR of the handler that ended, and LR, SP, the CEX state, memory and every other register stay. The strict test and PREV are log 37. -/
def Obligations.TailChainEntersHandler : Prop :=
  ∀ (s t : State) (d : BitVec 3), picAbove (Psw.prev s.psw) s = some d → t = endOfException s →
    pending s.dev d = true ∧ Psw.prev s.psw < Psw.cur t.psw ∧
    Psw.cur t.psw = prio s.mem (deviceVector d) ∧ Psw.prev t.psw = Psw.cur s.psw ∧ Psw.slp t.psw = false ∧
    Psw.flt t.psw = Psw.flt (vectorPsw s.mem (deviceVector d)) ∧
    Psw.v t.psw = Psw.v (vectorPsw s.mem (deviceVector d)) ∧ Psw.n t.psw = Psw.n (vectorPsw s.mem (deviceVector d)) ∧
    Psw.z t.psw = Psw.z (vectorPsw s.mem (deviceVector d)) ∧ Psw.c t.psw = Psw.c (vectorPsw s.mem (deviceVector d)) ∧
    Psw.rsv t.psw = Psw.rsv (vectorPsw s.mem (deviceVector d)) ∧
    t.pc = vectorEntry s.mem (deviceVector d) ∧ sameRegsBut [.r7] s t ∧ t.cex = s.cex ∧
    sameMemoryBut [] s t ∧ t.dev = s.dev ∧ t.halted = s.halted ∧ t.stuck = s.stuck ∧ t.inbox = s.inbox

/-- An entry followed at once by a return restores the interrupted code: every register, the PSW but for SLP, the CEX state, and all memory outside the frame (R312, R340). For a frame in ordinary memory and no pending device above the interrupted code's priority, strictly (log 37); the CEX word's layout is open (log 7), an odd SP uses the even words (log 17), the pushed PSW keeps FLT (log 20) and bits 12 to 9 (log 41). -/
def Obligations.EntryThenReturnRestores : Prop :=
  ∀ (s t : State) (n : BitVec 4) (fault : Bool), Memory.wf s.mem → s.cex.wf →
    (∀ a ∈ frameBytes s.sp, ordinary a) → picAbove (Psw.cur s.psw) (enter n s.pc fault s) = none →
    t = endOfException (enter n s.pc fault s) →
      sameRegsBut [] s t ∧ t.psw = s.psw &&& 0xFFF7#16 ∧ t.cex = s.cex ∧
      sameMemoryBut (frameBytes s.sp) s t ∧ t.dev = s.dev ∧ t.halted = s.halted ∧ t.stuck = s.stuck ∧ t.inbox = s.inbox ∧
      t.draws = s.draws

/-- The saved CEX word brings back the CEX state it was packed from, for every state the machine can be in (R259, log 7). -/
def Obligations.CexWordRoundTrip : Prop :=
  ∀ c : Cex, c.wf → cexUnpack (cexPack c) = c

/-! ## Conditional blocks -/

/-- The words after a CEX with counts `t` and `f`: the first `t` are executed where the condition was true, the next `f` where it was false, and then the CEX state is inactive (R253, R254). -/
def Obligations.BlockOutcomesCounted : Prop :=
  ∀ (cond : Bool) (t f : BitVec 3),
    blockOutcomes (t.toNat + f.toNat) (Cex.settle ⟨true, cond, t, f⟩) =
      (List.replicate t.toNat cond ++ List.replicate f.toNat (!cond), Cex.inactive)

/-! ## Devices -/

/-- The device agent changes devices only: no register, no PSW, no CEX state, no memory (R358), and no request of an absent device (R357, log 27). -/
def Obligations.AgentKeepsCpu : Prop :=
  ∀ s : State, sameRegsBut [] s (agentTurn s) ∧ (agentTurn s).psw = s.psw ∧ (agentTurn s).cex = s.cex ∧
    sameMemoryBut [] s (agentTurn s) ∧ (agentTurn s).halted = s.halted ∧ (agentTurn s).stuck = s.stuck ∧
    ∀ d, 3 ≤ d → (agentTurn s).dev.irq.getLsbD d = s.dev.irq.getLsbD d

/-- A timer expiry and a key's arrival at an enabled device with its I/O bit set: DBA is set, OF is set where DBA was, the request is raised where IE is set, and the key is in the keyboard's DR; with ENA clear they are ignored (R349, R350, R352, log 22). -/
def Obligations.InputDeviceEvents : Prop :=
  (∀ s : State, csrEna s.dev.timer.csr = false → timerExpiry s = s) ∧
  (∀ (s : State) (k : Byte), csrEna s.dev.keyboard.csr = false → keyArrival k s = s) ∧
  (∀ s t : State, csrEna s.dev.timer.csr = true → csrIo s.dev.timer.csr = true → t = timerExpiry s →
    csrDba t.dev.timer.csr = true ∧
    csrOf t.dev.timer.csr = (csrOf s.dev.timer.csr || csrDba s.dev.timer.csr) ∧
    t.dev.timer.csr &&& 0xF3#8 = s.dev.timer.csr &&& 0xF3#8 ∧ t.dev.timer.dr = s.dev.timer.dr ∧
    t.dev.irq.getLsbD 0 = (s.dev.irq.getLsbD 0 || csrIe s.dev.timer.csr) ∧
    t.dev.keyboard = s.dev.keyboard ∧ t.dev.screen = s.dev.screen ∧ t.dev.console = s.dev.console ∧
    t.dev.transit = s.dev.transit) ∧
  (∀ (s t : State) (k : Byte), csrEna s.dev.keyboard.csr = true → csrIo s.dev.keyboard.csr = true →
    t = keyArrival k s →
    csrDba t.dev.keyboard.csr = true ∧
    csrOf t.dev.keyboard.csr = (csrOf s.dev.keyboard.csr || csrDba s.dev.keyboard.csr) ∧
    t.dev.keyboard.csr &&& 0xF3#8 = s.dev.keyboard.csr &&& 0xF3#8 ∧ t.dev.keyboard.dr = k ∧
    t.dev.irq.getLsbD 1 = (s.dev.irq.getLsbD 1 || csrIe s.dev.keyboard.csr) ∧
    t.dev.timer = s.dev.timer ∧ t.dev.screen = s.dev.screen ∧ t.dev.console = s.dev.console ∧
    t.dev.transit = s.dev.transit)

/-- A byte written to the DR of an enabled output screen with nothing in transit: DBA falls and the byte is in transit; when the screen is done the byte is appended to the console, DBA is set and the request is raised where IE is set (R351, R352, log 22). -/
def Obligations.ScreenOutput : Prop :=
  ∀ (s t u : State) (b : Byte), csrEna s.dev.screen.csr = true → csrIo s.dev.screen.csr = false →
    s.dev.transit = [] → t = storeByte 5#16 b s → u = screenDone t →
      t.dev.screen.dr = b ∧ csrDba t.dev.screen.csr = false ∧ t.dev.transit.map Transit.byte = [b] ∧
      t.dev.console = s.dev.console ∧ t.dev.irq.getLsbD 2 = false ∧
      u.dev.console = s.dev.console ++ [b] ∧ csrDba u.dev.screen.csr = true ∧ u.dev.transit = [] ∧
      u.dev.irq.getLsbD 2 = csrIe s.dev.screen.csr ∧ u.dev.screen.dr = b ∧
      u.dev.timer = s.dev.timer ∧ u.dev.keyboard = s.dev.keyboard

/-- CPU writes to the device registers: a write to a CSR sets IE, I/O, ENA and bits 7 to 5 from the byte, leaves DBA and OF (R348, log 25), and touches no other register; a write to the timer's DR stores the byte (R349); a write to the keyboard's DR is ignored (R350) and one to a register of an absent device is discarded (R357, log 27), but that the device's request is cleared as by every access (R354, log 22). What a write to the screen's DR does is `ScreenOutput`. -/
def Obligations.CsrWriteKeepsStatus : Prop :=
  ∀ (s : State) (b : Byte),
    let written (old new : Byte) : Prop := new &&& 0xF3#8 = b &&& 0xF3#8 ∧ csrDba new = csrDba old ∧ csrOf new = csrOf old
    (written s.dev.timer.csr (storeByte 0#16 b s).dev.timer.csr ∧
      (storeByte 0#16 b s).dev.timer.dr = s.dev.timer.dr ∧
      (storeByte 0#16 b s).dev.keyboard = s.dev.keyboard ∧ (storeByte 0#16 b s).dev.screen = s.dev.screen) ∧
    (written s.dev.keyboard.csr (storeByte 2#16 b s).dev.keyboard.csr ∧
      (storeByte 2#16 b s).dev.keyboard.dr = s.dev.keyboard.dr ∧
      (storeByte 2#16 b s).dev.timer = s.dev.timer ∧ (storeByte 2#16 b s).dev.screen = s.dev.screen) ∧
    (written s.dev.screen.csr (storeByte 4#16 b s).dev.screen.csr ∧
      (storeByte 4#16 b s).dev.screen.dr = s.dev.screen.dr ∧
      (storeByte 4#16 b s).dev.timer = s.dev.timer ∧ (storeByte 4#16 b s).dev.keyboard = s.dev.keyboard) ∧
    ((storeByte 1#16 b s).dev.timer = ⟨s.dev.timer.csr, b⟩ ∧
      (storeByte 1#16 b s).dev.keyboard = s.dev.keyboard ∧ (storeByte 1#16 b s).dev.screen = s.dev.screen) ∧
    storeByte 3#16 b s = s.clearRequest 1 ∧
    (∀ a : Word, 6 ≤ a.toNat → a.toNat < 16 → storeByte a b s = s.clearRequest (a.toNat / 2))

/-- Every CPU access to a register of a device clears that device's request and no other device's (R354, log 22). -/
def Obligations.AccessClearsRequest : Prop :=
  ∀ (s : State) (a : Word) (b : Byte) (d : Nat), a.toNat < 16 →
    (loadByte a s).2.dev.irq.getLsbD d = (if d = a.toNat / 2 then false else s.dev.irq.getLsbD d) ∧
    (storeByte a b s).dev.irq.getLsbD d = (if d = a.toNat / 2 then false else s.dev.irq.getLsbD d)

/-- Reads of device registers: the timer's CSR is read with DBA as it stood and DBA then falls (R349); the keyboard's DR is read and its DBA falls, the character staying (R350); the keyboard's CSR keeps DBA; the timer's DR and the screen's registers are read without effect (R349, R351, log 31), but that the device's request is cleared as by every access (R354, log 22). The CSR values before OF was first set (log 26). -/
def Obligations.DeviceReads : Prop :=
  ∀ s : State,
    (s.dev.timerOf = false → (loadByte 0#16 s).1 = s.dev.timer.csr) ∧
    (loadByte 0#16 s).2.dev.timer.csr = csrSetDba s.dev.timer.csr false ∧
    csrDba (loadByte 0#16 s).1 = csrDba s.dev.timer.csr ∧
    loadByte 1#16 s = (s.dev.timer.dr, s.clearRequest 0) ∧
    (s.dev.keyboardOf = false → (loadByte 2#16 s).1 = s.dev.keyboard.csr) ∧
    (loadByte 2#16 s).2.dev.keyboard = s.dev.keyboard ∧
    (loadByte 3#16 s).1 = s.dev.keyboard.dr ∧
    (loadByte 3#16 s).2.dev.keyboard = ⟨csrSetDba s.dev.keyboard.csr false, s.dev.keyboard.dr⟩ ∧
    loadByte 4#16 s = (s.dev.screen.csr, s.clearRequest 2) ∧
    loadByte 5#16 s = (s.dev.screen.dr, s.clearRequest 2)

/-! ## Memory -/

/-- R62 for the ordinary memory of R73: a word at an even address has its low byte there and its high byte at the next address, for loads and for stores, and a store changes no other byte. -/
def Obligations.LittleEndianWords : Prop :=
  ∀ (s : State) (a v : Word), Memory.wf s.mem → ordinary a → a.getLsbD 0 = false →
    loadWord a s = (Memory.readByte s.mem (a + 1#16) ++ Memory.readByte s.mem a, s) ∧
    Memory.readByte (storeWord a v s).mem a = lowByte v ∧
    Memory.readByte (storeWord a v s).mem (a + 1#16) = highByte v ∧
    (∀ b, b ≠ a → b ≠ a + 1#16 → Memory.readByte (storeWord a v s).mem b = Memory.readByte s.mem b) ∧
    (loadWord a (storeWord a v s)).1 = v

/-! ## Reset -/

/-- The state after reset with the loader's defaults: PC and SP #0800 and PSW #60E0 (R382, log 3), so CUR is 7 and PREV is 3, SLP and FLT clear; CEX inactive (R383), no request pending, nothing in transit, the timer's DR 1 (R359), not halted and not stuck. -/
def Obligations.ResetState : Prop :=
  State.reset.pc = 0x0800#16 ∧ State.reset.sp = 0x0800#16 ∧ State.reset.psw = 0x60E0#16 ∧
  Psw.cur State.reset.psw = 7#3 ∧ Psw.prev State.reset.psw = 3#3 ∧
  Psw.slp State.reset.psw = false ∧ Psw.flt State.reset.psw = false ∧
  State.reset.cex = Cex.inactive ∧ (∀ d, pending State.reset.dev d = false) ∧ State.reset.dev.transit = [] ∧
  State.reset.dev.timer.dr = 1#8 ∧ State.reset.live

/-- The state after reset meets the invariant of `StepKeepsInvariant`. -/
def Obligations.ResetInvariant : Prop := State.reset.Inv

/-- Power-up loads the PSW from #FFFC with SLP cleared and the PC from #FFFE, clears the CEX state, the requests, the halt and the stuck condition, and writes no other register and no memory (R380, R383, log 39, log 41); the state after reset is the one power-up gives from its own launch values (log 3). -/
def Obligations.PowerUpSequence : Prop :=
  (∀ s : State,
    (powerUp s).psw = Memory.readWord s.mem 0xFFFC#16 &&& 0xFFF7#16 ∧
    (powerUp s).pc = Memory.readWord s.mem 0xFFFE#16 ∧ sameRegsBut [.r7] s (powerUp s) ∧
    (powerUp s).cex = Cex.inactive ∧ (powerUp s).dev.irq = 0#8 ∧ (powerUp s).live ∧
    sameMemoryBut [] s (powerUp s) ∧ (powerUp s).dev.timer.dr = 1#8) ∧
  powerUp State.reset = State.reset

/-! ## Invariants and whole-machine rules -/

/-- Every step keeps the invariant, from every state that has it: memory in its canonical form, a legal CEX state, no request of an absent device, no sleep at priority 7, halted only in the fault state, stuck only outside it on a fault whose priority is not above CUR (log 18). -/
def Obligations.StepKeepsInvariant : Prop :=
  ∀ s t : State, s.Inv → step s = .next t → t.Inv

/-- R276, over all instructions but SVC, whose effect is an exception entry: no well-formed instruction sets or clears FLT, writes PREV or the reserved bits, or raises CUR; but for the priority fault of a SETPRI. -/
def Obligations.ExecKeepsSystemPsw : Prop :=
  ∀ (i : Instr) (s t : State), i.wellFormed = true → (∀ sa, i ≠ .svc sa) → exec i s = .next t →
    (Psw.flt t.psw = Psw.flt s.psw ∧ Psw.prev t.psw = Psw.prev s.psw ∧ Psw.rsv t.psw = Psw.rsv s.psw ∧
      Psw.cur t.psw ≤ Psw.cur s.psw) ∨
    (∃ pr, i = .setpri pr ∧ Psw.cur s.psw ≤ pr)

/-- R60: "No other instruction touches memory": but for LD, ST, LDR, STR and the exception entries of SVC and SETPRI, an instruction leaves every byte of memory and every device register, and never halts the machine. -/
def Obligations.OnlyMemoryInstructionsTouchMemory : Prop :=
  ∀ (i : Instr) (s t : State), exec i s = .next t →
    (∀ m wb r d, i ≠ .ld m wb r d) → (∀ m wb r d, i ≠ .st m wb r d) → (∀ o wb r d, i ≠ .ldr o wb r d) →
    (∀ o wb r d, i ≠ .str o wb r d) → (∀ sa, i ≠ .svc sa) → (∀ pr, i ≠ .setpri pr) →
      sameMemoryBut [] s t ∧ t.dev = s.dev ∧ t.halted = s.halted ∧ t.stuck = s.stuck ∧ t.inbox = s.inbox

/-- Every well-formed instruction answers a next state; it leaves the CPU stuck only where it is an SVC or a SETPRI whose priority fault cannot be delivered (R325, log 18), and halted only where it is one whose priority fault is a double fault (R327, log 19). -/
def Obligations.NoInstructionRefused : Prop :=
  ∀ (i : Instr) (s : State), i.wellFormed = true →
    let faults : Prop := (∃ pr, i = .setpri pr ∧ Psw.cur s.psw ≤ pr) ∨ (∃ sa, i = .svc sa ∧ prio s.mem sa ≤ Psw.cur s.psw)
    ∃ t, exec i s = .next t ∧
      (t.stuck = s.stuck ∨
        (t.stuck = some 10#4 ∧ Psw.flt s.psw = false ∧ prio s.mem 10#4 ≤ Psw.cur s.psw ∧ faults)) ∧
      (t.halted = s.halted ∨ (t.halted = true ∧ Psw.flt s.psw = true ∧ faults))

/-! ## Operands -/

/-- The operand forms: a register operand is the whole register or its low byte (R14, R30); the eight constants are 0, 1, 2, 4, 8, 16, 32 and -1, which is all ones at either width (R112, R170); a byte write changes the low byte only and a word write the whole register (R30, R171). -/
def Obligations.OperandForms : Prop :=
  (∀ (s : State) (r : Reg), s.opd .word r = s.reg r ∧ s.opd .byte r = lowByte (s.reg r)) ∧
  (∀ (s : State) (wb : Width) (r : Reg), s.source wb (.reg r) = s.opd wb r) ∧
  (∀ (s : State) (wb : Width),
    (s.source wb (.con .zero)).toNat = 0 ∧ (s.source wb (.con .one)).toNat = 1 ∧
    (s.source wb (.con .two)).toNat = 2 ∧ (s.source wb (.con .four)).toNat = 4 ∧
    (s.source wb (.con .eight)).toNat = 8 ∧ (s.source wb (.con .sixteen)).toNat = 16 ∧
    (s.source wb (.con .thirtyTwo)).toNat = 32 ∧ (s.source wb (.con .minusOne)).toInt = -1) ∧
  (∀ (s : State) (r : Reg) (v : Word) (b : Byte), (s.regw .word r v).reg r = v ∧
    lowByte ((s.regw .byte r b).reg r) = b ∧ highByte ((s.regw .byte r b).reg r) = highByte (s.reg r))

/-! ## Register initialization -/

/-- MOVL, MOVLZ, MOVLS, MOVH: their words have the fixed bits of their rows, and they write one byte or both of the destination, which may be any register, and nothing else (R140 to R144). That no flag changes is log 11. -/
def Obligations.MovxResult : Prop :=
  ∀ (b : Byte) (d : Reg) (s : State),
    let writes (i : Instr) (row : Word) (hi lo : Byte) : Prop :=
      encode i &&& 0xF800#16 = row ∧
      ∃ t, exec i s = .next t ∧ highByte (t.reg d) = hi ∧ lowByte (t.reg d) = lo ∧
        sameRegsBut [d] s t ∧ t.psw = s.psw ∧ sameMemoryBut [] s t ∧ sameRest s t
    writes (.movl b d) 0x6000#16 (highByte (s.reg d)) b ∧ writes (.movlz b d) 0x6800#16 0x00#8 b ∧
    writes (.movls b d) 0x7000#16 0xFF#8 b ∧ writes (.movh b d) 0x7800#16 b (lowByte (s.reg d))

/-! ## Memory access -/

/-- LD in each of the five modes and both widths (R150 to R153, R157): the effective address is the index register, stepped first where PRPO is 1; the loaded word or byte goes to the destination, a byte to its low byte; where PRPO is 0 the index register, as the load left it, is stepped after (log 40). In ordinary memory the value is what memory holds, a word at the even address (log 33), and no device changes; at a device register it is what the device answers. Nothing else changes; no flag (log 11). -/
def Obligations.LdResult : Prop :=
  ∀ (m : AddrMode) (wb : Width) (r d : Reg) (s : State) (k ea : Word), m.defined = true →
    k = (if m.inc then (match wb with | .word => 2#16 | .byte => 1#16)
         else if m.dec then (match wb with | .word => 0xFFFE#16 | .byte => 0xFFFF#16) else 0#16) →
    ea = (if m.prpo then s.reg r + k else s.reg r) →
      ∃ t, exec (.ld m wb r d) s = .next t ∧
        (r ≠ d → t.reg d = mergeLow wb (s.reg d) (load wb ea s).1 ∧ t.reg r = s.reg r + k) ∧
        (r = d → t.reg d = (if m.prpo then mergeLow wb ea (load wb ea s).1
                            else mergeLow wb ea (load wb ea s).1 + k)) ∧
        sameRegsBut [r, d] s t ∧ t.psw = s.psw ∧ sameMemoryBut [] s t ∧ t.cex = s.cex ∧ t.halted = s.halted ∧ t.stuck = s.stuck ∧
        t.inbox = s.inbox ∧ t.dev = (load wb ea s).2.dev ∧ t.draws = (load wb ea s).2.draws ∧
        (ordinary ea → (load wb ea s).1 = memoryValue wb s.mem ea ∧ t.dev = s.dev ∧ t.draws = s.draws)

/-- ST in each of the five modes and both widths (R151, R153, R154, R157): the address stored to is the destination register, stepped first where PRPO is 1; the word or low byte of the source, read after that step (log 40), is stored there, a word at the even address (log 33); the destination register ends stepped. Every byte of memory outside the stored ones is unchanged; at a device register the store is the device's write and memory is unchanged. That no flag changes is log 11. -/
def Obligations.StResult : Prop :=
  ∀ (m : AddrMode) (wb : Width) (r d : Reg) (s : State) (k ea x : Word), Memory.wf s.mem → m.defined = true →
    k = (if m.inc then (match wb with | .word => 2#16 | .byte => 1#16)
         else if m.dec then (match wb with | .word => 0xFFFE#16 | .byte => 0xFFFF#16) else 0#16) →
    ea = (if m.prpo then s.reg d + k else s.reg d) →
    x = (if r = d then ea else s.reg r) →
      ∃ t, exec (.st m wb r d) s = .next t ∧ t.reg d = s.reg d + k ∧ sameRegsBut [d] s t ∧ t.psw = s.psw ∧
        t.cex = s.cex ∧ t.halted = s.halted ∧ t.stuck = s.stuck ∧ t.inbox = s.inbox ∧ sameMemoryBut (accessBytes wb ea) s t ∧
        (ordinary ea → memoryValue wb t.mem ea = x.setWidth wb.bits ∧ t.dev = s.dev ∧ t.draws = s.draws) ∧
        (¬ ordinary ea → sameMemoryBut [] s t ∧ t.dev = (store wb ea (x.setWidth wb.bits) s).dev)

/-- LDR (R115, R156): the word or byte at the source register plus the sign-extended byte offset goes to the destination; the mask of a word access applies to the sum (log 33). Nothing else changes. -/
def Obligations.LdrResult : Prop :=
  ∀ (off : BitVec 7) (wb : Width) (r d : Reg) (s : State) (ea : Word), ea = s.reg r + off.signExtend 16 →
    ∃ t, exec (.ldr off wb r d) s = .next t ∧ t.reg d = mergeLow wb (s.reg d) (load wb ea s).1 ∧
      sameRegsBut [d] s t ∧ t.psw = s.psw ∧ sameMemoryBut [] s t ∧ t.cex = s.cex ∧ t.halted = s.halted ∧ t.stuck = s.stuck ∧
      t.inbox = s.inbox ∧ t.dev = (load wb ea s).2.dev ∧ t.draws = (load wb ea s).2.draws ∧
      (ordinary ea → (load wb ea s).1 = memoryValue wb s.mem ea ∧ t.dev = s.dev ∧ t.draws = s.draws)

/-- STR (R115, R158): the word or low byte of the source is stored at the destination register plus the sign-extended byte offset; no register changes. Every byte of memory outside the stored ones is unchanged. -/
def Obligations.StrResult : Prop :=
  ∀ (off : BitVec 7) (wb : Width) (r d : Reg) (s : State) (ea : Word), Memory.wf s.mem →
    ea = s.reg d + off.signExtend 16 →
      ∃ t, exec (.str off wb r d) s = .next t ∧ sameRegsBut [] s t ∧ t.psw = s.psw ∧
        t.cex = s.cex ∧ t.halted = s.halted ∧ t.stuck = s.stuck ∧ t.inbox = s.inbox ∧ sameMemoryBut (accessBytes wb ea) s t ∧
        (ordinary ea → memoryValue wb t.mem ea = s.opd wb r ∧ t.dev = s.dev ∧ t.draws = s.draws) ∧
        (¬ ordinary ea → sameMemoryBut [] s t ∧ t.dev = (store wb ea (s.opd wb r) s).dev)

/-- LD and ST with PRPO:DEC:INC = 011, 100 or 111 raise the illegal instruction fault and have no other effect (R126, R157, the default of log 16). -/
def Obligations.UndefinedModeFaults : Prop :=
  ∀ (m : AddrMode) (wb : Width) (r d : Reg) (s : State),
    (m.prpo, m.dec, m.inc) ∈ [(false, true, true), (true, false, false), (true, true, true)] →
      exec (.ld m wb r d) s = .next (raise .illegalInstruction s) ∧
      exec (.st m wb r d) s = .next (raise .illegalInstruction s)

/-! ## Two-operand instructions -/

/-- ADD (R174): the word's fixed bits; DST takes the sum modulo 2^W, C is the carry out of the unbounded sum, V the sign rule on DST and SRC, N and Z of the result; every other register, PSW bit and byte of memory is unchanged. -/
def Obligations.AddResult : Prop :=
  ∀ (wb : Width) (src : Source) (d : Reg) (s : State) (D S : BitVec wb.bits), D = s.opd wb d → S = s.source wb src →
    encode (.add wb src d) &&& 0xFF00#16 = 0x4000#16 ∧
    ∃ (t : State) (r : BitVec wb.bits), exec (.add wb src d) s = .next t ∧
      r.toNat = (D.toNat + S.toNat) % 2 ^ wb.bits ∧ t.reg d = mergeLow wb (s.reg d) r ∧
      Psw.c t.psw = decide (2 ^ wb.bits ≤ D.toNat + S.toNat) ∧
      Psw.v t.psw = (D.msb == S.msb && r.msb != D.msb) ∧ Psw.n t.psw = r.msb ∧ Psw.z t.psw = (r == 0#wb.bits) ∧
      sameRegsBut [d] s t ∧ samePswBut 0x17#16 s t ∧ sameMemoryBut [] s t ∧ sameRest s t

/-- ADDC (R175): as ADD with the PSW's carry added; V is judged on DST and SRC alone. -/
def Obligations.AddcResult : Prop :=
  ∀ (wb : Width) (src : Source) (d : Reg) (s : State) (D S : BitVec wb.bits), D = s.opd wb d → S = s.source wb src →
    encode (.addc wb src d) &&& 0xFF00#16 = 0x4100#16 ∧
    ∃ (t : State) (r : BitVec wb.bits), exec (.addc wb src d) s = .next t ∧
      r.toNat = (D.toNat + S.toNat + (Psw.c s.psw).toNat) % 2 ^ wb.bits ∧ t.reg d = mergeLow wb (s.reg d) r ∧
      Psw.c t.psw = decide (2 ^ wb.bits ≤ D.toNat + S.toNat + (Psw.c s.psw).toNat) ∧
      Psw.v t.psw = (D.msb == S.msb && r.msb != D.msb) ∧ Psw.n t.psw = r.msb ∧ Psw.z t.psw = (r == 0#wb.bits) ∧
      sameRegsBut [d] s t ∧ samePswBut 0x17#16 s t ∧ sameMemoryBut [] s t ∧ sameRest s t

/-- SUB (R176): DST plus the ones' complement of SRC plus 1; V is judged on DST and the complement. -/
def Obligations.SubResult : Prop :=
  ∀ (wb : Width) (src : Source) (d : Reg) (s : State) (D B : BitVec wb.bits), D = s.opd wb d → B = ~~~(s.source wb src) →
    encode (.sub wb src d) &&& 0xFF00#16 = 0x4200#16 ∧
    ∃ (t : State) (r : BitVec wb.bits), exec (.sub wb src d) s = .next t ∧
      r.toNat = (D.toNat + B.toNat + 1) % 2 ^ wb.bits ∧ t.reg d = mergeLow wb (s.reg d) r ∧
      Psw.c t.psw = decide (2 ^ wb.bits ≤ D.toNat + B.toNat + 1) ∧
      Psw.v t.psw = (D.msb == B.msb && r.msb != D.msb) ∧ Psw.n t.psw = r.msb ∧ Psw.z t.psw = (r == 0#wb.bits) ∧
      sameRegsBut [d] s t ∧ samePswBut 0x17#16 s t ∧ sameMemoryBut [] s t ∧ sameRest s t

/-- SUBC (R177): DST plus the ones' complement of SRC plus the PSW's carry. -/
def Obligations.SubcResult : Prop :=
  ∀ (wb : Width) (src : Source) (d : Reg) (s : State) (D B : BitVec wb.bits), D = s.opd wb d → B = ~~~(s.source wb src) →
    encode (.subc wb src d) &&& 0xFF00#16 = 0x4300#16 ∧
    ∃ (t : State) (r : BitVec wb.bits), exec (.subc wb src d) s = .next t ∧
      r.toNat = (D.toNat + B.toNat + (Psw.c s.psw).toNat) % 2 ^ wb.bits ∧ t.reg d = mergeLow wb (s.reg d) r ∧
      Psw.c t.psw = decide (2 ^ wb.bits ≤ D.toNat + B.toNat + (Psw.c s.psw).toNat) ∧
      Psw.v t.psw = (D.msb == B.msb && r.msb != D.msb) ∧ Psw.n t.psw = r.msb ∧ Psw.z t.psw = (r == 0#wb.bits) ∧
      sameRegsBut [d] s t ∧ samePswBut 0x17#16 s t ∧ sameMemoryBut [] s t ∧ sameRest s t

/-- CMP (R179): the flags of SUB, no register written; after it Z is equality, C unsigned greater or equal, and N = V signed greater or equal. -/
def Obligations.CmpResult : Prop :=
  ∀ (wb : Width) (src : Source) (d : Reg) (s : State) (D S r : BitVec wb.bits), D = s.opd wb d → S = s.source wb src →
    r.toNat = (D.toNat + (~~~S).toNat + 1) % 2 ^ wb.bits →
    encode (.cmp wb src d) &&& 0xFF00#16 = 0x4500#16 ∧
    ∃ t : State, exec (.cmp wb src d) s = .next t ∧
      Psw.c t.psw = decide (2 ^ wb.bits ≤ D.toNat + (~~~S).toNat + 1) ∧
      Psw.v t.psw = (D.msb == (~~~S).msb && r.msb != D.msb) ∧ Psw.n t.psw = r.msb ∧ Psw.z t.psw = (r == 0#wb.bits) ∧
      (Psw.z t.psw = true ↔ D = S) ∧ (Psw.c t.psw = true ↔ S.toNat ≤ D.toNat) ∧
      (Psw.n t.psw = Psw.v t.psw ↔ S.toInt ≤ D.toInt) ∧
      sameRegsBut [] s t ∧ samePswBut 0x17#16 s t ∧ sameMemoryBut [] s t ∧ sameRest s t

/-- After CMP the CEX conditions of R251 are the relations between DST and SRC that their names say, unsigned for HS, LO, HI and LS, signed for GE, LT, GT and LE. -/
def Obligations.CompareConditions : Prop :=
  ∀ (wb : Width) (src : Source) (d : Reg) (s t : State) (D S : BitVec wb.bits), D = s.opd wb d → S = s.source wb src →
    exec (.cmp wb src d) s = .next t →
      (condHolds .eq t.psw = true ↔ D = S) ∧ (condHolds .ne t.psw = true ↔ D ≠ S) ∧
      (condHolds .cs t.psw = true ↔ S.toNat ≤ D.toNat) ∧ (condHolds .cc t.psw = true ↔ D.toNat < S.toNat) ∧
      (condHolds .hi t.psw = true ↔ S.toNat < D.toNat) ∧ (condHolds .ls t.psw = true ↔ D.toNat ≤ S.toNat) ∧
      (condHolds .ge t.psw = true ↔ S.toInt ≤ D.toInt) ∧ (condHolds .lt t.psw = true ↔ D.toInt < S.toInt) ∧
      (condHolds .gt t.psw = true ↔ S.toInt < D.toInt) ∧ (condHolds .le t.psw = true ↔ D.toInt ≤ S.toInt)

/-- DADD of decimal operands (R178): the result is decimal, and with the carry it stands for the sum of the two decimal numbers and the old carry. The algorithm is the spec's general knowledge, N, Z and V are its decision (log 12). -/
def Obligations.DaddDecimalSum : Prop :=
  ∀ (wb : Width) (src : Source) (d : Reg) (s : State) (D S : BitVec wb.bits), D = s.opd wb d → S = s.source wb src →
    bcdValid (wb.bits / 4) D.toNat = true → bcdValid (wb.bits / 4) S.toNat = true →
    ∃ (t : State) (r : BitVec wb.bits), exec (.dadd wb src d) s = .next t ∧ t.reg d = mergeLow wb (s.reg d) r ∧
      bcdValid (wb.bits / 4) r.toNat = true ∧
      bcdValue (wb.bits / 4) r.toNat + 10 ^ (wb.bits / 4) * (Psw.c t.psw).toNat =
        bcdValue (wb.bits / 4) D.toNat + bcdValue (wb.bits / 4) S.toNat + (Psw.c s.psw).toNat ∧
      Psw.n t.psw = r.msb ∧ Psw.z t.psw = (r == 0#wb.bits) ∧
      sameRegsBut [d] s t ∧ samePswBut 0x7#16 s t ∧ sameMemoryBut [] s t ∧ sameRest s t

/-- DADD with a digit above 9 in either operand completes (R178, 93_implementation_defined.md U5, log 13): the result at the operation's width and N, Z, C are any values; V, the high byte of a byte operation and all else are unchanged. -/
def Obligations.DaddInvalidCompletes : Prop :=
  ∀ (wb : Width) (src : Source) (d : Reg) (s : State),
    bcdValid (wb.bits / 4) (s.opd wb d).toNat = false ∨ bcdValid (wb.bits / 4) (s.source wb src).toNat = false →
    ∃ t : State, exec (.dadd wb src d) s = .next t ∧ (∃ r : BitVec wb.bits, t.reg d = mergeLow wb (s.reg d) r) ∧
      sameRegsBut [d] s t ∧ samePswBut 0x7#16 s t ∧ sameMemoryBut [] s t ∧
      t.cex = s.cex ∧ t.dev = s.dev ∧ t.halted = s.halted ∧ t.stuck = s.stuck ∧ t.inbox = s.inbox

/-- XOR, AND, OR (R180 to R182): the bitwise result at the operation's width in DST. N and Z written and C and V kept are the spec's decision (log 11). -/
def Obligations.LogicResult : Prop :=
  ∀ (wb : Width) (src : Source) (d : Reg) (s : State),
    let gives (i : Instr) (f : Bool → Bool → Bool) : Prop :=
      ∃ (t : State) (r : BitVec wb.bits), exec i s = .next t ∧ t.reg d = mergeLow wb (s.reg d) r ∧
        (∀ j, j < wb.bits → r.getLsbD j = f ((s.opd wb d).getLsbD j) ((s.source wb src).getLsbD j)) ∧
        Psw.n t.psw = r.msb ∧ Psw.z t.psw = (r == 0#wb.bits) ∧
        sameRegsBut [d] s t ∧ samePswBut 0x6#16 s t ∧ sameMemoryBut [] s t ∧ sameRest s t
    gives (.xor wb src d) Bool.xor ∧ gives (.and wb src d) Bool.and ∧ gives (.or wb src d) Bool.or

/-- BIT, BIC, BIS (R183 to R185, R187): bit `n` of DST, `n` the source as an unsigned number, is tested, cleared or set, and no bit where `n` is not below the width (log 14, log 15); BIT writes no register; Z tells whether the result is zero. N of BIC and BIS and the kept bits are log 11. -/
def Obligations.BitOperationResult : Prop :=
  ∀ (wb : Width) (src : Source) (d : Reg) (s : State) (n : Nat), n = (s.source wb src).toNat →
    let gives (i : Instr) (rs : List Reg) (f : Nat → Bool → Bool) : Prop :=
      ∃ (t : State) (r : BitVec wb.bits), exec i s = .next t ∧
        (∀ j, j < wb.bits → r.getLsbD j = f j ((s.opd wb d).getLsbD j)) ∧
        (rs = [d] → t.reg d = mergeLow wb (s.reg d) r) ∧
        Psw.n t.psw = r.msb ∧ Psw.z t.psw = (r == 0#wb.bits) ∧
        sameRegsBut rs s t ∧ samePswBut 0x6#16 s t ∧ sameMemoryBut [] s t ∧ sameRest s t
    gives (.bit wb src d) [] (fun j b => b && j == n) ∧
    gives (.bic wb src d) [d] (fun j b => b && j != n) ∧
    gives (.bis wb src d) [d] (fun j b => b || j == n)

/-! ## Register exchange -/

/-- MOV (R201): a word move copies the register, a byte move the low byte only; no flag and nothing else changes; R7 as the source is the PC as it stands, R7 as the destination is a jump. -/
def Obligations.MovResult : Prop :=
  ∀ (r d : Reg) (s : State),
    (∀ wb, encode (.mov wb r d) &&& 0xFF80#16 = 0x4C00#16) ∧
    (∃ t, exec (.mov .word r d) s = .next t ∧ t.reg d = s.reg r ∧
      sameRegsBut [d] s t ∧ t.psw = s.psw ∧ sameMemoryBut [] s t ∧ sameRest s t) ∧
    (∃ t, exec (.mov .byte r d) s = .next t ∧ highByte (t.reg d) = highByte (s.reg d) ∧
      lowByte (t.reg d) = lowByte (s.reg r) ∧
      sameRegsBut [d] s t ∧ t.psw = s.psw ∧ sameMemoryBut [] s t ∧ sameRest s t)

/-- SWAP (R202): all 16 bits of both registers are exchanged, one register with itself included; no flag and nothing else changes. -/
def Obligations.SwapResult : Prop :=
  ∀ (r d : Reg) (s : State),
    ∃ t, exec (.swap r d) s = .next t ∧ t.reg d = s.reg r ∧ t.reg r = s.reg d ∧
      sameRegsBut [r, d] s t ∧ t.psw = s.psw ∧ sameMemoryBut [] s t ∧ sameRest s t

/-! ## Single-register instructions -/

/-- SRA and RRC (R211, R212): every bit moves down one place, the top bit stays (SRA) or takes the old carry (RRC), and the lowest bit goes to C. N, Z and the kept V are log 11. -/
def Obligations.ShiftRightResult : Prop :=
  ∀ (wb : Width) (d : Reg) (s : State) (D : BitVec wb.bits), D = s.opd wb d →
    let gives (i : Instr) (top : Bool) : Prop :=
      ∃ (t : State) (r : BitVec wb.bits), exec i s = .next t ∧ t.reg d = mergeLow wb (s.reg d) r ∧
        (∀ j, j + 1 < wb.bits → r.getLsbD j = D.getLsbD (j + 1)) ∧ r.msb = top ∧
        Psw.c t.psw = D.getLsbD 0 ∧ Psw.n t.psw = r.msb ∧ Psw.z t.psw = (r == 0#wb.bits) ∧
        sameRegsBut [d] s t ∧ samePswBut 0x7#16 s t ∧ sameMemoryBut [] s t ∧ sameRest s t
    gives (.sra wb d) D.msb ∧ gives (.rrc wb d) (Psw.c s.psw)

/-- COMP, SWPB, SXT (R213 to R215): the complement at either width; the two bytes exchanged; the low byte sign-extended. N and Z written and C and V kept are log 11. -/
def Obligations.CompSwpbSxtResult : Prop :=
  ∀ (d : Reg) (s : State),
    (∀ wb : Width, ∃ (t : State) (r : BitVec wb.bits), exec (.comp wb d) s = .next t ∧
      t.reg d = mergeLow wb (s.reg d) r ∧ (∀ j, j < wb.bits → r.getLsbD j = !(s.opd wb d).getLsbD j) ∧
      Psw.n t.psw = r.msb ∧ Psw.z t.psw = (r == 0#wb.bits) ∧
      sameRegsBut [d] s t ∧ samePswBut 0x6#16 s t ∧ sameMemoryBut [] s t ∧ sameRest s t) ∧
    (∃ t : State, exec (.swpb d) s = .next t ∧ highByte (t.reg d) = lowByte (s.reg d) ∧
      lowByte (t.reg d) = highByte (s.reg d) ∧ Psw.n t.psw = (t.reg d).msb ∧ Psw.z t.psw = (t.reg d == 0#16) ∧
      sameRegsBut [d] s t ∧ samePswBut 0x6#16 s t ∧ sameMemoryBut [] s t ∧ sameRest s t) ∧
    (∃ t : State, exec (.sxt d) s = .next t ∧ (t.reg d).toInt = (lowByte (s.reg d)).toInt ∧
      Psw.n t.psw = (t.reg d).msb ∧ Psw.z t.psw = (t.reg d == 0#16) ∧
      sameRegsBut [d] s t ∧ samePswBut 0x6#16 s t ∧ sameMemoryBut [] s t ∧ sameRest s t)

/-! ## Transfer of control -/

/-- BL and the eight branches (R230 to R240): taken by their condition, to the PC plus twice the sign-extended offset modulo 2^16 (log 34); BL writes LR with the PC; the branches write no other register. No flag (log 11), no memory. -/
def Obligations.TransferOfControl : Prop :=
  ∀ (off : BitVec 10) (far : BitVec 13) (s : State),
    let branches (i : Instr) (taken : Bool) : Prop :=
      ∃ t, exec i s = .next t ∧
        t.pc = (if taken then s.pc + BitVec.ofInt 16 (2 * off.toInt) else s.pc) ∧
        sameRegsBut [.r7] s t ∧ t.psw = s.psw ∧ sameMemoryBut [] s t ∧ sameRest s t
    (∃ t, exec (.bl far) s = .next t ∧ t.pc = s.pc + BitVec.ofInt 16 (2 * far.toInt) ∧ t.lr = s.pc ∧
      sameRegsBut [.r5, .r7] s t ∧ t.psw = s.psw ∧ sameMemoryBut [] s t ∧ sameRest s t) ∧
    branches (.beq off) (Psw.z s.psw) ∧ branches (.bne off) (!Psw.z s.psw) ∧
    branches (.bc off) (Psw.c s.psw) ∧ branches (.bnc off) (!Psw.c s.psw) ∧
    branches (.bn off) (Psw.n s.psw) ∧ branches (.bge off) (Psw.n s.psw == Psw.v s.psw) ∧
    branches (.blt off) (Psw.n s.psw != Psw.v s.psw) ∧ branches (.bra off) true

/-! ## CEX and the PSW instructions -/

/-- CEX (R251, R252): the condition is evaluated on the PSW and latched with the two counts, replacing any block in progress (log 35); with both counts zero there is no block (log 8). Nothing else changes; that no flag does is log 11. -/
def Obligations.CexResult : Prop :=
  ∀ (code : Cond) (tc fc : BitVec 3) (s : State),
    ∃ t, exec (.cex code tc fc) s = .next t ∧
      (tc = 0#3 ∧ fc = 0#3 → t.cex = Cex.inactive) ∧
      (tc ≠ 0#3 ∨ fc ≠ 0#3 → t.cex.active = true ∧ t.cex.t = tc ∧ t.cex.f = fc ∧
        t.cex.cond =
          (let v := s.psw.getLsbD 4; let n := s.psw.getLsbD 2; let z := s.psw.getLsbD 1; let c := s.psw.getLsbD 0
           match code with
           | .eq => z | .ne => !z | .cs => c | .cc => !c | .mi => n | .pl => !n | .vs => v | .vc => !v
           | .hi => c && !z | .ls => !c || z | .ge => n == v | .lt => n != v
           | .gt => !z && (n == v) | .le => z || (n != v) | .tr => true | .fl => false)) ∧
      sameRegsBut [] s t ∧ t.psw = s.psw ∧ sameMemoryBut [] s t ∧
      t.dev = s.dev ∧ t.halted = s.halted ∧ t.stuck = s.stuck ∧ t.inbox = s.inbox ∧ t.draws = s.draws

/-- SETPRI (R266): below CUR the new priority becomes CUR and nothing else changes; at or above it the priority fault is raised with nothing written. -/
def Obligations.SetpriResult : Prop :=
  ∀ (pr : BitVec 3) (s : State),
    encode (.setpri pr) &&& 0xFFF8#16 = 0x4D80#16 ∧
    (pr < Psw.cur s.psw → ∃ t, exec (.setpri pr) s = .next t ∧ Psw.cur t.psw = pr ∧ samePswBut 0xE0#16 s t ∧
      sameRegsBut [] s t ∧ sameMemoryBut [] s t ∧ sameRest s t) ∧
    (Psw.cur s.psw ≤ pr → exec (.setpri pr) s = .next (raise .priority s))

/-- SVC (R268, R330): where the vector's priority is above CUR the trap is taken: the entry through that vector with the PC after the SVC, FLT not set by it; else the priority fault is raised. Every vector may be named (log 42). -/
def Obligations.SvcResult : Prop :=
  ∀ (sa : BitVec 4) (s : State),
    (Psw.cur s.psw < prio s.mem sa → ∃ t, exec (.svc sa) s = .next t ∧ t = enter sa s.pc false s ∧
      t.lr = 0xFFFF#16 ∧ t.sp = s.sp - 8#16 ∧ t.cex = Cex.inactive ∧ Psw.slp t.psw = false ∧
      Psw.prev t.psw = Psw.cur s.psw ∧ Psw.flt t.psw = Psw.flt (vectorPsw t.mem sa) ∧
      t.pc = vectorEntry t.mem sa ∧ sameRegsBut [.r5, .r6, .r7] s t ∧ sameMemoryBut (frameBytes s.sp) s t) ∧
    (prio s.mem sa ≤ Psw.cur s.psw → exec (.svc sa) s = .next (raise .priority s))

/-- SETCC (R272): the named bits of V, SLP, N, Z, C are set and no other PSW bit changes; at priority 7 the SLP request is dropped (log 39). -/
def Obligations.SetccResult : Prop :=
  ∀ (m : BitVec 5) (s : State),
    ∃ t, exec (.setcc m) s = .next t ∧
      (∀ j, j < 5 → t.psw.getLsbD j =
        (s.psw.getLsbD j || (m.getLsbD j && !(j == 3 && Psw.cur s.psw == 7#3)))) ∧
      samePswBut 0x1F#16 s t ∧ sameRegsBut [] s t ∧ sameMemoryBut [] s t ∧ sameRest s t

/-- CLRCC (R274): the named bits of V, SLP, N, Z, C are cleared and no other PSW bit changes. -/
def Obligations.ClrccResult : Prop :=
  ∀ (m : BitVec 5) (s : State),
    encode (.clrcc m) &&& 0xFFE0#16 = 0x4DE0#16 ∧
    ∃ t, exec (.clrcc m) s = .next t ∧
      (∀ j, j < 5 → t.psw.getLsbD j = (s.psw.getLsbD j && !m.getLsbD j)) ∧
      samePswBut 0x1F#16 s t ∧ sameRegsBut [] s t ∧ sameMemoryBut [] s t ∧ sameRest s t
end

