-- ==== Sys2Proof/Laws/Encoding.lean ====
section
/-! SUPPORT. The encoder's formats field by field, and operand fields read back as written. -/

namespace Sys2Proof

/-! ## Operand fields -/

@[simp] theorem Reg.ofBits_toBits (r : Reg) : Reg.ofBits r.toBits = r := by cases r <;> rfl

@[simp] theorem Constant.ofBits_toBits (k : Constant) : Constant.ofBits k.toBits = k := by cases k <;> rfl

@[simp] theorem Cond.ofBits_toBits (c : Cond) : Cond.ofBits c.toBits = c := by cases c <;> rfl

@[simp] theorem Width.ofBit_toBit (w : Width) : Width.ofBit w.toBit = w := by cases w <;> rfl

@[simp] theorem AddrMode.ofBits_toBits (m : AddrMode) : AddrMode.ofBits m.toBits = m := by
  rcases m with ⟨_ | _, _ | _, _ | _⟩ <;> rfl

@[simp] theorem Source.ofBits_toBits (s : Source) :
    Source.ofBits (s.toBits.extractLsb' 3 1) (s.toBits.extractLsb' 0 3) = s := by
  rcases s with r | k
  · cases r <;> rfl
  · cases k <;> rfl

@[simp] theorem Reg.toBits_ofBits (b : BitVec 3) : (Reg.ofBits b).toBits = b := by revert b; decide

@[simp] theorem Constant.toBits_ofBits (b : BitVec 3) : (Constant.ofBits b).toBits = b := by revert b; decide

@[simp] theorem Cond.toBits_ofBits (b : BitVec 4) : (Cond.ofBits b).toBits = b := by revert b; decide

@[simp] theorem Width.toBit_ofBit (b : BitVec 1) : (Width.ofBit b).toBit = b := by revert b; decide

@[simp] theorem AddrMode.toBits_ofBits (b : BitVec 3) : (AddrMode.ofBits b).toBits = b := by revert b; decide

/-- The two fields of a source, read back. -/
theorem Source.toBits_ofBits (rc : BitVec 1) (sc : BitVec 3) : (Source.ofBits rc sc).toBits = rc ++ sc := by
  revert rc sc; decide

/-! ## Formats -/

/-- The fields of `encodeBranch`. -/
theorem encodeBranch_fields (cond : BitVec 3) (off : BitVec 10) :
    (encodeBranch cond off).extractLsb' 13 3 = 0b001#3 ∧
    (encodeBranch cond off).extractLsb' 10 3 = cond ∧
    (encodeBranch cond off).extractLsb' 0 10 = off := by
  refine ⟨?_, ?_, ?_⟩
  all_goals
    apply BitVec.eq_of_getLsbD_eq; intro i hi; unfold encodeBranch
    simp only [BitVec.getLsbD_extractLsb', hi, decide_true, Bool.true_and]
    repeat rw [BitVec.getLsbD_append]
    repeat first | rw [if_pos (by omega)] | rw [if_neg (by omega)]
    congr 1; omega

/-- The fields of `encodeTwoOperand`. -/
theorem encodeTwoOperand_fields (op : BitVec 4) (wb : Width) (src : Source) (d : Reg) :
    (encodeTwoOperand op wb src d).extractLsb' 12 4 = 0x4#4 ∧
    (encodeTwoOperand op wb src d).extractLsb' 8 4 = op ∧
    (encodeTwoOperand op wb src d).extractLsb' 7 1 = src.toBits.extractLsb' 3 1 ∧
    (encodeTwoOperand op wb src d).extractLsb' 6 1 = wb.toBit ∧
    (encodeTwoOperand op wb src d).extractLsb' 3 3 = src.toBits.extractLsb' 0 3 ∧
    (encodeTwoOperand op wb src d).extractLsb' 0 3 = d.toBits := by
  unfold encodeTwoOperand
  generalize src.toBits.extractLsb' 3 1 = rc, src.toBits.extractLsb' 0 3 = sc
  refine ⟨?_, ?_, ?_, ?_, ?_, ?_⟩
  all_goals
    apply BitVec.eq_of_getLsbD_eq; intro i hi
    simp only [BitVec.getLsbD_extractLsb', hi, decide_true, Bool.true_and]
    repeat rw [BitVec.getLsbD_append]
    repeat first | rw [if_pos (by omega)] | rw [if_neg (by omega)]
    congr 1; omega

/-- The fields of `encodeExchange`. -/
theorem encodeExchange_fields (sel b6 : BitVec 1) (s d : Reg) :
    (encodeExchange sel b6 s d).extractLsb' 8 8 = 0x4C#8 ∧
    (encodeExchange sel b6 s d).extractLsb' 7 1 = sel ∧
    (encodeExchange sel b6 s d).extractLsb' 6 1 = b6 ∧
    (encodeExchange sel b6 s d).extractLsb' 3 3 = s.toBits ∧
    (encodeExchange sel b6 s d).extractLsb' 0 3 = d.toBits := by
  refine ⟨?_, ?_, ?_, ?_, ?_⟩
  all_goals
    apply BitVec.eq_of_getLsbD_eq; intro i hi; unfold encodeExchange
    simp only [BitVec.getLsbD_extractLsb', hi, decide_true, Bool.true_and]
    repeat rw [BitVec.getLsbD_append]
    repeat first | rw [if_pos (by omega)] | rw [if_neg (by omega)]
    congr 1; omega

/-- The fields of `encodeSingleRegister`. -/
theorem encodeSingleRegister_fields (b6 : BitVec 1) (sub : BitVec 3) (d : Reg) :
    (encodeSingleRegister b6 sub d).extractLsb' 7 9 = 0b010011010#9 ∧
    (encodeSingleRegister b6 sub d).extractLsb' 6 1 = b6 ∧
    (encodeSingleRegister b6 sub d).extractLsb' 3 3 = sub ∧
    (encodeSingleRegister b6 sub d).extractLsb' 0 3 = d.toBits := by
  refine ⟨?_, ?_, ?_, ?_⟩
  all_goals
    apply BitVec.eq_of_getLsbD_eq; intro i hi; unfold encodeSingleRegister
    simp only [BitVec.getLsbD_extractLsb', hi, decide_true, Bool.true_and]
    repeat rw [BitVec.getLsbD_append]
    repeat first | rw [if_pos (by omega)] | rw [if_neg (by omega)]
    congr 1; omega

/-- The fields of `encodePsw`. -/
theorem encodePsw_fields (sel : BitVec 2) (is : BitVec 5) :
    (encodePsw sel is).extractLsb' 7 9 = 0b010011011#9 ∧
    (encodePsw sel is).extractLsb' 5 2 = sel ∧
    (encodePsw sel is).extractLsb' 0 5 = is := by
  refine ⟨?_, ?_, ?_⟩
  all_goals
    apply BitVec.eq_of_getLsbD_eq; intro i hi; unfold encodePsw
    simp only [BitVec.getLsbD_extractLsb', hi, decide_true, Bool.true_and]
    repeat rw [BitVec.getLsbD_append]
    repeat first | rw [if_pos (by omega)] | rw [if_neg (by omega)]
    congr 1; omega

/-- The fields of `encodeCex`. -/
theorem encodeCex_fields (code : BitVec 4) (t f : BitVec 3) :
    (encodeCex code t f).extractLsb' 10 6 = 0b010100#6 ∧
    (encodeCex code t f).extractLsb' 6 4 = code ∧
    (encodeCex code t f).extractLsb' 3 3 = t ∧
    (encodeCex code t f).extractLsb' 0 3 = f := by
  refine ⟨?_, ?_, ?_, ?_⟩
  all_goals
    apply BitVec.eq_of_getLsbD_eq; intro i hi; unfold encodeCex
    simp only [BitVec.getLsbD_extractLsb', hi, decide_true, Bool.true_and]
    repeat rw [BitVec.getLsbD_append]
    repeat first | rw [if_pos (by omega)] | rw [if_neg (by omega)]
    congr 1; omega

/-- The fields of `encodeLdSt`. -/
theorem encodeLdSt_fields (op : BitVec 1) (mode : AddrMode) (wb : Width) (s d : Reg) :
    (encodeLdSt op mode wb s d).extractLsb' 11 5 = 0b01011#5 ∧
    (encodeLdSt op mode wb s d).extractLsb' 10 1 = op ∧
    (encodeLdSt op mode wb s d).extractLsb' 7 3 = mode.toBits ∧
    (encodeLdSt op mode wb s d).extractLsb' 6 1 = wb.toBit ∧
    (encodeLdSt op mode wb s d).extractLsb' 3 3 = s.toBits ∧
    (encodeLdSt op mode wb s d).extractLsb' 0 3 = d.toBits := by
  refine ⟨?_, ?_, ?_, ?_, ?_, ?_⟩
  all_goals
    apply BitVec.eq_of_getLsbD_eq; intro i hi; unfold encodeLdSt
    simp only [BitVec.getLsbD_extractLsb', hi, decide_true, Bool.true_and]
    repeat rw [BitVec.getLsbD_append]
    repeat first | rw [if_pos (by omega)] | rw [if_neg (by omega)]
    congr 1; omega

/-- The fields of `encodeMovx`. -/
theorem encodeMovx_fields (sel : BitVec 2) (b : Byte) (d : Reg) :
    (encodeMovx sel b d).extractLsb' 13 3 = 0b011#3 ∧
    (encodeMovx sel b d).extractLsb' 11 2 = sel ∧
    (encodeMovx sel b d).extractLsb' 3 8 = b ∧
    (encodeMovx sel b d).extractLsb' 0 3 = d.toBits := by
  refine ⟨?_, ?_, ?_, ?_⟩
  all_goals
    apply BitVec.eq_of_getLsbD_eq; intro i hi; unfold encodeMovx
    simp only [BitVec.getLsbD_extractLsb', hi, decide_true, Bool.true_and]
    repeat rw [BitVec.getLsbD_append]
    repeat first | rw [if_pos (by omega)] | rw [if_neg (by omega)]
    congr 1; omega

/-- The fields of `encodeRel`. -/
theorem encodeRel_fields (op : BitVec 1) (off : BitVec 7) (wb : Width) (s d : Reg) :
    (encodeRel op off wb s d).extractLsb' 15 1 = 1#1 ∧
    (encodeRel op off wb s d).extractLsb' 14 1 = op ∧
    (encodeRel op off wb s d).extractLsb' 7 7 = off ∧
    (encodeRel op off wb s d).extractLsb' 6 1 = wb.toBit ∧
    (encodeRel op off wb s d).extractLsb' 3 3 = s.toBits ∧
    (encodeRel op off wb s d).extractLsb' 0 3 = d.toBits := by
  refine ⟨?_, ?_, ?_, ?_, ?_, ?_⟩
  all_goals
    apply BitVec.eq_of_getLsbD_eq; intro i hi; unfold encodeRel
    simp only [BitVec.getLsbD_extractLsb', hi, decide_true, Bool.true_and]
    repeat rw [BitVec.getLsbD_append]
    repeat first | rw [if_pos (by omega)] | rw [if_neg (by omega)]
    congr 1; omega

end Sys2Proof
end

