-- ==== Sys2Proof/Laws/Memory.lean ====
section
/-! SUPPORT. Memory: its canonical form is kept by every operation, a read after a write gives the value written, and a write leaves every other byte alone. -/

namespace Sys2Proof.Machine

/-! ## Lists of entries -/

/-- Another address is listed as before. -/
theorem lookup_putEntry_ne (m : Memory) (a c : Nat) (b : Byte) (h : c ≠ a) :
    Memory.lookup (Memory.putEntry m a b) c = Memory.lookup m c := by
  induction m with
  | nil => simp [Memory.putEntry, Memory.lookup, h.symm]
  | cons p m ih =>
    obtain ⟨k, v⟩ := p
    simp only [Memory.putEntry]
    split
    · simp [Memory.lookup, h.symm]
    · split
      · rename_i hk; subst hk; simp [Memory.lookup, h.symm]
      · simp [Memory.lookup, ih]

/-- The entry put is the one listed. -/
theorem lookup_putEntry_same (m : Memory) (a : Nat) (b : Byte) :
    Memory.lookup (Memory.putEntry m a b) a = some b := by
  induction m with
  | nil => simp [Memory.putEntry, Memory.lookup]
  | cons p m ih =>
    obtain ⟨k, v⟩ := p
    simp only [Memory.putEntry]
    split
    · simp [Memory.lookup]
    · split
      · simp [Memory.lookup]
      · rename_i h1 h2; simp [Memory.lookup, Ne.symm h2, ih]

/-- Another address is listed as before. -/
theorem lookup_dropEntry_ne (m : Memory) (a c : Nat) (h : c ≠ a) :
    Memory.lookup (Memory.dropEntry m a) c = Memory.lookup m c := by
  induction m with
  | nil => rfl
  | cons p m ih =>
    obtain ⟨k, v⟩ := p
    simp only [Memory.dropEntry]
    split
    · rename_i hk; subst hk; simp [Memory.lookup, h.symm]
    · simp [Memory.lookup, ih]

/-- An address below every entry is not listed. -/
theorem lookup_none_of_lt (m : Memory) (a : Nat) (h : ∀ p ∈ m, a < p.1) : Memory.lookup m a = none := by
  induction m with
  | nil => rfl
  | cons p m ih =>
    obtain ⟨k, v⟩ := p
    have hk : a < k := h (k, v) (by simp)
    have : k ≠ a := by omega
    simp only [Memory.lookup, this, if_false]
    exact ih fun q hq => h q (by simp [hq])

/-- In a list by rising address a dropped entry is listed no more. -/
theorem lookup_dropEntry_same (m : Memory) (a : Nat) (hm : m.Pairwise (fun p q => p.1 < q.1)) :
    Memory.lookup (Memory.dropEntry m a) a = none := by
  induction m with
  | nil => rfl
  | cons p m ih =>
    obtain ⟨k, v⟩ := p
    rw [List.pairwise_cons] at hm
    simp only [Memory.dropEntry]
    split
    · rename_i hk; subst hk; exact lookup_none_of_lt m _ fun q hq => hm.1 q hq
    · rename_i hk; simp [Memory.lookup, hk, ih hm.2]

/-- What is in a list after an entry is put. -/
theorem mem_putEntry (m : Memory) (a : Nat) (b : Byte) (p : Host.Cell) (h : p ∈ Memory.putEntry m a b) :
    p = (a, b) ∨ p ∈ m := by
  induction m with
  | nil => simpa [Memory.putEntry] using h
  | cons q m ih =>
    obtain ⟨k, v⟩ := q
    simp only [Memory.putEntry] at h
    split at h
    · simpa using h
    · split at h
      · rcases List.mem_cons.1 h with rfl | h
        · exact .inl rfl
        · exact .inr (List.mem_cons_of_mem _ h)
      · rcases List.mem_cons.1 h with rfl | h
        · exact .inr List.mem_cons_self
        · exact (ih h).imp_right (List.mem_cons_of_mem _)

/-- What is in a list after an entry is dropped was in it. -/
theorem mem_dropEntry (m : Memory) (a : Nat) (p : Host.Cell) (h : p ∈ Memory.dropEntry m a) : p ∈ m := by
  induction m with
  | nil => exact h
  | cons q m ih =>
    obtain ⟨k, v⟩ := q
    simp only [Memory.dropEntry] at h
    split at h
    · exact List.mem_cons_of_mem _ h
    · rcases List.mem_cons.1 h with rfl | h
      · exact List.mem_cons_self
      · exact List.mem_cons_of_mem _ (ih h)

theorem pairwise_putEntry (m : Memory) (a : Nat) (b : Byte) (hm : m.Pairwise (fun p q => p.1 < q.1)) :
    (Memory.putEntry m a b).Pairwise (fun p q => p.1 < q.1) := by
  induction m with
  | nil => simp [Memory.putEntry]
  | cons q m ih =>
    obtain ⟨k, v⟩ := q
    have hq := List.pairwise_cons.1 hm
    simp only [Memory.putEntry]
    split
    · rename_i hk
      refine List.pairwise_cons.2 ⟨fun p hp => ?_, hm⟩
      rcases List.mem_cons.1 hp with rfl | hp
      · exact hk
      · exact Nat.lt_trans hk (hq.1 p hp)
    · split
      · rename_i hk; subst hk; exact List.pairwise_cons.2 ⟨hq.1, hq.2⟩
      · refine List.pairwise_cons.2 ⟨fun p hp => ?_, ih hq.2⟩
        rcases mem_putEntry m a b p hp with rfl | hp
        · show k < a; omega
        · exact hq.1 p hp

theorem pairwise_dropEntry (m : Memory) (a : Nat) (hm : m.Pairwise (fun p q => p.1 < q.1)) :
    (Memory.dropEntry m a).Pairwise (fun p q => p.1 < q.1) := by
  induction m with
  | nil => exact hm
  | cons q m ih =>
    obtain ⟨k, v⟩ := q
    have hq := List.pairwise_cons.1 hm
    simp only [Memory.dropEntry]
    split
    · exact hq.2
    · exact List.pairwise_cons.2 ⟨fun p hp => hq.1 p (mem_dropEntry m a p hp), ih hq.2⟩

/-! ## The canonical form -/

/-- Memory with nothing listed has the canonical form. -/
theorem wf_nil : Memory.wf [] := by simp [Memory.wf]

/-- The memory of the state after reset has the canonical form. -/
theorem wf_reset : Memory.wf State.reset.mem := wf_nil

/-- A byte store keeps the canonical form. -/
theorem wf_writeByte (m : Memory) (a : Word) (b : Byte) (hm : Memory.wf m) : Memory.wf (Memory.writeByte m a b) := by
  unfold Memory.writeByte
  split
  · exact hm
  · rename_i h16
    split
    · exact ⟨pairwise_dropEntry m _ hm.1, fun p hp => hm.2 p (mem_dropEntry m _ p hp)⟩
    · rename_i hb
      refine ⟨pairwise_putEntry m _ _ hm.1, fun p hp => ?_⟩
      rcases mem_putEntry m _ b p hp with rfl | hp
      · exact ⟨Nat.le_of_not_lt h16, a.isLt, hb⟩
      · exact hm.2 p hp

/-- A word store keeps the canonical form. -/
theorem wf_writeWord (m : Memory) (a v : Word) (hm : Memory.wf m) : Memory.wf (Memory.writeWord m a v) :=
  wf_writeByte _ _ _ (wf_writeByte _ _ _ hm)

/-! ## Reads after writes -/

/-- A byte store leaves every other byte. -/
theorem readByte_writeByte_ne (m : Memory) (a c : Word) (b : Byte) (h : c ≠ a) :
    Memory.readByte (Memory.writeByte m a b) c = Memory.readByte m c := by
  have hc : c.toNat ≠ a.toNat := fun e => h (BitVec.eq_of_toNat_eq e)
  unfold Memory.writeByte Memory.readByte
  split
  · rfl
  · split
    · rw [lookup_dropEntry_ne m _ _ hc]
    · rw [lookup_putEntry_ne m _ _ _ hc]

/-- A byte of ordinary memory reads as the value stored. -/
theorem readByte_writeByte_same (m : Memory) (a : Word) (b : Byte) (hm : Memory.wf m) (ha : 16 ≤ a.toNat) :
    Memory.readByte (Memory.writeByte m a b) a = b := by
  unfold Memory.writeByte Memory.readByte
  rw [if_neg (by omega)]
  split
  · rename_i hb; rw [lookup_dropEntry_same m _ hm.1, hb]; rfl
  · rw [lookup_putEntry_same]; rfl

/-- A store below #0010 is no store to ordinary memory. -/
theorem writeByte_port (m : Memory) (a : Word) (b : Byte) (h : a.toNat < 16) : Memory.writeByte m a b = m := by
  simp [Memory.writeByte, h]

/-- The even address of a word access is even, and the byte above it is another byte. -/
theorem wordAddr_bit0 (a : Word) : (wordAddr a).getLsbD 0 = false := by simp [wordAddr]

theorem wordAddr_toNat (a : Word) : (wordAddr a).toNat = a.toNat - a.toNat % 2 := by
  have h : (0xFFFE#16).toNat = 2 ^ 16 - 2 ^ 1 := by decide
  have ha := a.isLt
  unfold wordAddr
  have key : a &&& 0xFFFE#16 = (a >>> 1) <<< 1 := by
    apply BitVec.eq_of_getLsbD_eq
    intro i hi
    rw [show (0xFFFE#16 : BitVec 16) = ~~~(BitVec.twoPow 16 0) by decide]
    by_cases h0 : i = 0
    · subst h0; simp
    · simp [h0, hi, show ¬ i < 1 by omega, show 1 + (i - 1) = i by omega, BitVec.getElem_twoPow]
  rw [key]
  simp only [BitVec.toNat_shiftLeft, BitVec.toNat_ushiftRight, Nat.shiftLeft_eq, Nat.shiftRight_eq_div_pow]
  omega

/-- The high byte of a word stands at the next address: an even address never wraps. -/
theorem wordAddr_succ_toNat (a : Word) : (wordAddr a + 1#16).toNat = (wordAddr a).toNat + 1 := by
  have h := wordAddr_toNat a
  have ha := a.isLt
  rw [BitVec.toNat_add]
  simp only [BitVec.toNat_ofNat]
  omega

theorem wordAddr_succ_ne (a : Word) : wordAddr a + 1#16 ≠ wordAddr a := by
  intro h
  have := congrArg BitVec.toNat h
  rw [wordAddr_succ_toNat] at this
  omega

/-- The word of the even address of a word access is that word. -/
@[simp] theorem wordAddr_wordAddr (a : Word) : wordAddr (wordAddr a) = wordAddr a := by
  simp [wordAddr, BitVec.and_assoc]

/-- A word store leaves every byte outside its word. -/
theorem readByte_writeWord_ne (m : Memory) (a v c : Word) (h0 : c ≠ wordAddr a) (h1 : c ≠ wordAddr a + 1#16) :
    Memory.readByte (Memory.writeWord m a v) c = Memory.readByte m c := by
  unfold Memory.writeWord
  rw [readByte_writeByte_ne _ _ _ _ h1, readByte_writeByte_ne _ _ _ _ h0]

end Sys2Proof.Machine
end

