-- ==== Sys2Proof/Laws/Psw.lean ====
section
/-! SUPPORT. The PSW's fields after a write of one of them, and what a row of the flag table writes. -/

namespace Sys2Proof.Machine

/-- A bit of a word after a write of one bit. -/
theorem getLsbD_setBit {n : Nat} (w : BitVec n) (i j : Nat) (b : Bool) (hi : i < n) :
    (setBit w i b).getLsbD j = if j = i then b else w.getLsbD j := by
  unfold setBit
  by_cases hj : j < n
  · by_cases hji : j = i
    · subst hji; cases b <;> simp [hj]
    · cases b <;> simp [hj, hji, BitVec.getElem_twoPow]
  · have : j ≠ i := by omega
    simp [this, BitVec.getLsbD_of_ge _ _ (Nat.le_of_not_lt hj)]

/-- The same with an index in range. -/
@[simp] theorem getElem_setBit {n : Nat} (w : BitVec n) (i j : Nat) (b : Bool) (hi : i < n) (hj : j < n) :
    (setBit w i b)[j] = if j = i then b else w[j] := by
  have h := getLsbD_setBit w i j b hi
  rwa [BitVec.getLsbD_eq_getElem hj, BitVec.getLsbD_eq_getElem hj] at h

/-- A field of a word that a written bit lies outside of. -/
theorem extract_setBit {n : Nat} (w : BitVec n) (i start len : Nat) (b : Bool) (hi : i < n)
    (h : i < start ∨ start + len ≤ i) : (setBit w i b).extractLsb' start len = w.extractLsb' start len := by
  apply BitVec.eq_of_getLsbD_eq
  intro j hj
  have : start + j ≠ i := by omega
  simp [getLsbD_setBit _ _ _ _ hi, this]

/-- Writing a bit in place: the other bits of a mask's complement stay. -/
theorem setBit_and_not {n : Nat} (w mask : BitVec n) (i : Nat) (b : Bool) (hi : i < n) (hm : mask.getLsbD i = true) :
    setBit w i b &&& ~~~mask = w &&& ~~~mask := by
  apply BitVec.eq_of_getLsbD_eq
  intro j hj
  by_cases h : j = i
  · subst h; simp [hm]
  · simp [getLsbD_setBit _ _ _ _ hi, h]

/-! ## Single bits of the PSW -/

@[simp] theorem setSlp_slp (w : Word) (b : Bool) : Psw.slp (Psw.setSlp w b) = b := by
  unfold Psw.slp Psw.setSlp; rw [getLsbD_setBit _ _ _ _ (by decide)]; rfl

@[simp] theorem setFlt_flt (w : Word) (b : Bool) : Psw.flt (Psw.setFlt w b) = b := by
  unfold Psw.flt Psw.setFlt; rw [getLsbD_setBit _ _ _ _ (by decide)]; rfl

@[simp] theorem setFlt_slp (w : Word) (b : Bool) : Psw.slp (Psw.setFlt w b) = Psw.slp w := by
  unfold Psw.slp Psw.setFlt; rw [getLsbD_setBit _ _ _ _ (by decide)]; rfl

@[simp] theorem setSlp_flt (w : Word) (b : Bool) : Psw.flt (Psw.setSlp w b) = Psw.flt w := by
  unfold Psw.flt Psw.setSlp; rw [getLsbD_setBit _ _ _ _ (by decide)]; rfl

@[simp] theorem setSlp_cur (w : Word) (b : Bool) : Psw.cur (Psw.setSlp w b) = Psw.cur w :=
  extract_setBit _ _ _ _ _ (by decide) (by decide)

@[simp] theorem setFlt_cur (w : Word) (b : Bool) : Psw.cur (Psw.setFlt w b) = Psw.cur w :=
  extract_setBit _ _ _ _ _ (by decide) (by decide)

@[simp] theorem setFlt_prev (w : Word) (b : Bool) : Psw.prev (Psw.setFlt w b) = Psw.prev w :=
  extract_setBit _ _ _ _ _ (by decide) (by decide)

@[simp] theorem setSlp_prev (w : Word) (b : Bool) : Psw.prev (Psw.setSlp w b) = Psw.prev w :=
  extract_setBit _ _ _ _ _ (by decide) (by decide)

/-! ## CUR and PREV -/

/-- A bit of the PSW after a write of CUR. -/
theorem getLsbD_setCur (w : Word) (p : BitVec 3) (j : Nat) :
    (Psw.setCur w p).getLsbD j = if 5 ≤ j ∧ j < 8 then p.getLsbD (j - 5) else w.getLsbD j := by
  unfold Psw.setCur
  rw [BitVec.getLsbD_append, BitVec.getLsbD_append]
  by_cases h5 : j < 5
  · have : ¬ (5 ≤ j ∧ j < 8) := by omega
    simp only [h5, this, if_true, if_false, BitVec.getLsbD_extractLsb', decide_true, Bool.true_and, Nat.zero_add]
  · by_cases h8 : j < 8
    · have h3 : j - 5 < 3 := by omega
      have : 5 ≤ j ∧ j < 8 := by omega
      simp only [h5, h3, this, and_self, if_true, if_false]
    · have h3 : ¬ j - 5 < 3 := by omega
      have : ¬ (5 ≤ j ∧ j < 8) := by omega
      have e : 8 + (j - 5 - 3) = j := by omega
      simp only [h5, h3, this, if_false, BitVec.getLsbD_extractLsb', e]
      by_cases h16 : j < 16
      · simp [show j - 5 - 3 < 8 by omega]
      · simp [BitVec.getLsbD_of_ge w j (by omega)]

/-- A bit of the PSW after a write of PREV. -/
theorem getLsbD_setPrev (w : Word) (p : BitVec 3) (j : Nat) :
    (Psw.setPrev w p).getLsbD j = if j < 13 then w.getLsbD j else p.getLsbD (j - 13) := by
  unfold Psw.setPrev
  simp only [BitVec.getLsbD_append, BitVec.getLsbD_extractLsb', Nat.zero_add]
  split <;> simp_all

@[simp] theorem setCur_cur (w : Word) (p : BitVec 3) : Psw.cur (Psw.setCur w p) = p := by
  apply BitVec.eq_of_getLsbD_eq
  intro j hj
  have : 5 + j < 8 := by omega
  simp [Psw.cur, getLsbD_setCur, hj, this]

@[simp] theorem setPrev_prev (w : Word) (p : BitVec 3) : Psw.prev (Psw.setPrev w p) = p := by
  apply BitVec.eq_of_getLsbD_eq
  intro j hj
  simp [Psw.prev, getLsbD_setPrev, hj]

@[simp] theorem setPrev_cur (w : Word) (p : BitVec 3) : Psw.cur (Psw.setPrev w p) = Psw.cur w := by
  apply BitVec.eq_of_getLsbD_eq
  intro j hj
  have : 5 + j < 13 := by omega
  simp [Psw.cur, getLsbD_setPrev, hj, this]

@[simp] theorem setPrev_slp (w : Word) (p : BitVec 3) : Psw.slp (Psw.setPrev w p) = Psw.slp w := by
  unfold Psw.slp; rw [getLsbD_setPrev]; rfl

@[simp] theorem setPrev_flt (w : Word) (p : BitVec 3) : Psw.flt (Psw.setPrev w p) = Psw.flt w := by
  unfold Psw.flt; rw [getLsbD_setPrev]; rfl

@[simp] theorem setCur_prev (w : Word) (p : BitVec 3) : Psw.prev (Psw.setCur w p) = Psw.prev w := by
  apply BitVec.eq_of_getLsbD_eq
  intro j hj
  have : ¬ (5 ≤ 13 + j ∧ 13 + j < 8) := by omega
  simp [Psw.prev, getLsbD_setCur, hj, this]

@[simp] theorem setCur_flt (w : Word) (p : BitVec 3) : Psw.flt (Psw.setCur w p) = Psw.flt w := by
  unfold Psw.flt; rw [getLsbD_setCur]; rfl

@[simp] theorem setCur_slp (w : Word) (p : BitVec 3) : Psw.slp (Psw.setCur w p) = Psw.slp w := by
  unfold Psw.slp; rw [getLsbD_setCur]; rfl

/-! ## Rows of the flag table -/

/-- The mask of the condition bits a row of R38 writes. -/
def rowMask (row : FlagMask) : Word :=
  (if row.v then 0x10#16 else 0#16) ||| (if row.n then 0x4#16 else 0#16) |||
    (if row.z then 0x2#16 else 0#16) ||| (if row.c then 0x1#16 else 0#16)

/-- A bit of the PSW after a row of R38 is written. -/
theorem getLsbD_writeFlags (w : Word) (row : FlagMask) (f : Flags) (j : Nat) :
    (Psw.writeFlags w row f).getLsbD j =
      if j = 4 ∧ row.v then f.v
      else if j = 2 ∧ row.n then f.n
      else if j = 1 ∧ row.z then f.z
      else if j = 0 ∧ row.c then f.c
      else w.getLsbD j := by
  rcases row with ⟨rv, rn, rz, rc⟩
  cases rv <;> cases rn <;> cases rz <;> cases rc <;>
    simp only [Psw.writeFlags, Psw.setV, Psw.setN, Psw.setZ, Psw.setC, if_true, if_false, Bool.false_eq_true,
      and_true, and_false, getLsbD_setBit _ 4 _ _ (by decide : 4 < 16), getLsbD_setBit _ 2 _ _ (by decide : 2 < 16),
      getLsbD_setBit _ 1 _ _ (by decide : 1 < 16), getLsbD_setBit _ 0 _ _ (by decide : 0 < 16)] <;>
    (repeat' split) <;> first | rfl | omega

/-- A row of R38 leaves every field of the PSW that it does not name. -/
theorem extract_writeFlags (w : Word) (row : FlagMask) (f : Flags) (start len : Nat) (h : 5 ≤ start) :
    (Psw.writeFlags w row f).extractLsb' start len = w.extractLsb' start len := by
  apply BitVec.eq_of_getLsbD_eq
  intro j hj
  have h4 : start + j ≠ 4 := by omega
  have h2 : start + j ≠ 2 := by omega
  have h1 : start + j ≠ 1 := by omega
  have h0 : start + j ≠ 0 := by omega
  simp only [BitVec.getLsbD_extractLsb', getLsbD_writeFlags, h4, h2, h1, h0, false_and, if_false]

@[simp] theorem writeFlags_cur (w : Word) (row : FlagMask) (f : Flags) : Psw.cur (Psw.writeFlags w row f) = Psw.cur w :=
  extract_writeFlags _ _ _ _ _ (by decide)

@[simp] theorem writeFlags_prev (w : Word) (row : FlagMask) (f : Flags) : Psw.prev (Psw.writeFlags w row f) = Psw.prev w :=
  extract_writeFlags _ _ _ _ _ (by decide)

@[simp] theorem writeFlags_rsv (w : Word) (row : FlagMask) (f : Flags) : Psw.rsv (Psw.writeFlags w row f) = Psw.rsv w :=
  extract_writeFlags _ _ _ _ _ (by decide)

@[simp] theorem writeFlags_flt (w : Word) (row : FlagMask) (f : Flags) : Psw.flt (Psw.writeFlags w row f) = Psw.flt w := by
  unfold Psw.flt; simp only [getLsbD_writeFlags]; rfl

@[simp] theorem writeFlags_slp (w : Word) (row : FlagMask) (f : Flags) : Psw.slp (Psw.writeFlags w row f) = Psw.slp w := by
  unfold Psw.slp; simp only [getLsbD_writeFlags]; rfl

/-- The condition bits after a row of R38 is written: each is the computed one or stays. -/
theorem writeFlags_bits (w : Word) (row : FlagMask) (f : Flags) :
    Psw.v (Psw.writeFlags w row f) = (if row.v then f.v else Psw.v w) ∧
    Psw.n (Psw.writeFlags w row f) = (if row.n then f.n else Psw.n w) ∧
    Psw.z (Psw.writeFlags w row f) = (if row.z then f.z else Psw.z w) ∧
    Psw.c (Psw.writeFlags w row f) = (if row.c then f.c else Psw.c w) := by
  simp only [Psw.v, Psw.n, Psw.z, Psw.c, getLsbD_writeFlags]
  simp

/-- The PSW outside a row's bits stays. -/
theorem writeFlags_and_not (w : Word) (row : FlagMask) (f : Flags) :
    Psw.writeFlags w row f &&& ~~~(rowMask row) = w &&& ~~~(rowMask row) := by
  rcases row with ⟨rv, rn, rz, rc⟩
  cases rv <;> cases rn <;> cases rz <;> cases rc <;>
    simp only [Psw.writeFlags, Psw.setV, Psw.setN, Psw.setZ, Psw.setC, if_true, if_false, Bool.false_eq_true] <;>
    (repeat rw [setBit_and_not _ _ _ _ (by decide) (by decide)])

/-- Under the default of `PSW_RESERVED_BITS` a loaded PSW is the word as it comes (log 41). -/
@[simp] theorem loaded_eq (w : Word) : Psw.loaded w = w := rfl

/-- The PSW of a handler: SLP is 0, PREV is the old CUR, CUR is the vector's, FLT the vector's or 1 (R312, R320). -/
theorem handlerPsw_fields (vector old : Word) (fault : Bool) :
    Psw.slp (handlerPsw vector old fault) = false ∧
    Psw.prev (handlerPsw vector old fault) = Psw.cur old ∧
    Psw.cur (handlerPsw vector old fault) = Psw.cur vector ∧
    Psw.flt (handlerPsw vector old fault) = (fault || Psw.flt vector) := by
  cases fault <;> simp [handlerPsw]

/-! ## Rows of R38 that write nothing (log 11) -/

@[simp] theorem setFlags_flagsMovx (s : State) (f : Flags) : s.setFlags Config.flagsMovx f = s := rfl

@[simp] theorem setFlags_flagsLdSt (s : State) (f : Flags) : s.setFlags Config.flagsLdSt f = s := rfl

@[simp] theorem setFreeFlags_flagsTransfer (s : State) : s.setFreeFlags Config.flagsTransfer = s := rfl

@[simp] theorem setFreeFlags_flagsCex (s : State) : s.setFreeFlags Config.flagsCex = s := rfl

/-- A result with the row of LD and ST is the register write alone. -/
@[simp] theorem answer_flagsLdSt (s : State) (wb : Width) (d : Reg) (r : BitVec wb.bits × Flags) :
    s.answer wb d Config.flagsLdSt r = s.regw wb d r.1 := rfl

@[simp] theorem answer_flagsMovx (s : State) (wb : Width) (d : Reg) (r : BitVec wb.bits × Flags) :
    s.answer wb d Config.flagsMovx r = s.regw wb d r.1 := rfl

/-- The bit masks of R187: one bit where the number is below the width, none else (log 14). -/
theorem getLsbD_bitMask {w : Nat} (n : BitVec w) (j : Nat) (hj : j < w) : (bitMask n).getLsbD j = (j == n.toNat) := by
  unfold bitMask
  by_cases h : n.toNat < w
  · by_cases e : j = n.toNat <;> simp [h, e, hj]
  · have : j ≠ n.toNat := by omega
    simp [h, this, Config.bitopOutOfRange]

/-! ## The adder and a result -/

/-- The sum modulo 2^W, the carry out, and N, Z, V of it (R172, R173). -/
theorem addw_spec {w : Nat} (d b : BitVec w) (cin : Bool) :
    (addw d b cin).1.toNat = (d.toNat + b.toNat + cin.toNat) % 2 ^ w ∧
    (addw d b cin).2.c = decide (2 ^ w ≤ d.toNat + b.toNat + cin.toNat) ∧
    (addw d b cin).2.n = (addw d b cin).1.msb ∧
    (addw d b cin).2.z = ((addw d b cin).1 == 0#w) ∧
    (addw d b cin).2.v = (d.msb == b.msb && (addw d b cin).1.msb != d.msb) := by
  refine ⟨?_, rfl, rfl, rfl, rfl⟩
  simp [addw, exactSum]

/-- A result written to a register with a row of flags: nothing else changes (R171, R173). -/
theorem answer_spec (s : State) (wb : Width) (d : Reg) (row : FlagMask) (r : BitVec wb.bits × Flags) :
    (∀ q, (s.answer wb d row r).reg q = if q = d then mergeLow wb (s.reg d) r.1 else s.reg q) ∧
    (s.answer wb d row r).psw = Psw.writeFlags s.psw row r.2 ∧
    (s.answer wb d row r).cex = s.cex ∧ (s.answer wb d row r).mem = s.mem ∧
    (s.answer wb d row r).dev = s.dev ∧ (s.answer wb d row r).halted = s.halted ∧ (s.answer wb d row r).stuck = s.stuck ∧
    (s.answer wb d row r).inbox = s.inbox ∧ (s.answer wb d row r).draws = s.draws :=
  ⟨fun q => by cases d <;> cases q <;> rfl, rfl, rfl, rfl, rfl, rfl, rfl, rfl, rfl⟩

end Sys2Proof.Machine
end

