-- ==== Sys2Proof/Laws/State.lean ====
section
/-! SUPPORT. One lemma per field per named update of the state, so that no proof unfolds a record update. -/

namespace Sys2Proof.Machine

/-! ## setReg -/

@[simp] theorem setReg_psw (s : State) (r : Reg) (v : Word) : (s.setReg r v).psw = s.psw := rfl
@[simp] theorem setReg_cex (s : State) (r : Reg) (v : Word) : (s.setReg r v).cex = s.cex := rfl
@[simp] theorem setReg_mem (s : State) (r : Reg) (v : Word) : (s.setReg r v).mem = s.mem := rfl
@[simp] theorem setReg_dev (s : State) (r : Reg) (v : Word) : (s.setReg r v).dev = s.dev := rfl
@[simp] theorem setReg_halted (s : State) (r : Reg) (v : Word) : (s.setReg r v).halted = s.halted := rfl
@[simp] theorem setReg_stuck (s : State) (r : Reg) (v : Word) : (s.setReg r v).stuck = s.stuck := rfl
@[simp] theorem setReg_inbox (s : State) (r : Reg) (v : Word) : (s.setReg r v).inbox = s.inbox := rfl
@[simp] theorem setReg_draws (s : State) (r : Reg) (v : Word) : (s.setReg r v).draws = s.draws := rfl

/-! ## setPsw -/

@[simp] theorem setPsw_regs (s : State) (w : Word) : (s.setPsw w).regs = s.regs := rfl
@[simp] theorem setPsw_cex (s : State) (w : Word) : (s.setPsw w).cex = s.cex := rfl
@[simp] theorem setPsw_mem (s : State) (w : Word) : (s.setPsw w).mem = s.mem := rfl
@[simp] theorem setPsw_dev (s : State) (w : Word) : (s.setPsw w).dev = s.dev := rfl
@[simp] theorem setPsw_halted (s : State) (w : Word) : (s.setPsw w).halted = s.halted := rfl
@[simp] theorem setPsw_stuck (s : State) (w : Word) : (s.setPsw w).stuck = s.stuck := rfl
@[simp] theorem setPsw_inbox (s : State) (w : Word) : (s.setPsw w).inbox = s.inbox := rfl
@[simp] theorem setPsw_draws (s : State) (w : Word) : (s.setPsw w).draws = s.draws := rfl

@[simp] theorem setPsw_reg (s : State) (w : Word) (q : Reg) : (s.setPsw w).reg q = s.reg q := rfl

/-! ## setCex -/

@[simp] theorem setCex_regs (s : State) (c : Cex) : (s.setCex c).regs = s.regs := rfl
@[simp] theorem setCex_psw (s : State) (c : Cex) : (s.setCex c).psw = s.psw := rfl
@[simp] theorem setCex_mem (s : State) (c : Cex) : (s.setCex c).mem = s.mem := rfl
@[simp] theorem setCex_dev (s : State) (c : Cex) : (s.setCex c).dev = s.dev := rfl
@[simp] theorem setCex_halted (s : State) (c : Cex) : (s.setCex c).halted = s.halted := rfl
@[simp] theorem setCex_stuck (s : State) (c : Cex) : (s.setCex c).stuck = s.stuck := rfl
@[simp] theorem setCex_inbox (s : State) (c : Cex) : (s.setCex c).inbox = s.inbox := rfl
@[simp] theorem setCex_draws (s : State) (c : Cex) : (s.setCex c).draws = s.draws := rfl

@[simp] theorem setCex_reg (s : State) (c : Cex) (q : Reg) : (s.setCex c).reg q = s.reg q := rfl

/-! ## tick -/

@[simp] theorem tick_regs (s : State) : (s.tick).regs = s.regs := rfl
@[simp] theorem tick_psw (s : State) : (s.tick).psw = s.psw := rfl
@[simp] theorem tick_cex (s : State) : (s.tick).cex = s.cex := rfl
@[simp] theorem tick_mem (s : State) : (s.tick).mem = s.mem := rfl
@[simp] theorem tick_dev (s : State) : (s.tick).dev = s.dev := rfl
@[simp] theorem tick_halted (s : State) : (s.tick).halted = s.halted := rfl
@[simp] theorem tick_stuck (s : State) : (s.tick).stuck = s.stuck := rfl
@[simp] theorem tick_inbox (s : State) : (s.tick).inbox = s.inbox := rfl

@[simp] theorem tick_reg (s : State) (q : Reg) : (s.tick).reg q = s.reg q := rfl

/-! ## clearRequest -/

@[simp] theorem clearRequest_regs (s : State) (d : Nat) : (s.clearRequest d).regs = s.regs := rfl
@[simp] theorem clearRequest_psw (s : State) (d : Nat) : (s.clearRequest d).psw = s.psw := rfl
@[simp] theorem clearRequest_cex (s : State) (d : Nat) : (s.clearRequest d).cex = s.cex := rfl
@[simp] theorem clearRequest_mem (s : State) (d : Nat) : (s.clearRequest d).mem = s.mem := rfl
@[simp] theorem clearRequest_halted (s : State) (d : Nat) : (s.clearRequest d).halted = s.halted := rfl
@[simp] theorem clearRequest_stuck (s : State) (d : Nat) : (s.clearRequest d).stuck = s.stuck := rfl
@[simp] theorem clearRequest_inbox (s : State) (d : Nat) : (s.clearRequest d).inbox = s.inbox := rfl
@[simp] theorem clearRequest_draws (s : State) (d : Nat) : (s.clearRequest d).draws = s.draws := rfl

@[simp] theorem clearRequest_reg (s : State) (d : Nat) (q : Reg) : (s.clearRequest d).reg q = s.reg q := rfl

/-! ## regw -/

@[simp] theorem regw_psw (s : State) (wb : Width) (r : Reg) (v : BitVec wb.bits) : (s.regw wb r v).psw = s.psw := rfl
@[simp] theorem regw_cex (s : State) (wb : Width) (r : Reg) (v : BitVec wb.bits) : (s.regw wb r v).cex = s.cex := rfl
@[simp] theorem regw_mem (s : State) (wb : Width) (r : Reg) (v : BitVec wb.bits) : (s.regw wb r v).mem = s.mem := rfl
@[simp] theorem regw_dev (s : State) (wb : Width) (r : Reg) (v : BitVec wb.bits) : (s.regw wb r v).dev = s.dev := rfl
@[simp] theorem regw_halted (s : State) (wb : Width) (r : Reg) (v : BitVec wb.bits) : (s.regw wb r v).halted = s.halted := rfl
@[simp] theorem regw_stuck (s : State) (wb : Width) (r : Reg) (v : BitVec wb.bits) : (s.regw wb r v).stuck = s.stuck := rfl
@[simp] theorem regw_inbox (s : State) (wb : Width) (r : Reg) (v : BitVec wb.bits) : (s.regw wb r v).inbox = s.inbox := rfl
@[simp] theorem regw_draws (s : State) (wb : Width) (r : Reg) (v : BitVec wb.bits) : (s.regw wb r v).draws = s.draws := rfl

/-! ## setFlags -/

@[simp] theorem setFlags_regs (s : State) (row : FlagMask) (f : Flags) : (s.setFlags row f).regs = s.regs := rfl
@[simp] theorem setFlags_cex (s : State) (row : FlagMask) (f : Flags) : (s.setFlags row f).cex = s.cex := rfl
@[simp] theorem setFlags_mem (s : State) (row : FlagMask) (f : Flags) : (s.setFlags row f).mem = s.mem := rfl
@[simp] theorem setFlags_dev (s : State) (row : FlagMask) (f : Flags) : (s.setFlags row f).dev = s.dev := rfl
@[simp] theorem setFlags_halted (s : State) (row : FlagMask) (f : Flags) : (s.setFlags row f).halted = s.halted := rfl
@[simp] theorem setFlags_stuck (s : State) (row : FlagMask) (f : Flags) : (s.setFlags row f).stuck = s.stuck := rfl
@[simp] theorem setFlags_inbox (s : State) (row : FlagMask) (f : Flags) : (s.setFlags row f).inbox = s.inbox := rfl
@[simp] theorem setFlags_draws (s : State) (row : FlagMask) (f : Flags) : (s.setFlags row f).draws = s.draws := rfl

@[simp] theorem setFlags_reg (s : State) (row : FlagMask) (f : Flags) (q : Reg) : (s.setFlags row f).reg q = s.reg q := rfl

/-! ## The written fields -/

@[simp] theorem setPsw_psw (s : State) (w : Word) : (s.setPsw w).psw = w := rfl

@[simp] theorem setCex_cex (s : State) (c : Cex) : (s.setCex c).cex = c := rfl

@[simp] theorem tick_draws (s : State) : s.tick.draws = s.draws + 1 := rfl

@[simp] theorem setFlags_psw (s : State) (row : FlagMask) (f : Flags) :
    (s.setFlags row f).psw = Psw.writeFlags s.psw row f := rfl

@[simp] theorem clearRequest_irq (s : State) (d : Nat) : (s.clearRequest d).dev.irq = setBit s.dev.irq d false := rfl

/-- A register read after a write of one register. -/
theorem setReg_reg (s : State) (r q : Reg) (v : Word) : (s.setReg r v).reg q = if q = r then v else s.reg q := by
  cases r <;> cases q <;> rfl

@[simp] theorem setReg_reg_same (s : State) (r : Reg) (v : Word) : (s.setReg r v).reg r = v := by
  cases r <;> rfl

@[simp] theorem setReg_reg_ne (s : State) (r q : Reg) (v : Word) (h : q ≠ r) : (s.setReg r v).reg q = s.reg q := by
  rw [setReg_reg, if_neg h]

/-- Writing back what a register holds changes nothing. -/
@[simp] theorem setReg_reg_self (s : State) (r : Reg) : s.setReg r (s.reg r) = s := by
  cases r <;> rfl

@[simp] theorem pc_eq_reg (s : State) : s.pc = s.reg .r7 := rfl

@[simp] theorem sp_eq_reg (s : State) : s.sp = s.reg .r6 := rfl

@[simp] theorem lr_eq_reg (s : State) : s.lr = s.reg .r5 := rfl

/-- A register after a write of either width. -/
theorem regw_reg (s : State) (wb : Width) (r q : Reg) (v : BitVec wb.bits) :
    (s.regw wb r v).reg q = if q = r then mergeLow wb (s.reg r) v else s.reg q := setReg_reg _ _ _ _

@[simp] theorem regw_word (s : State) (r : Reg) (v : Word) : s.regw .word r v = s.setReg r v := rfl

end Sys2Proof.Machine
end

