-- ==== Sys2Proof/Laws/Ops.lean ====
section
/-! SUPPORT. What the shared operations can do: device registers, memory accesses, push and pull, exception entry and return, the interrupt controller. -/

namespace Sys2Proof.Machine

/-! ## Device registers: an access touches only the devices and the draws -/

@[simp] theorem portRead_regs (a : Word) (s : State) : (portRead a s).2.regs = s.regs := by
  unfold portRead readTimerCsr readKeyboardCsr readKeyboardDr readAbsent
  split <;> (try split) <;> rfl

@[simp] theorem portWrite_regs (a : Word) (b : Byte) (s : State) : (portWrite a b s).regs = s.regs := by
  unfold portWrite writeScreenDr
  split <;> (try split) <;> rfl

@[simp] theorem portRead_psw (a : Word) (s : State) : (portRead a s).2.psw = s.psw := by
  unfold portRead readTimerCsr readKeyboardCsr readKeyboardDr readAbsent
  split <;> (try split) <;> rfl

@[simp] theorem portWrite_psw (a : Word) (b : Byte) (s : State) : (portWrite a b s).psw = s.psw := by
  unfold portWrite writeScreenDr
  split <;> (try split) <;> rfl

@[simp] theorem portRead_cex (a : Word) (s : State) : (portRead a s).2.cex = s.cex := by
  unfold portRead readTimerCsr readKeyboardCsr readKeyboardDr readAbsent
  split <;> (try split) <;> rfl

@[simp] theorem portWrite_cex (a : Word) (b : Byte) (s : State) : (portWrite a b s).cex = s.cex := by
  unfold portWrite writeScreenDr
  split <;> (try split) <;> rfl

@[simp] theorem portRead_mem (a : Word) (s : State) : (portRead a s).2.mem = s.mem := by
  unfold portRead readTimerCsr readKeyboardCsr readKeyboardDr readAbsent
  split <;> (try split) <;> rfl

@[simp] theorem portWrite_mem (a : Word) (b : Byte) (s : State) : (portWrite a b s).mem = s.mem := by
  unfold portWrite writeScreenDr
  split <;> (try split) <;> rfl

@[simp] theorem portRead_halted (a : Word) (s : State) : (portRead a s).2.halted = s.halted := by
  unfold portRead readTimerCsr readKeyboardCsr readKeyboardDr readAbsent
  split <;> (try split) <;> rfl

@[simp] theorem portRead_stuck (a : Word) (s : State) : (portRead a s).2.stuck = s.stuck := by
  unfold portRead readTimerCsr readKeyboardCsr readKeyboardDr readAbsent
  split <;> (try split) <;> rfl

@[simp] theorem portWrite_halted (a : Word) (b : Byte) (s : State) : (portWrite a b s).halted = s.halted := by
  unfold portWrite writeScreenDr
  split <;> (try split) <;> rfl

@[simp] theorem portWrite_stuck (a : Word) (b : Byte) (s : State) : (portWrite a b s).stuck = s.stuck := by
  unfold portWrite writeScreenDr
  split <;> (try split) <;> rfl

@[simp] theorem portRead_inbox (a : Word) (s : State) : (portRead a s).2.inbox = s.inbox := by
  unfold portRead readTimerCsr readKeyboardCsr readKeyboardDr readAbsent
  split <;> (try split) <;> rfl

@[simp] theorem portWrite_inbox (a : Word) (b : Byte) (s : State) : (portWrite a b s).inbox = s.inbox := by
  unfold portWrite writeScreenDr
  split <;> (try split) <;> rfl

/-! ## Byte and word accesses -/

@[simp] theorem loadByte_regs (a : Word) (s : State) : (loadByte a s).2.regs = s.regs := by
  unfold loadByte; split <;> simp

@[simp] theorem loadWord_regs (a : Word) (s : State) : (loadWord a s).2.regs = s.regs := by
  simp [loadWord]

@[simp] theorem load_regs (wb : Width) (a : Word) (s : State) : (load wb a s).2.regs = s.regs := by
  cases wb <;> simp [load]

@[simp] theorem loadByte_psw (a : Word) (s : State) : (loadByte a s).2.psw = s.psw := by
  unfold loadByte; split <;> simp

@[simp] theorem loadWord_psw (a : Word) (s : State) : (loadWord a s).2.psw = s.psw := by
  simp [loadWord]

@[simp] theorem load_psw (wb : Width) (a : Word) (s : State) : (load wb a s).2.psw = s.psw := by
  cases wb <;> simp [load]

@[simp] theorem loadByte_cex (a : Word) (s : State) : (loadByte a s).2.cex = s.cex := by
  unfold loadByte; split <;> simp

@[simp] theorem loadWord_cex (a : Word) (s : State) : (loadWord a s).2.cex = s.cex := by
  simp [loadWord]

@[simp] theorem load_cex (wb : Width) (a : Word) (s : State) : (load wb a s).2.cex = s.cex := by
  cases wb <;> simp [load]

@[simp] theorem loadByte_mem (a : Word) (s : State) : (loadByte a s).2.mem = s.mem := by
  unfold loadByte; split <;> simp

@[simp] theorem loadWord_mem (a : Word) (s : State) : (loadWord a s).2.mem = s.mem := by
  simp [loadWord]

@[simp] theorem load_mem (wb : Width) (a : Word) (s : State) : (load wb a s).2.mem = s.mem := by
  cases wb <;> simp [load]

@[simp] theorem loadByte_halted (a : Word) (s : State) : (loadByte a s).2.halted = s.halted := by
  unfold loadByte; split <;> simp

@[simp] theorem loadByte_stuck (a : Word) (s : State) : (loadByte a s).2.stuck = s.stuck := by
  unfold loadByte; split <;> simp

@[simp] theorem loadWord_halted (a : Word) (s : State) : (loadWord a s).2.halted = s.halted := by
  simp [loadWord]

@[simp] theorem loadWord_stuck (a : Word) (s : State) : (loadWord a s).2.stuck = s.stuck := by
  simp [loadWord]

@[simp] theorem load_halted (wb : Width) (a : Word) (s : State) : (load wb a s).2.halted = s.halted := by
  cases wb <;> simp [load]

@[simp] theorem load_stuck (wb : Width) (a : Word) (s : State) : (load wb a s).2.stuck = s.stuck := by
  cases wb <;> simp [load]

@[simp] theorem loadByte_inbox (a : Word) (s : State) : (loadByte a s).2.inbox = s.inbox := by
  unfold loadByte; split <;> simp

@[simp] theorem loadWord_inbox (a : Word) (s : State) : (loadWord a s).2.inbox = s.inbox := by
  simp [loadWord]

@[simp] theorem load_inbox (wb : Width) (a : Word) (s : State) : (load wb a s).2.inbox = s.inbox := by
  cases wb <;> simp [load]

@[simp] theorem storeByte_regs (a : Word) (b : Byte) (s : State) : (storeByte a b s).regs = s.regs := by
  unfold storeByte; split <;> simp

@[simp] theorem storeWord_regs (a v : Word) (s : State) : (storeWord a v s).regs = s.regs := by
  simp [storeWord]

@[simp] theorem store_regs (wb : Width) (a : Word) (v : BitVec wb.bits) (s : State) : (store wb a v s).regs = s.regs := by
  cases wb <;> simp [store]

@[simp] theorem storeByte_psw (a : Word) (b : Byte) (s : State) : (storeByte a b s).psw = s.psw := by
  unfold storeByte; split <;> simp

@[simp] theorem storeWord_psw (a v : Word) (s : State) : (storeWord a v s).psw = s.psw := by
  simp [storeWord]

@[simp] theorem store_psw (wb : Width) (a : Word) (v : BitVec wb.bits) (s : State) : (store wb a v s).psw = s.psw := by
  cases wb <;> simp [store]

@[simp] theorem storeByte_cex (a : Word) (b : Byte) (s : State) : (storeByte a b s).cex = s.cex := by
  unfold storeByte; split <;> simp

@[simp] theorem storeWord_cex (a v : Word) (s : State) : (storeWord a v s).cex = s.cex := by
  simp [storeWord]

@[simp] theorem store_cex (wb : Width) (a : Word) (v : BitVec wb.bits) (s : State) : (store wb a v s).cex = s.cex := by
  cases wb <;> simp [store]

@[simp] theorem storeByte_halted (a : Word) (b : Byte) (s : State) : (storeByte a b s).halted = s.halted := by
  unfold storeByte; split <;> simp

@[simp] theorem storeByte_stuck (a : Word) (b : Byte) (s : State) : (storeByte a b s).stuck = s.stuck := by
  unfold storeByte; split <;> simp

@[simp] theorem storeWord_halted (a v : Word) (s : State) : (storeWord a v s).halted = s.halted := by
  simp [storeWord]

@[simp] theorem storeWord_stuck (a v : Word) (s : State) : (storeWord a v s).stuck = s.stuck := by
  simp [storeWord]

@[simp] theorem store_halted (wb : Width) (a : Word) (v : BitVec wb.bits) (s : State) : (store wb a v s).halted = s.halted := by
  cases wb <;> simp [store]

@[simp] theorem store_stuck (wb : Width) (a : Word) (v : BitVec wb.bits) (s : State) : (store wb a v s).stuck = s.stuck := by
  cases wb <;> simp [store]

@[simp] theorem storeByte_inbox (a : Word) (b : Byte) (s : State) : (storeByte a b s).inbox = s.inbox := by
  unfold storeByte; split <;> simp

@[simp] theorem storeWord_inbox (a v : Word) (s : State) : (storeWord a v s).inbox = s.inbox := by
  simp [storeWord]

@[simp] theorem store_inbox (wb : Width) (a : Word) (v : BitVec wb.bits) (s : State) : (store wb a v s).inbox = s.inbox := by
  cases wb <;> simp [store]

@[simp] theorem portRead_reg (a : Word) (s : State) (r : Reg) : (portRead a s).2.reg r = s.reg r := by
  simp [State.reg]

@[simp] theorem portWrite_reg (a : Word) (b : Byte) (s : State) (r : Reg) : (portWrite a b s).reg r = s.reg r := by
  simp [State.reg]

@[simp] theorem loadByte_reg (a : Word) (s : State) (r : Reg) : (loadByte a s).2.reg r = s.reg r := by
  simp [State.reg]

@[simp] theorem loadWord_reg (a : Word) (s : State) (r : Reg) : (loadWord a s).2.reg r = s.reg r := by
  simp [State.reg]

@[simp] theorem load_reg (wb : Width) (a : Word) (s : State) (r : Reg) : (load wb a s).2.reg r = s.reg r := by
  simp [State.reg]

@[simp] theorem storeByte_reg (a : Word) (b : Byte) (s : State) (r : Reg) : (storeByte a b s).reg r = s.reg r := by
  simp [State.reg]

@[simp] theorem storeWord_reg (a v : Word) (s : State) (r : Reg) : (storeWord a v s).reg r = s.reg r := by
  simp [State.reg]

@[simp] theorem store_reg (wb : Width) (a : Word) (v : BitVec wb.bits) (s : State) (r : Reg) : (store wb a v s).reg r = s.reg r := by
  simp [State.reg]

/-- An address of ordinary memory is no port. -/
theorem isPort_false (a : Word) (h : 16 ≤ a.toNat) : isPort a = false := by
  simp [isPort, h]

/-- A byte load from ordinary memory has no side effect (R73). -/
theorem loadByte_ordinary (a : Word) (s : State) (h : 16 ≤ a.toNat) :
    loadByte a s = (Memory.readByte s.mem a, s) := by
  simp [loadByte, isPort_false a h]

/-- A word of ordinary memory lies wholly in it. -/
theorem wordAddr_ordinary (a : Word) (h : 16 ≤ a.toNat) :
    16 ≤ (wordAddr a).toNat ∧ 16 ≤ (wordAddr a + 1#16).toNat := by
  have h1 := wordAddr_toNat a
  have h2 := wordAddr_succ_toNat a
  omega

/-- A word load from ordinary memory has no side effect (R73). -/
theorem loadWord_ordinary (a : Word) (s : State) (h : 16 ≤ a.toNat) :
    loadWord a s = (Memory.readWord s.mem a, s) := by
  have hw := wordAddr_ordinary a h
  simp [loadWord, loadByte_ordinary _ _ hw.1, loadByte_ordinary _ _ hw.2, Memory.readWord]

/-- A byte store to ordinary memory changes memory only (R73). -/
theorem storeByte_ordinary (a : Word) (b : Byte) (s : State) (h : 16 ≤ a.toNat) :
    storeByte a b s = { s with mem := Memory.writeByte s.mem a b } := by
  simp [storeByte, isPort_false a h]

/-- A word store to ordinary memory changes memory only (R73). -/
theorem storeWord_ordinary (a v : Word) (s : State) (h : 16 ≤ a.toNat) :
    storeWord a v s = { s with mem := Memory.writeWord s.mem a v } := by
  have hw := wordAddr_ordinary a h
  simp [storeWord, storeByte_ordinary _ _ _ hw.1, storeByte_ordinary _ _ _ hw.2, Memory.writeWord]

/-- Memory after any byte store: written, or for a port as it was. -/
theorem storeByte_mem (a : Word) (b : Byte) (s : State) : (storeByte a b s).mem = Memory.writeByte s.mem a b := by
  unfold storeByte
  split
  · rename_i h
    rw [portWrite_mem, writeByte_port _ _ _ (by simpa [isPort] using h)]
  · rfl

/-- Memory after any word store. -/
theorem storeWord_mem (a v : Word) (s : State) : (storeWord a v s).mem = Memory.writeWord s.mem a v := by
  simp [storeWord, storeByte_mem, Memory.writeWord]

/-! ## What an access does does not depend on the registers -/

theorem portRead_setReg (a : Word) (s : State) (r : Reg) (v : Word) :
    portRead a (s.setReg r v) = ((portRead a s).1, (portRead a s).2.setReg r v) := by
  unfold portRead
  split
  · by_cases h : s.dev.timerOf <;> simp only [readTimerCsr, setReg_dev, h, if_true, if_false, Bool.false_eq_true] <;> rfl
  · rfl
  · by_cases h : s.dev.keyboardOf <;>
      simp only [readKeyboardCsr, setReg_dev, h, if_true, if_false, Bool.false_eq_true] <;> rfl
  · rfl
  · rfl
  · rfl
  · rfl

theorem loadByte_setReg (a : Word) (s : State) (r : Reg) (v : Word) :
    loadByte a (s.setReg r v) = ((loadByte a s).1, (loadByte a s).2.setReg r v) := by
  unfold loadByte
  split
  · exact portRead_setReg a s r v
  · rfl

theorem loadWord_setReg (a : Word) (s : State) (r : Reg) (v : Word) :
    loadWord a (s.setReg r v) = ((loadWord a s).1, (loadWord a s).2.setReg r v) := by
  simp [loadWord, loadByte_setReg]

/-- A load gives the same value and does the same to the devices whatever a register holds. -/
theorem load_setReg (wb : Width) (a : Word) (s : State) (r : Reg) (v : Word) :
    load wb a (s.setReg r v) = ((load wb a s).1, (load wb a s).2.setReg r v) := by
  cases wb
  · exact loadWord_setReg a s r v
  · exact loadByte_setReg a s r v

theorem portWrite_setReg (a : Word) (b : Byte) (s : State) (r : Reg) (v : Word) :
    portWrite a b (s.setReg r v) = (portWrite a b s).setReg r v := by
  unfold portWrite
  split
  case h_6 =>
    by_cases h : s.dev.transit.isEmpty <;>
      simp only [writeScreenDr, setReg_dev, h, if_true, if_false, Bool.false_eq_true] <;> rfl
  all_goals rfl

theorem storeByte_setReg (a : Word) (b : Byte) (s : State) (r : Reg) (v : Word) :
    storeByte a b (s.setReg r v) = (storeByte a b s).setReg r v := by
  unfold storeByte
  split
  · exact portWrite_setReg a b s r v
  · rfl

/-- A store does the same whatever a register holds. -/
theorem storeWord_setReg (a w : Word) (s : State) (r : Reg) (v : Word) :
    storeWord a w (s.setReg r v) = (storeWord a w s).setReg r v := by
  simp [storeWord, storeByte_setReg]

/-! ## Every CPU access keeps the canonical form and the absent devices -/

/-- The requests of the absent devices (R357). -/
abbrev absentQuiet (s : State) : Prop := s.dev.irq.extractLsb' 3 5 = 0#5

theorem absentQuiet_iff (s : State) : absentQuiet s ↔ ∀ d, 3 ≤ d → s.dev.irq.getLsbD d = false := by
  constructor
  · intro h d hd
    by_cases h8 : d < 8
    · have := congrArg (fun b : BitVec 5 => b.getLsbD (d - 3)) h
      simpa [show d - 3 < 5 by omega, show 3 + (d - 3) = d by omega] using this
    · exact BitVec.getLsbD_of_ge _ _ (by omega)
  · intro h
    apply BitVec.eq_of_getLsbD_eq
    intro i hi
    simp [h (3 + i) (by omega)]

theorem setBit_false_getLsbD {n : Nat} (w : BitVec n) (i j : Nat) (h : w.getLsbD j = false) :
    (setBit w i false).getLsbD j = false := by
  simp [setBit, h]

theorem clearRequest_absentQuiet (s : State) (d : Nat) (h : absentQuiet s) : absentQuiet (s.clearRequest d) := by
  rw [absentQuiet_iff] at *
  exact fun e he => setBit_false_getLsbD _ _ _ (h e he)

theorem portRead_absentQuiet (a : Word) (s : State) (h : absentQuiet s) : absentQuiet (portRead a s).2 := by
  unfold portRead readTimerCsr readKeyboardCsr readKeyboardDr readAbsent
  split <;> (try split) <;> exact clearRequest_absentQuiet _ _ h

theorem portWrite_absentQuiet (a : Word) (b : Byte) (s : State) (h : absentQuiet s) : absentQuiet (portWrite a b s) := by
  unfold portWrite writeScreenDr
  split <;> (try split) <;> exact clearRequest_absentQuiet _ _ h

theorem loadByte_absentQuiet (a : Word) (s : State) (h : absentQuiet s) : absentQuiet (loadByte a s).2 := by
  unfold loadByte; split
  · exact portRead_absentQuiet a s h
  · exact h

theorem loadWord_absentQuiet (a : Word) (s : State) (h : absentQuiet s) : absentQuiet (loadWord a s).2 :=
  loadByte_absentQuiet _ _ (loadByte_absentQuiet _ _ h)

theorem storeByte_absentQuiet (a : Word) (b : Byte) (s : State) (h : absentQuiet s) : absentQuiet (storeByte a b s) := by
  unfold storeByte; split
  · exact portWrite_absentQuiet a b s h
  · exact h

theorem storeWord_absentQuiet (a v : Word) (s : State) (h : absentQuiet s) : absentQuiet (storeWord a v s) :=
  storeByte_absentQuiet _ _ _ (storeByte_absentQuiet _ _ _ h)

theorem storeByte_wf (a : Word) (b : Byte) (s : State) (h : Memory.wf s.mem) : Memory.wf (storeByte a b s).mem := by
  rw [storeByte_mem]; exact wf_writeByte _ _ _ h

theorem storeWord_wf (a v : Word) (s : State) (h : Memory.wf s.mem) : Memory.wf (storeWord a v s).mem := by
  rw [storeWord_mem]; exact wf_writeWord _ _ _ h

/-! ## The CEX state -/

/-- A settled state is one of R254's. -/
theorem settle_wf (c : Cex) : (Cex.settle c).wf := by
  unfold Cex.settle
  split
  · rename_i h
    simp only [Bool.and_eq_true, Bool.not_eq_true', Bool.and_eq_false_iff, beq_eq_false_iff_ne] at h
    rcases h.2 with h' | h' <;> simp [Cex.wf, h.1, h']
  · simp [Cex.wf, Cex.inactive]

/-- A state of R254's is settled. -/
theorem settle_of_wf (c : Cex) (h : c.wf) : Cex.settle c = c := by
  unfold Cex.settle
  split
  · rfl
  · rename_i hn
    by_cases ha : c.active
    · simp only [Cex.wf, ha, if_true] at h
      simp only [ha, Bool.true_and, Bool.not_eq_true', Bool.and_eq_false_iff, beq_eq_false_iff_ne, not_or,
        not_not] at hn
      rcases h with h | h
      · exact absurd hn.1 h
      · exact absurd hn.2 h
    · simp only [Cex.wf, ha, if_false, Bool.false_eq_true] at h
      exact h.symm

theorem ofByte_wf (b : Byte) : (Cex.ofByte b).wf := settle_wf _

/-- An unpacked word is a CEX state of R254's, whatever the word (R259). -/
theorem cexUnpack_wf (w : Word) : (cexUnpack w).wf := by
  unfold cexUnpack
  simp only
  split <;> exact ofByte_wf _

theorem inactive_wf : Cex.inactive.wf := by simp [Cex.wf, Cex.inactive]

/-! ## Exception entry and return -/

theorem push_psw (v : Word) (s : State) : (push v s).psw = s.psw := by simp [push]

theorem push_cex (v : Word) (s : State) : (push v s).cex = s.cex := by simp [push]

theorem push_halted (v : Word) (s : State) : (push v s).halted = s.halted := by simp [push]

theorem push_stuck (v : Word) (s : State) : (push v s).stuck = s.stuck := by simp [push]

theorem push_inbox (v : Word) (s : State) : (push v s).inbox = s.inbox := by simp [push]

/-- A push moves SP down by 2 and writes no other register (R26). -/
theorem push_reg (v : Word) (s : State) (r : Reg) :
    (push v s).reg r = if r = .r6 then s.reg .r6 - 2#16 else s.reg r := by
  simp [push, setReg_reg]

theorem push_mem (v : Word) (s : State) : (push v s).mem = Memory.writeWord s.mem (s.reg .r6 - 2#16) v := by
  simp [push, storeWord_mem]

/-- The frame of R313: what the four pushes do. -/
theorem pushFrame_spec (pc : Word) (s : State) :
    (pushFrame pc s).psw = s.psw ∧ (pushFrame pc s).cex = s.cex ∧
    (∀ r, (pushFrame pc s).reg r = if r = .r6 then s.reg .r6 - 8#16 else s.reg r) ∧
    (pushFrame pc s).mem =
      Memory.writeWord (Memory.writeWord (Memory.writeWord (Memory.writeWord s.mem (s.reg .r6 - 2#16) pc)
        (s.reg .r6 - 4#16) (s.reg .r5)) (s.reg .r6 - 6#16) s.psw) (s.reg .r6 - 8#16) (cexPack s.cex) := by
  have e4 : s.reg .r6 - 2#16 - 2#16 = s.reg .r6 - 4#16 := by rw [BitVec.sub_sub]; rfl
  have e6 : s.reg .r6 - 4#16 - 2#16 = s.reg .r6 - 6#16 := by rw [BitVec.sub_sub]; rfl
  have e8 : s.reg .r6 - 6#16 - 2#16 = s.reg .r6 - 8#16 := by rw [BitVec.sub_sub]; rfl
  refine ⟨?_, ?_, ?_, ?_⟩
  · simp [pushFrame, push_psw]
  · simp [pushFrame, push_cex]
  · intro r
    by_cases h : r = .r6 <;> simp [pushFrame, push_reg, h, e4, e6, e8]
  · simp [pushFrame, push_mem, push_reg, push_psw, push_cex, e4, e6, e8]

/-- What exception entry does (R312): the vector is read from memory as the pushes left it. -/
theorem enter_spec (n : BitVec 4) (pc : Word) (fault : Bool) (s : State) :
    (enter n pc fault s).psw = handlerPsw (vectorPsw (pushFrame pc s).mem n) s.psw fault ∧
    (enter n pc fault s).mem = (pushFrame pc s).mem ∧
    (enter n pc fault s).cex = Cex.inactive ∧
    (enter n pc fault s).halted = s.halted ∧ (enter n pc fault s).stuck = s.stuck ∧
    (enter n pc fault s).inbox = s.inbox ∧
    (∀ r, (enter n pc fault s).reg r =
      if r = .r7 then vectorEntry (pushFrame pc s).mem n
      else if r = .r6 then s.reg .r6 - 8#16
      else if r = .r5 then 0xFFFF#16
      else s.reg r) := by
  obtain ⟨hp, _, hr, _⟩ := pushFrame_spec pc s
  refine ⟨by simp [enter, hp], rfl, rfl, ?_, ?_, ?_, ?_⟩
  · show (pushFrame pc s).halted = _; simp [pushFrame, push_halted]
  · show (pushFrame pc s).stuck = _; simp [pushFrame, push_stuck]
  · show (pushFrame pc s).inbox = _; simp [pushFrame, push_inbox]
  · intro r
    cases r <;> simp [enter, hr]

/-- What raising a fault does: one of three, and none ends the run (R320, R325, R327). -/
theorem raise_cases (c : FaultCause) (s : State) :
    (Psw.flt s.psw = true ∧ raise c s = { s with halted := true }) ∨
    (Psw.flt s.psw = false ∧ prio s.mem c.vector ≤ Psw.cur s.psw ∧ raise c s = { s with stuck := some c.vector }) ∨
    (Psw.flt s.psw = false ∧ Psw.cur s.psw < prio s.mem c.vector ∧ raise c s = enter c.vector s.pc true s) := by
  unfold raise
  by_cases hf : Psw.flt s.psw
  · exact .inl ⟨hf, by simp [hf, doubleFault, Config.doubleFaultHalts]⟩
  · have hf' : Psw.flt s.psw = false := by simpa using hf
    by_cases hp : prio s.mem c.vector ≤ Psw.cur s.psw
    · exact .inr (.inl ⟨hf', hp, by simp [hf', hp, Config.faultPriorityCheck]⟩)
    · exact .inr (.inr ⟨hf', BitVec.not_le.1 hp, by simp [hf', hp, faultPc, Config.faultSavedPc]⟩)

/-- Under the default of `LDST_UNDEFINED_MODE` an undefined mode is the illegal instruction fault (log 16). -/
@[simp] theorem undefinedMode_eq (s : State) : undefinedMode s = .next (raise .illegalInstruction s) := rfl

theorem pull_psw (s : State) : (pull s).2.psw = s.psw := by simp [pull]

theorem pull_cex (s : State) : (pull s).2.cex = s.cex := by simp [pull]

theorem pull_mem (s : State) : (pull s).2.mem = s.mem := by simp [pull]

theorem pull_halted (s : State) : (pull s).2.halted = s.halted := by simp [pull]

theorem pull_stuck (s : State) : (pull s).2.stuck = s.stuck := by simp [pull]

theorem pull_inbox (s : State) : (pull s).2.inbox = s.inbox := by simp [pull]

/-- A pull moves SP up by 2 and writes no other register (R26). -/
theorem pull_reg (s : State) (r : Reg) : (pull s).2.reg r = if r = .r6 then s.reg .r6 + 2#16 else s.reg r := by
  simp [pull, setReg_reg]

/-- A pull from ordinary memory gives the word at SP and changes SP only. -/
theorem pull_ordinary (s : State) (h : 16 ≤ (s.reg .r6).toNat) :
    pull s = (Memory.readWord s.mem (s.reg .r6), s.setReg .r6 (s.reg .r6 + 2#16)) := by
  simp [pull, loadWord_ordinary _ _ h]

/-- What the pull of a frame does to the registers and memory, wherever the frame stands (R340). -/
theorem pullFrame_spec (s : State) :
    (pullFrame s).mem = s.mem ∧ (pullFrame s).halted = s.halted ∧ (pullFrame s).stuck = s.stuck ∧
    (pullFrame s).inbox = s.inbox ∧
    (pullFrame s).cex.wf ∧ Psw.slp (pullFrame s).psw = false ∧
    (pullFrame s).reg .r6 = s.reg .r6 + 8#16 ∧
    ∀ r, r ≠ .r5 → r ≠ .r6 → r ≠ .r7 → (pullFrame s).reg r = s.reg r := by
  refine ⟨?_, ?_, ?_, ?_, ?_, ?_, ?_, ?_⟩
  · simp [pullFrame, pull_mem]
  · simp [pullFrame, pull_halted]
  · simp [pullFrame, pull_stuck]
  · simp [pullFrame, pull_inbox]
  · simp only [pullFrame, setReg_cex, pull_cex, setPsw_cex, setCex_cex]; exact cexUnpack_wf _
  · simp [pullFrame, pull_psw]
  · simp [pullFrame, pull_reg, BitVec.add_assoc]
  · intro r h5 h6 h7; simp [pullFrame, pull_reg, h5, h6, h7]

/-- What a tail chain does (R341): a new PSW and PC, nothing else. -/
theorem tailChain_spec (d : BitVec 3) (s : State) :
    (tailChain d s).psw = handlerPsw (vectorPsw s.mem (deviceVector d)) s.psw false ∧
    (tailChain d s).mem = s.mem ∧ (tailChain d s).cex = s.cex ∧ (tailChain d s).dev = s.dev ∧
    (tailChain d s).halted = s.halted ∧ (tailChain d s).stuck = s.stuck ∧
    ∀ r, (tailChain d s).reg r = if r = .r7 then vectorEntry s.mem (deviceVector d) else s.reg r := by
  refine ⟨rfl, rfl, rfl, rfl, rfl, rfl, fun r => ?_⟩
  simp [tailChain, setReg_reg]

/-- The end of an exception is a chain or a pull (R340). -/
theorem endOfException_cases (s : State) :
    (∃ d, picAbove (Psw.prev s.psw) s = some d ∧ endOfException s = tailChain d s.tick) ∨
    (picAbove (Psw.prev s.psw) s = none ∧ endOfException s = pullFrame s) := by
  unfold endOfException
  cases h : picAbove (Psw.prev s.psw) s with
  | none => exact .inr ⟨rfl, rfl⟩
  | some d => exact .inl ⟨d, rfl, rfl⟩

/-- The device that is picked has a priority above the bound. -/
theorem picAbove_some (p : BitVec 3) (s : State) (d : BitVec 3) (h : picAbove p s = some d) :
    picSelect s = some d ∧ p < prio s.mem (deviceVector d) := by
  unfold picAbove at h
  split at h
  · split at h
    · rename_i hd hp; cases h; exact ⟨hd, hp⟩
    · cases h
  · cases h

/-! ## One fetched word -/

/-- The count of a fetched word keeps the CEX state one of R254's. -/
theorem consume_wf (c : Cex) (h : c.wf) : c.consume.2.wf := by
  by_cases ha : c.active
  · by_cases ht : c.t = 0#3 <;> simp only [Cex.consume, ha, ht, if_true, if_false] <;> exact settle_wf _
  · simp only [Cex.consume, ha, if_false, Bool.false_eq_true]; exact h

/-- A fetch from ordinary memory reads the word at the PC and moves the PC past it (R27). -/
theorem fetch_ordinary (s : State) (h : 16 ≤ (s.reg .r7).toNat) :
    fetch s = (Memory.readWord s.mem (s.reg .r7), s.setReg .r7 (s.reg .r7 + 2#16)) := by
  simp [fetch, loadWord_ordinary _ _ h]

/-- A fetched word is skipped, or counted and run (R254, R304). -/
theorem gate_cases (w : Word) (s : State) :
    (s.cex.consume.1 = false ∧ gate w s = .next (s.setCex s.cex.consume.2)) ∨
    (s.cex.consume.1 = true ∧ gate w s = runWord w (s.setCex s.cex.consume.2)) := by
  unfold gate
  cases h : s.cex.consume.1
  · exact .inl ⟨rfl, by simp [h]⟩
  · exact .inr ⟨rfl, by simp [h]⟩

end Sys2Proof.Machine
end

