-- ==== Sys2Proof/Laws/PerInstr.lean ====
section
/-! SUPPORT. Statements for all instructions, one lemma per constructor: the word of an instruction has the bits its row of the opcode table fixes (R121). -/

namespace Sys2Proof.Laws

/-- The mask of an instruction's row of the opcode table, in the lenient form of R121. -/
def rowMask : Instr → Word
  | .bl _ => 0xE000#16
  | .beq _ => 0xFC00#16
  | .bne _ => 0xFC00#16
  | .bc _ => 0xFC00#16
  | .bnc _ => 0xFC00#16
  | .bn _ => 0xFC00#16
  | .bge _ => 0xFC00#16
  | .blt _ => 0xFC00#16
  | .bra _ => 0xFC00#16
  | .add _ _ _ => 0xFF00#16
  | .addc _ _ _ => 0xFF00#16
  | .sub _ _ _ => 0xFF00#16
  | .subc _ _ _ => 0xFF00#16
  | .dadd _ _ _ => 0xFF00#16
  | .cmp _ _ _ => 0xFF00#16
  | .xor _ _ _ => 0xFF00#16
  | .and _ _ _ => 0xFF00#16
  | .or _ _ _ => 0xFF00#16
  | .bit _ _ _ => 0xFF00#16
  | .bic _ _ _ => 0xFF00#16
  | .bis _ _ _ => 0xFF00#16
  | .mov _ _ _ => 0xFF80#16
  | .swap _ _ => 0xFF80#16
  | .sra _ _ => 0xFFB8#16
  | .rrc _ _ => 0xFFB8#16
  | .comp _ _ => 0xFFB8#16
  | .swpb _ => 0xFFB8#16
  | .sxt _ => 0xFFB8#16
  | .setpri _ => 0xFFF8#16
  | .svc _ => 0xFFF0#16
  | .setcc _ => 0xFFE0#16
  | .clrcc _ => 0xFFE0#16
  | .cex _ _ _ => 0xFC00#16
  | .ld _ _ _ _ => 0xFC00#16
  | .st _ _ _ _ => 0xFC00#16
  | .movl _ _ => 0xF800#16
  | .movlz _ _ => 0xF800#16
  | .movls _ _ => 0xF800#16
  | .movh _ _ => 0xF800#16
  | .ldr _ _ _ _ => 0xC000#16
  | .str _ _ _ _ => 0xC000#16

/-- The bits under that mask (R121). -/
def rowMatch : Instr → Word
  | .bl _ => 0x0000#16
  | .beq _ => 0x2000#16
  | .bne _ => 0x2400#16
  | .bc _ => 0x2800#16
  | .bnc _ => 0x2C00#16
  | .bn _ => 0x3000#16
  | .bge _ => 0x3400#16
  | .blt _ => 0x3800#16
  | .bra _ => 0x3C00#16
  | .add _ _ _ => 0x4000#16
  | .addc _ _ _ => 0x4100#16
  | .sub _ _ _ => 0x4200#16
  | .subc _ _ _ => 0x4300#16
  | .dadd _ _ _ => 0x4400#16
  | .cmp _ _ _ => 0x4500#16
  | .xor _ _ _ => 0x4600#16
  | .and _ _ _ => 0x4700#16
  | .or _ _ _ => 0x4800#16
  | .bit _ _ _ => 0x4900#16
  | .bic _ _ _ => 0x4A00#16
  | .bis _ _ _ => 0x4B00#16
  | .mov _ _ _ => 0x4C00#16
  | .swap _ _ => 0x4C80#16
  | .sra _ _ => 0x4D00#16
  | .rrc _ _ => 0x4D08#16
  | .comp _ _ => 0x4D10#16
  | .swpb _ => 0x4D18#16
  | .sxt _ => 0x4D20#16
  | .setpri _ => 0x4D80#16
  | .svc _ => 0x4DA0#16
  | .setcc _ => 0x4DC0#16
  | .clrcc _ => 0x4DE0#16
  | .cex _ _ _ => 0x5000#16
  | .ld _ _ _ _ => 0x5800#16
  | .st _ _ _ _ => 0x5C00#16
  | .movl _ _ => 0x6000#16
  | .movlz _ _ => 0x6800#16
  | .movls _ _ => 0x7000#16
  | .movh _ _ => 0x7800#16
  | .ldr _ _ _ _ => 0x8000#16
  | .str _ _ _ _ => 0xC000#16

/-! ## Each format under its mask -/

theorem encodeBranch_fixed (cond : BitVec 3) (off : BitVec 10) :
    encodeBranch cond off &&& (BitVec.allOnes 3 ++ BitVec.allOnes 3 ++ 0#10 : BitVec (3+3+10)) = 0b001#3 ++ cond ++ 0#10 := by
  show ((0b001#3 ++ cond ++ off) &&& (BitVec.allOnes 3 ++ BitVec.allOnes 3 ++ 0#10) : BitVec (3+3+10)) = _
  simp only [BitVec.and_append, BitVec.and_allOnes, BitVec.and_zero]

theorem encodeTwoOperand_fixed (op : BitVec 4) (wb : Width) (src : Source) (d : Reg) :
    encodeTwoOperand op wb src d &&& (BitVec.allOnes 4 ++ BitVec.allOnes 4 ++ 0#1 ++ 0#1 ++ 0#3 ++ 0#3 : BitVec (4+4+1+1+3+3)) = 0x4#4 ++ op ++ 0#1 ++ 0#1 ++ 0#3 ++ 0#3 := by
  show ((0x4#4 ++ op ++ src.toBits.extractLsb' 3 1 ++ wb.toBit ++ src.toBits.extractLsb' 0 3 ++ d.toBits) &&& (BitVec.allOnes 4 ++ BitVec.allOnes 4 ++ 0#1 ++ 0#1 ++ 0#3 ++ 0#3) : BitVec (4+4+1+1+3+3)) = _
  simp only [BitVec.and_append, BitVec.and_allOnes, BitVec.and_zero]

theorem encodeExchange_fixed (sel b6 : BitVec 1) (s d : Reg) :
    encodeExchange sel b6 s d &&& (BitVec.allOnes 8 ++ BitVec.allOnes 1 ++ 0#1 ++ 0#3 ++ 0#3 : BitVec (8+1+1+3+3)) = 0x4C#8 ++ sel ++ 0#1 ++ 0#3 ++ 0#3 := by
  show ((0x4C#8 ++ sel ++ b6 ++ s.toBits ++ d.toBits) &&& (BitVec.allOnes 8 ++ BitVec.allOnes 1 ++ 0#1 ++ 0#3 ++ 0#3) : BitVec (8+1+1+3+3)) = _
  simp only [BitVec.and_append, BitVec.and_allOnes, BitVec.and_zero]

theorem encodeSingleRegister_fixed (b6 : BitVec 1) (sub : BitVec 3) (d : Reg) :
    encodeSingleRegister b6 sub d &&& (BitVec.allOnes 9 ++ 0#1 ++ BitVec.allOnes 3 ++ 0#3 : BitVec (9+1+3+3)) = 0b010011010#9 ++ 0#1 ++ sub ++ 0#3 := by
  show ((0b010011010#9 ++ b6 ++ sub ++ d.toBits) &&& (BitVec.allOnes 9 ++ 0#1 ++ BitVec.allOnes 3 ++ 0#3) : BitVec (9+1+3+3)) = _
  simp only [BitVec.and_append, BitVec.and_allOnes, BitVec.and_zero]

theorem encodeCex_fixed (code : BitVec 4) (t f : BitVec 3) :
    encodeCex code t f &&& (BitVec.allOnes 6 ++ 0#4 ++ 0#3 ++ 0#3 : BitVec (6+4+3+3)) = 0b010100#6 ++ 0#4 ++ 0#3 ++ 0#3 := by
  show ((0b010100#6 ++ code ++ t ++ f) &&& (BitVec.allOnes 6 ++ 0#4 ++ 0#3 ++ 0#3) : BitVec (6+4+3+3)) = _
  simp only [BitVec.and_append, BitVec.and_allOnes, BitVec.and_zero]

theorem encodeLdSt_fixed (op : BitVec 1) (mode : AddrMode) (wb : Width) (s d : Reg) :
    encodeLdSt op mode wb s d &&& (BitVec.allOnes 5 ++ BitVec.allOnes 1 ++ 0#3 ++ 0#1 ++ 0#3 ++ 0#3 : BitVec (5+1+3+1+3+3)) = 0b01011#5 ++ op ++ 0#3 ++ 0#1 ++ 0#3 ++ 0#3 := by
  show ((0b01011#5 ++ op ++ mode.toBits ++ wb.toBit ++ s.toBits ++ d.toBits) &&& (BitVec.allOnes 5 ++ BitVec.allOnes 1 ++ 0#3 ++ 0#1 ++ 0#3 ++ 0#3) : BitVec (5+1+3+1+3+3)) = _
  simp only [BitVec.and_append, BitVec.and_allOnes, BitVec.and_zero]

theorem encodeMovx_fixed (sel : BitVec 2) (b : Byte) (d : Reg) :
    encodeMovx sel b d &&& (BitVec.allOnes 3 ++ BitVec.allOnes 2 ++ 0#8 ++ 0#3 : BitVec (3+2+8+3)) = 0b011#3 ++ sel ++ 0#8 ++ 0#3 := by
  show ((0b011#3 ++ sel ++ b ++ d.toBits) &&& (BitVec.allOnes 3 ++ BitVec.allOnes 2 ++ 0#8 ++ 0#3) : BitVec (3+2+8+3)) = _
  simp only [BitVec.and_append, BitVec.and_allOnes, BitVec.and_zero]

theorem encodeRel_fixed (op : BitVec 1) (off : BitVec 7) (wb : Width) (s d : Reg) :
    encodeRel op off wb s d &&& (BitVec.allOnes 1 ++ BitVec.allOnes 1 ++ 0#7 ++ 0#1 ++ 0#3 ++ 0#3 : BitVec (1+1+7+1+3+3)) = 1#1 ++ op ++ 0#7 ++ 0#1 ++ 0#3 ++ 0#3 := by
  show ((1#1 ++ op ++ off ++ wb.toBit ++ s.toBits ++ d.toBits) &&& (BitVec.allOnes 1 ++ BitVec.allOnes 1 ++ 0#7 ++ 0#1 ++ 0#3 ++ 0#3) : BitVec (1+1+7+1+3+3)) = _
  simp only [BitVec.and_append, BitVec.and_allOnes, BitVec.and_zero]

/-- The word of an instruction has the fixed bits of its row. -/
def EncodeMatchesRow.Statement (i : Instr) : Prop := encode i &&& rowMask i = rowMatch i

theorem EncodeMatchesRow.bl (off : BitVec 13) :
    EncodeMatchesRow.Statement (.bl off) := by
  show ((0b000#3 ++ off) &&& (BitVec.allOnes 3 ++ 0#13) : BitVec (3+13)) = 0b000#3 ++ 0#13
  simp only [BitVec.and_append, BitVec.and_allOnes, BitVec.and_zero]

theorem EncodeMatchesRow.beq (off : BitVec 10) :
    EncodeMatchesRow.Statement (.beq off) :=
  encodeBranch_fixed _ _

theorem EncodeMatchesRow.bne (off : BitVec 10) :
    EncodeMatchesRow.Statement (.bne off) :=
  encodeBranch_fixed _ _

theorem EncodeMatchesRow.bc (off : BitVec 10) :
    EncodeMatchesRow.Statement (.bc off) :=
  encodeBranch_fixed _ _

theorem EncodeMatchesRow.bnc (off : BitVec 10) :
    EncodeMatchesRow.Statement (.bnc off) :=
  encodeBranch_fixed _ _

theorem EncodeMatchesRow.bn (off : BitVec 10) :
    EncodeMatchesRow.Statement (.bn off) :=
  encodeBranch_fixed _ _

theorem EncodeMatchesRow.bge (off : BitVec 10) :
    EncodeMatchesRow.Statement (.bge off) :=
  encodeBranch_fixed _ _

theorem EncodeMatchesRow.blt (off : BitVec 10) :
    EncodeMatchesRow.Statement (.blt off) :=
  encodeBranch_fixed _ _

theorem EncodeMatchesRow.bra (off : BitVec 10) :
    EncodeMatchesRow.Statement (.bra off) :=
  encodeBranch_fixed _ _

theorem EncodeMatchesRow.add (wb : Width) (src : Source) (d : Reg) :
    EncodeMatchesRow.Statement (.add wb src d) :=
  encodeTwoOperand_fixed _ _ _ _

theorem EncodeMatchesRow.addc (wb : Width) (src : Source) (d : Reg) :
    EncodeMatchesRow.Statement (.addc wb src d) :=
  encodeTwoOperand_fixed _ _ _ _

theorem EncodeMatchesRow.sub (wb : Width) (src : Source) (d : Reg) :
    EncodeMatchesRow.Statement (.sub wb src d) :=
  encodeTwoOperand_fixed _ _ _ _

theorem EncodeMatchesRow.subc (wb : Width) (src : Source) (d : Reg) :
    EncodeMatchesRow.Statement (.subc wb src d) :=
  encodeTwoOperand_fixed _ _ _ _

theorem EncodeMatchesRow.dadd (wb : Width) (src : Source) (d : Reg) :
    EncodeMatchesRow.Statement (.dadd wb src d) :=
  encodeTwoOperand_fixed _ _ _ _

theorem EncodeMatchesRow.cmp (wb : Width) (src : Source) (d : Reg) :
    EncodeMatchesRow.Statement (.cmp wb src d) :=
  encodeTwoOperand_fixed _ _ _ _

theorem EncodeMatchesRow.xor (wb : Width) (src : Source) (d : Reg) :
    EncodeMatchesRow.Statement (.xor wb src d) :=
  encodeTwoOperand_fixed _ _ _ _

theorem EncodeMatchesRow.and (wb : Width) (src : Source) (d : Reg) :
    EncodeMatchesRow.Statement (.and wb src d) :=
  encodeTwoOperand_fixed _ _ _ _

theorem EncodeMatchesRow.or (wb : Width) (src : Source) (d : Reg) :
    EncodeMatchesRow.Statement (.or wb src d) :=
  encodeTwoOperand_fixed _ _ _ _

theorem EncodeMatchesRow.bit (wb : Width) (src : Source) (d : Reg) :
    EncodeMatchesRow.Statement (.bit wb src d) :=
  encodeTwoOperand_fixed _ _ _ _

theorem EncodeMatchesRow.bic (wb : Width) (src : Source) (d : Reg) :
    EncodeMatchesRow.Statement (.bic wb src d) :=
  encodeTwoOperand_fixed _ _ _ _

theorem EncodeMatchesRow.bis (wb : Width) (src : Source) (d : Reg) :
    EncodeMatchesRow.Statement (.bis wb src d) :=
  encodeTwoOperand_fixed _ _ _ _

theorem EncodeMatchesRow.mov (wb : Width) (s d : Reg) :
    EncodeMatchesRow.Statement (.mov wb s d) :=
  encodeExchange_fixed _ _ _ _

theorem EncodeMatchesRow.swap (s d : Reg) :
    EncodeMatchesRow.Statement (.swap s d) :=
  encodeExchange_fixed _ _ _ _

theorem EncodeMatchesRow.sra (wb : Width) (d : Reg) :
    EncodeMatchesRow.Statement (.sra wb d) :=
  encodeSingleRegister_fixed _ _ _

theorem EncodeMatchesRow.rrc (wb : Width) (d : Reg) :
    EncodeMatchesRow.Statement (.rrc wb d) :=
  encodeSingleRegister_fixed _ _ _

theorem EncodeMatchesRow.comp (wb : Width) (d : Reg) :
    EncodeMatchesRow.Statement (.comp wb d) :=
  encodeSingleRegister_fixed _ _ _

theorem EncodeMatchesRow.swpb (d : Reg) :
    EncodeMatchesRow.Statement (.swpb d) :=
  encodeSingleRegister_fixed _ _ _

theorem EncodeMatchesRow.sxt (d : Reg) :
    EncodeMatchesRow.Statement (.sxt d) :=
  encodeSingleRegister_fixed _ _ _

theorem EncodeMatchesRow.setpri (pr : BitVec 3) :
    EncodeMatchesRow.Statement (.setpri pr) := by
  unfold EncodeMatchesRow.Statement
  revert pr; decide

theorem EncodeMatchesRow.svc (sa : BitVec 4) :
    EncodeMatchesRow.Statement (.svc sa) := by
  unfold EncodeMatchesRow.Statement
  revert sa; decide

theorem EncodeMatchesRow.setcc (m : BitVec 5) :
    EncodeMatchesRow.Statement (.setcc m) := by
  unfold EncodeMatchesRow.Statement
  revert m; decide

theorem EncodeMatchesRow.clrcc (m : BitVec 5) :
    EncodeMatchesRow.Statement (.clrcc m) := by
  unfold EncodeMatchesRow.Statement
  revert m; decide

theorem EncodeMatchesRow.cex (code : Cond) (t f : BitVec 3) :
    EncodeMatchesRow.Statement (.cex code t f) :=
  encodeCex_fixed _ _ _

theorem EncodeMatchesRow.ld (mode : AddrMode) (wb : Width) (s d : Reg) :
    EncodeMatchesRow.Statement (.ld mode wb s d) :=
  encodeLdSt_fixed _ _ _ _ _

theorem EncodeMatchesRow.st (mode : AddrMode) (wb : Width) (s d : Reg) :
    EncodeMatchesRow.Statement (.st mode wb s d) :=
  encodeLdSt_fixed _ _ _ _ _

theorem EncodeMatchesRow.movl (b : Byte) (d : Reg) :
    EncodeMatchesRow.Statement (.movl b d) :=
  encodeMovx_fixed _ _ _

theorem EncodeMatchesRow.movlz (b : Byte) (d : Reg) :
    EncodeMatchesRow.Statement (.movlz b d) :=
  encodeMovx_fixed _ _ _

theorem EncodeMatchesRow.movls (b : Byte) (d : Reg) :
    EncodeMatchesRow.Statement (.movls b d) :=
  encodeMovx_fixed _ _ _

theorem EncodeMatchesRow.movh (b : Byte) (d : Reg) :
    EncodeMatchesRow.Statement (.movh b d) :=
  encodeMovx_fixed _ _ _

theorem EncodeMatchesRow.ldr (off : BitVec 7) (wb : Width) (s d : Reg) :
    EncodeMatchesRow.Statement (.ldr off wb s d) :=
  encodeRel_fixed _ _ _ _ _

theorem EncodeMatchesRow.str (off : BitVec 7) (wb : Width) (s d : Reg) :
    EncodeMatchesRow.Statement (.str off wb s d) :=
  encodeRel_fixed _ _ _ _ _

end Sys2Proof.Laws
end

