-- ==== Sys2Proof/Laws/Run.lean ====
section
/-! SUPPORT. What one step can be, what an event of the device agent can change, and that a finished run stays finished (R358, R373). -/

namespace Sys2Proof.Machine

/-! ## One step -/

/-- Under the default of `ODD_SP` the CPU's step is R304's (log 17). -/
@[simp] theorem cpuStep_eq (s : State) : cpuStep s = boundary s := rfl

/-- A step is the CPU's after the agent's turn, or for a halted or stuck CPU the agent's turn alone or the report of the failure (R304, R358, R373). -/
theorem step_cases (s : State) :
    (s.live ∧ step s = boundary (agentTurn s)) ∨
    (∃ failure, s.stopReason = some failure ∧
      ((s.inbox = [] ∧ step s = .fault failure) ∨ (s.inbox ≠ [] ∧ step s = .next (agentTurn s)))) := by
  unfold step cycle
  cases h : s.stopReason with
  | none =>
    refine .inl ⟨?_, rfl⟩
    unfold State.stopReason at h
    split at h
    · cases h
    · rename_i hh; exact ⟨by simpa using hh, by simpa using h⟩
  | some failure =>
    refine .inr ⟨failure, rfl, ?_⟩
    cases hi : s.inbox with
    | nil => exact .inl ⟨rfl, by simp⟩
    | cons e es => exact .inr ⟨by simp, by simp⟩

/-- A machine that is neither halted nor stuck has no reason to stop. -/
theorem stopReason_live (s : State) (h : s.live) : s.stopReason = none := by
  simp [State.stopReason, h.1, h.2]

/-! ## One event of the device agent -/

/-- What an event leaves: everything but devices and draws (R358). -/
abbrev sameCpu (s t : State) : Prop :=
  t.regs = s.regs ∧ t.psw = s.psw ∧ t.cex = s.cex ∧ t.mem = s.mem ∧ t.halted = s.halted ∧ t.stuck = s.stuck

theorem deviceEvent_sameCpu (e : DeviceEvent) (s : State) : sameCpu s (deviceEvent e s) := by
  cases e <;> simp only [deviceEvent, timerExpiry, keyArrival, screenDone] <;> split <;> (try split) <;>
    exact ⟨rfl, rfl, rfl, rfl, rfl, rfl⟩

theorem deviceEvents_sameCpu (es : List DeviceEvent) (s : State) : sameCpu s (deviceEvents es s) := by
  induction es generalizing s with
  | nil => exact ⟨rfl, rfl, rfl, rfl, rfl, rfl⟩
  | cons e es ih =>
    obtain ⟨a, b, c, d, f, g⟩ := ih (deviceEvent e s)
    obtain ⟨a', b', c', d', f', g'⟩ := deviceEvent_sameCpu e s
    exact ⟨a.trans a', b.trans b', c.trans c', d.trans d', f.trans f', g.trans g'⟩

theorem agentTurn_sameCpu (s : State) : sameCpu s (agentTurn s) := by
  unfold agentTurn
  split
  · exact ⟨rfl, rfl, rfl, rfl, rfl, rfl⟩
  · exact deviceEvents_sameCpu _ _

/-- A device that cannot interrupt is not pending. -/
theorem pending_of_mayInterrupt (v : Devices) (d : BitVec 3) (h : mayInterrupt v d = false) : pending v d = false := by
  unfold mayInterrupt at h
  exact (Bool.or_eq_false_iff.1 h).1

/-- The four conditions of a control/status byte that no status change moves. -/
theorem csrSetDba_controls (b : Byte) (v : Bool) :
    csrEna (csrSetDba b v) = csrEna b ∧ csrIe (csrSetDba b v) = csrIe b ∧ csrIo (csrSetDba b v) = csrIo b := by
  simp [csrEna, csrIe, csrIo, csrSetDba]

theorem csrSetOf_controls (b : Byte) (v : Bool) :
    csrEna (csrSetOf b v) = csrEna b ∧ csrIe (csrSetOf b v) = csrIe b ∧ csrIo (csrSetOf b v) = csrIo b := by
  simp [csrEna, csrIe, csrIo, csrSetOf]

theorem inputMayRequest_arrived (b : Byte) : inputMayRequest (csrArrived b) = inputMayRequest b := by
  unfold inputMayRequest csrArrived
  obtain ⟨h1, h2, h3⟩ := csrSetDba_controls (if csrDba b then csrSetOf b true else b) true
  rw [h1, h2, h3]
  split
  · obtain ⟨g1, g2, g3⟩ := csrSetOf_controls b true; rw [g1, g2, g3]
  · rfl

theorem inputMayRequest_contrary (b : Byte) (w : Word) : inputMayRequest (csrContrary b w) = inputMayRequest b := by
  unfold inputMayRequest csrContrary
  obtain ⟨h1, h2, h3⟩ := csrSetOf_controls (csrSetDba b (w.getLsbD 0)) (w.getLsbD 1)
  obtain ⟨g1, g2, g3⟩ := csrSetDba_controls b (w.getLsbD 0)
  rw [h1, h2, h3, g1, g2, g3]

/-- Under the default of `IRQ_MODEL` a device is pending by its latch (log 22). -/
theorem pending_latch (v : Devices) (d : BitVec 3) : pending v d = v.irq.getLsbD d.toNat := rfl

/-- A device that no event can bring to a request, and that has none. -/
abbrev quiet (v : Devices) (n : Nat) : Prop := v.irq.getLsbD n = false ∧ eventMayRequest v n = false

theorem mayInterrupt_false_iff (v : Devices) (d : BitVec 3) : mayInterrupt v d = false ↔ quiet v d.toNat := by
  unfold mayInterrupt; rw [pending_latch, Bool.or_eq_false_iff]

/-- A write of another device's request bit. -/
theorem quiet_bit {irq : BitVec 8} {i n : Nat} {b : Bool} (hi : i < 8) (h : irq.getLsbD n = false)
    (hb : n = i → b = false) : (setBit irq i b).getLsbD n = false := by
  rw [getLsbD_setBit _ _ _ _ hi]
  split
  · rename_i e; exact hb e
  · exact h

theorem timerExpiry_quiet (s : State) (n : Nat) (h : quiet s.dev n) : quiet (timerExpiry s).dev n := by
  obtain ⟨hq, hm⟩ := h
  unfold timerExpiry
  simp only
  split
  · rename_i he
    split
    · rename_i hio
      refine ⟨?_, ?_⟩
      · show (if csrIe s.dev.timer.csr then setBit s.dev.irq 0 true else s.dev.irq).getLsbD n = false
        split
        · rename_i hie
          refine quiet_bit (by decide) hq fun e => ?_
          subst e; simp [eventMayRequest, inputMayRequest, he, hie] at hm
        · exact hq
      · rcases n with _ | _ | _ | n
        · exact (inputMayRequest_arrived _).trans hm
        · exact hm
        · exact hm
        · rfl
    · rename_i hio
      refine ⟨quiet_bit (by decide) hq fun e => ?_, ?_⟩
      · subst e; simp [eventMayRequest, inputMayRequest, he, hio] at hm
      · rcases n with _ | _ | _ | n
        · exact (inputMayRequest_contrary _ _).trans hm
        · exact hm
        · exact hm
        · rfl
  · exact ⟨hq, hm⟩

theorem keyArrival_quiet (k : Byte) (s : State) (n : Nat) (h : quiet s.dev n) : quiet (keyArrival k s).dev n := by
  obtain ⟨hq, hm⟩ := h
  unfold keyArrival
  simp only
  split
  · rename_i he
    split
    · rename_i hio
      refine ⟨?_, ?_⟩
      · show (if csrIe s.dev.keyboard.csr then setBit s.dev.irq 1 true else s.dev.irq).getLsbD n = false
        split
        · rename_i hie
          refine quiet_bit (by decide) hq fun e => ?_
          subst e; simp [eventMayRequest, inputMayRequest, he, hie] at hm
        · exact hq
      · rcases n with _ | _ | _ | n
        · exact hm
        · exact (inputMayRequest_arrived _).trans hm
        · exact hm
        · rfl
    · rename_i hio
      refine ⟨quiet_bit (by decide) hq fun e => ?_, ?_⟩
      · subst e; simp [eventMayRequest, inputMayRequest, he, hio] at hm
      · rcases n with _ | _ | _ | n
        · exact hm
        · exact (inputMayRequest_contrary _ _).trans hm
        · exact hm
        · rfl
  · exact ⟨hq, hm⟩

/-- The screen's next completion raises no request where the screen may raise none. -/
theorem screenMayRequest_cons (v : Devices) (x : Transit) (rest : List Transit) (ht : v.transit = x :: rest)
    (h : screenMayRequest v = false) :
    (x.enabled = true ∧ csrEna v.screen.csr = true ∧ csrIo v.screen.csr = false ∧ csrIe v.screen.csr = false) ∧
    ∀ y ∈ rest, y.enabled = true := by
  simp only [screenMayRequest, ht, List.any_cons, Bool.or_eq_false_iff, Bool.and_eq_false_iff, List.any_eq_false] at h
  obtain ⟨hie, hx, hr⟩ := h
  simp only [Bool.not_eq_eq_eq_not, Bool.not_false, Bool.and_eq_true] at hx
  obtain ⟨⟨h1, h2⟩, h3⟩ := hx
  refine ⟨⟨h1, h2, h3, by simpa [h2] using hie⟩, fun y hy => ?_⟩
  have := hr y hy
  simpa [h2, h3] using this

theorem screenDone_quiet (s : State) (n : Nat) (h : quiet s.dev n) : quiet (screenDone s).dev n := by
  obtain ⟨hq, hm⟩ := h
  unfold screenDone
  split
  · exact ⟨hq, hm⟩
  · rename_i x rest ht
    simp only
    split
    · rename_i hx
      refine ⟨?_, ?_⟩
      · show (if csrIe s.dev.screen.csr then setBit s.dev.irq 2 true else s.dev.irq).getLsbD n = false
        split
        · rename_i hie
          refine quiet_bit (by decide) hq fun e => ?_
          subst e
          have := (screenMayRequest_cons _ _ _ ht hm).1.2.2.2
          rw [this] at hie; cases hie
        · exact hq
      · rcases n with _ | _ | _ | n
        · exact hm
        · exact hm
        · obtain ⟨⟨_, h2, h3, h4⟩, hr⟩ := screenMayRequest_cons _ _ _ ht hm
          obtain ⟨g1, g2, g3⟩ := csrSetDba_controls s.dev.screen.csr true
          simp only [eventMayRequest, screenMayRequest, g1, g2, g3, h2, h3, h4, Bool.and_false, Bool.false_or]
          exact List.any_eq_false.2 fun y hy => by simp [hr y hy]
        · rfl
    · rename_i hx
      refine ⟨quiet_bit (by decide) hq fun e => ?_, ?_⟩
      · subst e
        obtain ⟨⟨h1, h2, h3, _⟩, _⟩ := screenMayRequest_cons _ _ _ ht hm
        simp [h1, h2, h3] at hx
      · rcases n with _ | _ | _ | n
        · exact hm
        · exact hm
        · obtain ⟨⟨h1, h2, h3, _⟩, _⟩ := screenMayRequest_cons _ _ _ ht hm
          simp [h1, h2, h3] at hx
        · rfl

/-- The agent's turn brings no quiet device to a request. -/
theorem agentTurn_quiet (s : State) (n : Nat) (h : quiet s.dev n) : quiet (agentTurn s).dev n := by
  have many : ∀ (es : List DeviceEvent) (s : State), quiet s.dev n → quiet (deviceEvents es s).dev n := by
    intro es
    induction es with
    | nil => exact fun s h => h
    | cons e es ih =>
      intro s h
      refine ih _ ?_
      cases e with
      | timerExpiry => exact timerExpiry_quiet s n h
      | keyArrival k => exact keyArrival_quiet k s n h
      | screenDone => exact screenDone_quiet s n h
  unfold agentTurn
  split
  · exact h
  · exact many _ _ h

/-! ## A finished run -/

/-- A device that the controller selects is pending. -/
theorem picSelect_pending (s : State) (d : BitVec 3) (h : picSelect s = some d) : pending s.dev d = true := by
  have mem : d ∈ picCandidates s.mem s.dev := by
    unfold picSelect at h
    unfold choose at h
    split at h
    · cases h
    · rename_i e hc; cases h; rw [hc]; exact List.mem_singleton_self _
    · rename_i hc; rw [hc]; exact List.mem_of_getElem? h
  unfold picCandidates at mem
  exact (List.mem_filter.1 (List.mem_filter.1 mem).1).2

/-- No interrupt is accepted where every pending device's priority is at most CUR (R310). -/
theorem acceptable_none (s : State)
    (h : ∀ d, pending s.dev d = true → prio s.mem (deviceVector d) ≤ Psw.cur s.psw) : acceptable s = none := by
  unfold acceptable
  split
  · rfl
  · cases hp : picAbove (Psw.cur s.psw) s with
    | none => rfl
    | some d =>
      obtain ⟨hs, hlt⟩ := picAbove_some _ _ _ hp
      exact absurd hlt (BitVec.not_lt.2 (h d (picSelect_pending s d hs)))

/-- What the finishing convention asks of a state (R373, log 46). -/
theorem finished_iff (s : State) : s.finished = true ↔
    s.runStatus = .running ∧ Memory.readWord s.mem s.pc = 0x3FFF#16 ∧ 16 ≤ s.pc.toNat ∧ s.pc.getLsbD 0 = false ∧
    s.cex.skipsNothing = true ∧
    ∀ d, mayInterrupt s.dev d = true → prio s.mem (deviceVector d) ≤ Psw.cur s.psw := by
  have all : ∀ d : BitVec 3, d ∈ deviceNumbers := by decide
  simp only [State.finished, Bool.and_eq_true, beq_iff_eq, Bool.not_eq_true', List.all_eq_true, isPort,
    decide_eq_false_iff_not, Nat.not_lt, and_assoc, Bool.or_eq_true, decide_eq_true_eq]
  constructor
  · rintro ⟨a, b, c, d, e, f⟩
    exact ⟨a, b, c, d, e, fun x hx => (f x (all x)).resolve_left (by simp [hx])⟩
  · rintro ⟨a, b, c, d, e, f⟩
    refine ⟨a, b, c, d, e, fun x _ => ?_⟩
    cases hx : mayInterrupt s.dev x
    · exact .inl rfl
    · exact .inr (f x hx)

/-- A word of a block that skips nothing is executed, and the rest of the block skips nothing. -/
theorem consume_skipsNothing (c : Cex) (h : c.skipsNothing = true) (hw : c.wf) :
    c.consume.1 = true ∧ c.consume.2.skipsNothing = true := by
  rcases c with ⟨a, b, t, f⟩
  revert h hw
  revert a b t f
  decide

/-- A finished run loops for ever in the same registers, PSW and memory, whatever the devices do (R373, log 46). -/
theorem finished_stays (s : State) (hw : s.cex.wf) (h : s.finished = true) :
    ∃ t, step s = .next t ∧ t.finished = true ∧ t.cex.wf ∧ t.regs = s.regs ∧ t.psw = s.psw ∧ t.mem = s.mem := by
  obtain ⟨hrun, hword, hord, heven, hskip, hprio⟩ := (finished_iff s).1 h
  have hlive : s.live ∧ Psw.slp s.psw = false := by
    unfold State.runStatus at hrun
    split at hrun
    · cases hrun
    · split at hrun
      · cases hrun
      · split at hrun
        · cases hrun
        · rename_i h1 h2 h3; exact ⟨⟨by simpa using h1, by simpa using h2⟩, by simpa using h3⟩
  obtain ⟨er, ep, ec, em, eh, es⟩ := agentTurn_sameCpu s
  generalize ha : agentTurn s = a at er ep ec em eh es
  have hpc : a.reg .r7 = s.reg .r7 := by simp [State.reg, er]
  have hq : ∀ d, mayInterrupt a.dev d = true → mayInterrupt s.dev d = true := by
    intro d hd
    cases hs : mayInterrupt s.dev d
    · have := agentTurn_quiet s d.toNat ((mayInterrupt_false_iff _ _).1 hs)
      rw [ha] at this
      rw [(mayInterrupt_false_iff _ _).2 this] at hd; cases hd
    · rfl
  have hacc : acceptable a = none := acceptable_none a fun d hd => by
    rw [em, ep]; exact hprio d (hq d (by simp [mayInterrupt, hd]))
  have hne : s.reg .r7 ≠ 0xFFFF#16 := by
    intro e; rw [pc_eq_reg, e] at heven; revert heven; decide
  obtain ⟨hc1, hc2⟩ := consume_skipsNothing s.cex hskip hw
  have hback : a.reg .r7 + 2#16 + (0x3FF#10).signExtend 16 <<< 1 = a.reg .r7 := by
    rw [BitVec.add_assoc, show 2#16 + (0x3FF#10).signExtend 16 <<< 1 = 0#16 by decide, BitVec.add_zero]
  have hstep : step s = .next (a.setCex s.cex.consume.2) := by
    rcases step_cases s with ⟨_, e⟩ | ⟨f, e, _⟩
    · rw [e, ha]
      unfold boundary
      rw [hacc]
      simp only [pc_eq_reg, hpc, ep, hlive.2, hne, Bool.false_eq_true, if_false]
      rw [if_neg (by rw [← pc_eq_reg, heven]; decide)]
      unfold fetchAndRun
      rw [fetch_ordinary a (by rw [hpc]; exact hord), em, hpc, ← pc_eq_reg s, hword]
      rcases gate_cases 0x3FFF#16 (a.setReg .r7 (s.pc + 2#16)) with ⟨g, _⟩ | ⟨_, g⟩
      · rw [setReg_cex, ec, hc1] at g; cases g
      · simp only
        rw [g, setReg_cex, ec]
        show Host.Outcome.next (branchIf true (0x3FF#10) _) = _
        unfold branchIf branchTarget
        simp only [if_true, setFreeFlags_flagsTransfer, pc_eq_reg, setCex_reg, setReg_reg_same]
        rw [← hpc, hback]
        congr 1
    · rw [stopReason_live s hlive.1] at e; cases e
  refine ⟨_, hstep, (finished_iff _).2 ⟨?_, ?_, ?_, ?_, hc2, ?_⟩, consume_wf _ hw, er, ep, em⟩
  · simp only [State.runStatus, setCex_halted, setCex_stuck, setCex_psw, eh, es, ep]; exact hrun
  · simp only [setCex_mem, pc_eq_reg, setCex_reg, em, hpc]; exact hword
  · simp only [pc_eq_reg, setCex_reg, hpc]; exact hord
  · simp only [pc_eq_reg, setCex_reg, hpc]; exact heven
  · intro d hd; rw [setCex_mem, setCex_psw, em, ep]; exact hprio d (hq d hd)

end Sys2Proof.Machine
end

