-- ==== Sys2Proof/Machine/Emulated.lean ====
section
/-! DEFINITION. The 26 emulated instructions of Table 18 and the real instruction each is translated to (R285 to R288). The CPU never sees one: none has an encoding or a meaning of its own. -/

namespace Sys2Proof.Machine

/-- The emulated instructions, in the order of R286. `x` is the register operand. -/
inductive Emulated where
  | adc (wb : Width) (x : Reg)
  | call (off : BitVec 13)
  | clc
  | cln
  | cls
  | clv
  | clz
  /-- The width has no effect: the expansion has no byte form (R287 (b)). -/
  | clr (wb : Width) (x : Reg)
  | dadc (wb : Width) (x : Reg)
  | dec (wb : Width) (x : Reg)
  | decd (wb : Width) (x : Reg)
  | inc (wb : Width) (x : Reg)
  | incd (wb : Width) (x : Reg)
  | jump (x : Reg)
  | nop
  | pull (x : Reg)
  | push (x : Reg)
  | ret
  | rlc (wb : Width) (x : Reg)
  | sbc (wb : Width) (x : Reg)
  | sec
  | sen
  | sev
  | sez
  | sla (wb : Width) (x : Reg)
  | tst (wb : Width) (x : Reg)
  deriving DecidableEq, Repr

/-- The expansion of an emulated instruction: exactly one real one (R285, R286). -/
def Emulated.expand : Emulated → Instr
  | .adc wb x => .addc wb (.con .zero) x
  | .call off => .bl off
  | .clc => .clrcc 0b00001#5
  | .cln => .clrcc 0b00100#5
  | .cls => .clrcc 0b01000#5
  | .clv => .clrcc 0b10000#5
  | .clz => .clrcc 0b00010#5
  | .clr _ x => .movlz 0#8 x
  | .dadc wb x => .dadd wb (.con .zero) x
  | .dec wb x => .sub wb (.con .one) x
  | .decd wb x => .sub wb (.con .two) x
  | .inc wb x => .add wb (.con .one) x
  | .incd wb x => .add wb (.con .two) x
  | .jump x => .mov .word x .r7
  | .nop => .mov .word .r0 .r0
  | .pull x => .ld ⟨false, false, true⟩ .word .r6 x
  | .push x => .st ⟨true, true, false⟩ .word x .r6
  | .ret => .mov .word .r5 .r7
  | .rlc wb x => .addc wb (.reg x) x
  | .sbc wb x => .subc wb (.con .zero) x
  | .sec => .setcc 0b00001#5
  | .sen => .setcc 0b00100#5
  | .sev => .setcc 0b10000#5
  | .sez => .setcc 0b00010#5
  | .sla wb x => .add wb (.reg x) x
  | .tst wb x => .cmp wb (.con .zero) x

/-- The word of an emulated instruction, the encoding column of R286. -/
def Emulated.word (e : Emulated) : Word := encode e.expand

end Sys2Proof.Machine
end

