-- ==== Sys2Proof/Tests/Slice0.lean ====
section
/-! SUPPORT. Small tests: ill-formed terms refused, words of every constructor decoded, one step of every instruction, and for every statement with hypotheses a state that meets them. Expected values are those of 95_test_vectors.md, the section named beside each. -/

namespace Sys2Proof.Tests

open Sys2Proof.Machine

/-! ## WellFormed: the one check, refused for LD and for ST (R126) -/

theorem test_ld_mode_011_ill_formed : (Instr.ld ⟨false, true, true⟩ .word .r0 .r1).wellFormed = false := by decide

theorem test_ld_mode_100_ill_formed : (Instr.ld ⟨true, false, false⟩ .byte .r0 .r1).wellFormed = false := by decide

theorem test_st_mode_111_ill_formed : (Instr.st ⟨true, true, true⟩ .word .r0 .r1).wellFormed = false := by decide

theorem test_ld_pre_decrement_well_formed : (Instr.ld ⟨true, true, false⟩ .word .r6 .r1).wellFormed = true := by decide

/-! ## Decode: a word of every constructor, written bit by bit from its format -/

/-- Formats BL and BR (R102, R103). -/
theorem test_decode_transfer :
    decode 0b0000011111111111#16 = .ok (.bl 0x7FF#13) ∧ decode 0b0010000000000010#16 = .ok (.beq 2#10) ∧
    decode 0b0010011111111100#16 = .ok (.bne 0x3FC#10) ∧ decode 0b0010100000000111#16 = .ok (.bc 7#10) ∧
    decode 0b0010110000000111#16 = .ok (.bnc 7#10) ∧ decode 0b0011000000000111#16 = .ok (.bn 7#10) ∧
    decode 0b0011010000000111#16 = .ok (.bge 7#10) ∧ decode 0b0011100000000111#16 = .ok (.blt 7#10) ∧
    decode 0b0011111111111011#16 = .ok (.bra 0x3FB#10) := by decide

/-- Format ALU (R104): 01 00 oooo, R/C, W/B, S/C, D. -/
theorem test_decode_arithmetic :
    decode 0b0100000001001000#16 = .ok (.add .byte (.reg .r1) .r0) ∧
    decode 0b0100000110000010#16 = .ok (.addc .word (.con .zero) .r2) ∧
    decode 0b0100001010111000#16 = .ok (.sub .word (.con .minusOne) .r0) ∧
    decode 0b0100001101001000#16 = .ok (.subc .byte (.reg .r1) .r0) ∧
    decode 0b0100010010001010#16 = .ok (.dadd .word (.con .one) .r2) ∧
    decode 0b0100010111000010#16 = .ok (.cmp .byte (.con .zero) .r2) := by decide

/-- Format ALU (R104), the logic and bit instructions. -/
theorem test_decode_logic :
    decode 0b0100011000001000#16 = .ok (.xor .word (.reg .r1) .r0) ∧
    decode 0b0100011100010001#16 = .ok (.and .word (.reg .r2) .r1) ∧
    decode 0b0100100010110000#16 = .ok (.or .word (.con .thirtyTwo) .r0) ∧
    decode 0b0100100111100000#16 = .ok (.bit .byte (.con .eight) .r0) ∧
    decode 0b0100101010101000#16 = .ok (.bic .word (.con .sixteen) .r0) ∧
    decode 0b0100101110011000#16 = .ok (.bis .word (.con .four) .r0) := by decide

/-- Formats MOV, SWAP and ONE (R105 to R107), SWAP, SWPB and SXT with the ignored bit set too. -/
theorem test_decode_registers :
    decode 0b0100110001011010#16 = .ok (.mov .byte .r3 .r2) ∧ decode 0b0100110010010011#16 = .ok (.swap .r2 .r3) ∧
    decode 0b0100110011010011#16 = .ok (.swap .r2 .r3) ∧ decode 0b0100110100000000#16 = .ok (.sra .word .r0) ∧
    decode 0b0100110101001000#16 = .ok (.rrc .byte .r0) ∧ decode 0b0100110100010000#16 = .ok (.comp .word .r0) ∧
    decode 0b0100110100011111#16 = .ok (.swpb .r7) ∧ decode 0b0100110101011000#16 = .ok (.swpb .r0) ∧
    decode 0b0100110100100001#16 = .ok (.sxt .r1) ∧ decode 0b0100110101100000#16 = .ok (.sxt .r0) := by decide

/-- Formats PSW and CEX (R108, R109). -/
theorem test_decode_psw_cex :
    decode 0b0100110110000011#16 = .ok (.setpri 3#3) ∧ decode 0b0100110110100100#16 = .ok (.svc 4#4) ∧
    decode 0b0100110111001000#16 = .ok (.setcc 0b01000#5) ∧ decode 0b0100110111111010#16 = .ok (.clrcc 0b11010#5) ∧
    decode 0b0101001010001001#16 = .ok (.cex .ge 1#3 1#3) := by decide

/-- Formats LDST, MOVx and REL (R110, R111, R113). -/
theorem test_decode_memory :
    decode 0b0101100011001010#16 = .ok (.ld ⟨false, false, true⟩ .byte .r1 .r2) ∧
    decode 0b0101111100010110#16 = .ok (.st ⟨true, true, false⟩ .word .r2 .r6) ∧
    decode 0b0110001000001011#16 = .ok (.movl 0x41#8 .r3) ∧ decode 0b0110100000000011#16 = .ok (.movlz 0#8 .r3) ∧
    decode 0b0111011111111100#16 = .ok (.movls 0xFF#8 .r4) ∧ decode 0b0111100100000000#16 = .ok (.movh 0x20#8 .r0) ∧
    decode 0b1011111100001000#16 = .ok (.ldr 0x7E#7 .word .r1 .r0) ∧
    decode 0b1100000011001000#16 = .ok (.str 1#7 .byte .r1 .r0) := by decide

/-- Words of no instruction, by the name of their range (R125, R126). -/
theorem test_decode_refuses :
    decode 0x4D28#16 = .error .unassignedSingleRegister ∧ decode 0x4D90#16 = .error .setpriReservedBit ∧
    decode 0x4DB0#16 = .error .svcReservedBit ∧ decode 0x4E00#16 = .error .unassignedOpcodeByte ∧
    decode 0x5400#16 = .error .unassignedBesideCex ∧ decode 0x5A00#16 = .error .undefinedAddressingMode := by decide

/-- A word lies in memory with its low byte first (R63). -/
theorem test_decode_bytes_low_first : decodeBytes [0x48#8, 0x40#8, 0x99#8] = .ok (.add .byte (.reg .r1) .r0, [0x99#8]) := by
  decide

theorem test_decode_table_word : decodeTableWord 16 0x5F2E = some (.st ⟨true, true, false⟩ .word .r5 .r6) := by decide

/-! ## One step of every instruction -/

/-- A state with one instruction at #1000, R0 and R1, a stack pointer and a PSW. -/
def start (w r0 r1 sp psw : Word) : State :=
  placeWord 0x1000#16 w
    { State.reset with
      psw := psw
      regs := { State.reset.regs with r0 := r0, r1 := r1, r5 := 0x1234#16, r6 := sp, r7 := 0x1000#16 } }

/-- The step answers a next state of which `p` holds. -/
def steps (s : State) (p : State → Bool) : Bool :=
  match step s with
  | .next t => p t
  | .fault _ => false
  | .refused _ => false

/-- The step reports this failure. -/
def failsWith (s : State) (f : Fault) : Bool :=
  match step s with
  | .next _ => false
  | .fault g => g == f
  | .refused _ => false

/-- R0 and the PSW after a step. -/
def ends (w r0 r1 psw : Word) (r0' psw' : Word) : Bool :=
  steps (start w r0 r1 0x0800#16 psw) (fun t => t.reg .r0 == r0' && t.psw == psw')

/-- R7 and the PSW after a step. -/
def goes (w psw pc' : Word) : Bool :=
  steps (start w 0#16 0x2000#16 0x0800#16 psw) (fun t => t.pc == pc' && t.psw == psw)

/-- 95_test_vectors.md 2.1. -/
theorem test_movl : ends 0x6090#16 0xABCD#16 0x0000#16 0x60E0#16 0xAB12#16 0x60E0#16 = true := by decide

/-- 95_test_vectors.md 2.1. -/
theorem test_movlz : ends 0x6890#16 0xABCD#16 0x0000#16 0x60E0#16 0x0012#16 0x60E0#16 = true := by decide

/-- 95_test_vectors.md 2.1. -/
theorem test_movls : ends 0x7090#16 0xABCD#16 0x0000#16 0x60E0#16 0xFF12#16 0x60E0#16 = true := by decide

/-- 95_test_vectors.md 2.1. -/
theorem test_movh : ends 0x7890#16 0xABCD#16 0x0000#16 0x60E0#16 0x12CD#16 0x60E0#16 = true := by decide

/-- 95_test_vectors.md 2.3. -/
theorem test_add_word_overflow : ends 0x4008#16 0x7FFF#16 0x0001#16 0x60E0#16 0x8000#16 0x60F4#16 = true := by decide

/-- 95_test_vectors.md 2.3. -/
theorem test_add_byte_carry : ends 0x4048#16 0x12FF#16 0xAB01#16 0x60E0#16 0x1200#16 0x60E3#16 = true := by decide

/-- 95_test_vectors.md 2.3. -/
theorem test_addc_carry_in : ends 0x4108#16 0x0000#16 0x7FFF#16 0x60E1#16 0x8000#16 0x60F4#16 = true := by decide

/-- 95_test_vectors.md 2.3. -/
theorem test_sub_overflow : ends 0x4208#16 0x8000#16 0x0001#16 0x60E0#16 0x7FFF#16 0x60F1#16 = true := by decide

/-- 95_test_vectors.md 2.3. -/
theorem test_sub_byte_borrow : ends 0x4248#16 0x1200#16 0x0001#16 0x60E0#16 0x12FF#16 0x60E4#16 = true := by decide

/-- 95_test_vectors.md 2.3. -/
theorem test_subc_borrow_in : ends 0x4308#16 0x0005#16 0x0001#16 0x60E0#16 0x0003#16 0x60E1#16 = true := by decide

/-- 95_test_vectors.md 2.3. -/
theorem test_cmp_keeps_register : ends 0x4508#16 0x8000#16 0x0001#16 0x60E0#16 0x8000#16 0x60F1#16 = true := by decide

/-- 95_test_vectors.md 2.4. -/
theorem test_dadd_word_carry : ends 0x4408#16 0x9999#16 0x0001#16 0x60E0#16 0x0000#16 0x60E3#16 = true := by decide

/-- 95_test_vectors.md 2.4. -/
theorem test_dadd_byte_keeps_high_byte : ends 0x4448#16 0x1255#16 0x0045#16 0x60E0#16 0x1200#16 0x60E3#16 = true := by decide

/-- 95_test_vectors.md 2.5. -/
theorem test_xor_keeps_v_c : ends 0x4608#16 0x00FF#16 0xFFFF#16 0x60F1#16 0xFF00#16 0x60F5#16 = true := by decide

/-- 95_test_vectors.md 2.5. -/
theorem test_and_byte : ends 0x4748#16 0xFFFF#16 0x0080#16 0x60E0#16 0xFF80#16 0x60E4#16 = true := by decide

/-- 95_test_vectors.md 2.5. -/
theorem test_or_byte : ends 0x4848#16 0x1201#16 0xFF80#16 0x60E0#16 0x1281#16 0x60E4#16 = true := by decide

/-- 95_test_vectors.md 2.5. -/
theorem test_bit_number_beyond_width : ends 0x49E0#16 0xFFFF#16 0x0000#16 0x60E0#16 0xFFFF#16 0x60E2#16 = true := by decide

/-- 95_test_vectors.md 2.5. -/
theorem test_bic_top_bit : ends 0x4A08#16 0xFFFF#16 0x000F#16 0x60E0#16 0x7FFF#16 0x60E0#16 = true := by decide

/-- 95_test_vectors.md 2.5. -/
theorem test_bis_byte : ends 0x4B48#16 0x1200#16 0x0007#16 0x60E0#16 0x1280#16 0x60E4#16 = true := by decide

/-- 95_test_vectors.md 2.6. -/
theorem test_mov_byte : ends 0x4C48#16 0xABCD#16 0x1234#16 0x60E0#16 0xAB34#16 0x60E0#16 = true := by decide

/-- 95_test_vectors.md 2.7. -/
theorem test_sra_byte : ends 0x4D40#16 0x1281#16 0x0000#16 0x60E0#16 0x12C0#16 0x60E5#16 = true := by decide

/-- 95_test_vectors.md 2.7. -/
theorem test_rrc_carry_in : ends 0x4D08#16 0x8001#16 0x0000#16 0x60E1#16 0xC000#16 0x60E5#16 = true := by decide

/-- 95_test_vectors.md 2.7. -/
theorem test_comp_byte : ends 0x4D50#16 0x12FF#16 0x0000#16 0x60E0#16 0x1200#16 0x60E2#16 = true := by decide

/-- 95_test_vectors.md 2.7. -/
theorem test_swpb : ends 0x4D18#16 0x1234#16 0x0000#16 0x60F7#16 0x3412#16 0x60F1#16 = true := by decide

/-- 95_test_vectors.md 2.7. -/
theorem test_sxt : ends 0x4D20#16 0x1280#16 0x0000#16 0x60E0#16 0xFF80#16 0x60E4#16 = true := by decide

/-- 95_test_vectors.md 2.10. -/
theorem test_setcc_no_sleep_at_7 : ends 0x4DDF#16 0x0000#16 0x0000#16 0x60E0#16 0x0000#16 0x60F7#16 = true := by decide

/-- 95_test_vectors.md 2.10. -/
theorem test_setcc_sleep : ends 0x4DC8#16 0x0000#16 0x0000#16 0x00C0#16 0x0000#16 0x00C8#16 = true := by decide

/-- 95_test_vectors.md 2.10. -/
theorem test_clrcc : ends 0x4DFA#16 0x0000#16 0x0000#16 0x60F7#16 0x0000#16 0x60E5#16 = true := by decide

/-- 95_test_vectors.md 2.10. -/
theorem test_setpri_lowers : ends 0x4D83#16 0x0000#16 0x0000#16 0x60E0#16 0x0000#16 0x6060#16 = true := by decide

/-- 95_test_vectors.md 2.8. -/
theorem test_bl_backward : goes 0x1FFF#16 0x60E0#16 0x1000#16 = true := by decide

/-- 95_test_vectors.md 2.8. -/
theorem test_beq_taken : goes 0x2007#16 0x60E2#16 0x1010#16 = true := by decide

/-- 95_test_vectors.md 2.8. -/
theorem test_bne_not_taken : goes 0x2407#16 0x60E2#16 0x1002#16 = true := by decide

/-- 95_test_vectors.md 2.8. -/
theorem test_bc_taken : goes 0x2807#16 0x60E1#16 0x1010#16 = true := by decide

/-- 95_test_vectors.md 2.8. -/
theorem test_bnc_taken : goes 0x2C07#16 0x60E0#16 0x1010#16 = true := by decide

/-- 95_test_vectors.md 2.8. -/
theorem test_bn_not_taken : goes 0x3007#16 0x60E0#16 0x1002#16 = true := by decide

/-- 95_test_vectors.md 2.8. -/
theorem test_bge_taken_n_v : goes 0x3407#16 0x60F4#16 0x1010#16 = true := by decide

/-- 95_test_vectors.md 2.8. -/
theorem test_blt_taken_v : goes 0x3807#16 0x60F0#16 0x1010#16 = true := by decide

/-- 95_test_vectors.md 2.8. -/
theorem test_bra_backward : goes 0x3E00#16 0x60E0#16 0x0C02#16 = true := by decide

/-- 95_test_vectors.md 2.6, `SWAP LR,PC`. -/
theorem test_swap_lr_pc :
    steps (start 0x4CAF#16 0#16 0#16 0x0800#16 0x60E0#16) (fun t => t.lr == 0x1002#16 && t.pc == 0x1234#16) = true := by
  decide

/-- A state with the words #1234 and #5678 at #2000 and #2002 (95_test_vectors.md 2.2). -/
def startMem (w r0 r1 : Word) : State :=
  placeWord 0x2000#16 0x1234#16 (placeWord 0x2002#16 0x5678#16 (start w r0 r1 0x0800#16 0x60E0#16))

/-- 95_test_vectors.md 2.2: a byte load at an odd address keeps the high byte. -/
theorem test_ld_byte_odd :
    steps (startMem 0x5848#16 0xFFFF#16 0x2001#16) (fun t => t.reg .r0 == 0xFF12#16 && t.reg .r1 == 0x2001#16) = true := by
  decide

/-- 95_test_vectors.md 2.2: `LD R0+,R0` steps the loaded value. -/
theorem test_ld_same_register_post :
    steps (startMem 0x5880#16 0x2000#16 0#16) (fun t => t.reg .r0 == 0x1236#16) = true := by decide

/-- 95_test_vectors.md 2.2: `ST R0,-R1`. -/
theorem test_st_pre_decrement :
    steps (startMem 0x5F01#16 0xABCD#16 0x3000#16)
      (fun t => t.reg .r1 == 0x2FFE#16 && Memory.readByte t.mem 0x2FFE#16 == 0xCD#8 && Memory.readByte t.mem 0x2FFF#16 == 0xAB#8) = true := by
  decide

/-- 95_test_vectors.md 2.2: `ST R6,-R6` stores the stepped value. -/
theorem test_st_same_register_pre :
    steps (startMem 0x5F36#16 0#16 0#16) (fun t => Memory.readWord t.mem 0x07FE#16 == 0x07FE#16) = true := by decide

/-- 95_test_vectors.md 2.2: `LDR R1,$-2,R0`. -/
theorem test_ldr_negative_offset :
    steps (startMem 0xBF08#16 0#16 0x2004#16) (fun t => t.reg .r0 == 0x5678#16) = true := by decide

/-- 95_test_vectors.md 2.2: `STR R0,R1,$-63` at an odd address. -/
theorem test_str_odd_address :
    steps (startMem 0xE081#16 0xABCD#16 0x3040#16) (fun t => Memory.readWord t.mem 0x3000#16 == 0xABCD#16) = true := by
  decide

/-- 46_conditional_execution.md R252: `CEX EQ,$2,$1` with Z = 1. -/
theorem test_cex_latches :
    steps (start 0x5011#16 0#16 0#16 0x0800#16 0x60E2#16) (fun t => t.cex == ⟨true, true, 2#3, 1#3⟩) = true := by decide

/-- 46_conditional_execution.md R254: a skipped word is not decoded, whatever its bits. -/
theorem test_skipped_illegal_word :
    steps { start 0x5400#16 0#16 0#16 0x0800#16 0x60E0#16 with cex := ⟨true, false, 1#3, 1#3⟩ }
      (fun t => t.pc == 0x1002#16 && t.cex == ⟨true, false, 0#3, 1#3⟩) = true := by decide

/-! ## Exceptions. SP is #0010, so that the frame goes to the absent devices and no open value is read. -/

/-- A start with a vector's two words. -/
def startVector (w psw va vpsw ventry : Word) : State :=
  placeWord va vpsw (placeWord (va + 2#16) ventry (start w 0#16 0#16 0x0010#16 psw))

/-- 95_test_vectors.md 2.10: `SVC #4` through a vector word with SLP and the reserved bits set. -/
theorem test_svc_traps :
    steps (startVector 0x4DA4#16 0x0065#16 0xFFD0#16 0x1EAF#16 0x2000#16)
      (fun t => t.psw == 0x7EA7#16 && t.pc == 0x2000#16 && t.lr == 0xFFFF#16 && t.sp == 0x0008#16) = true := by decide

/-- 95_test_vectors.md 2.10: `SETPRI 5` at priority 3. -/
theorem test_setpri_priority_fault :
    steps (startVector 0x4D85#16 0x0060#16 0xFFE8#16 0x00E0#16 0x3000#16)
      (fun t => t.psw == 0x61E0#16 && t.pc == 0x3000#16) = true := by decide

/-- 95_test_vectors.md 2.11: an illegal word at priority 3. -/
theorem test_illegal_word_faults :
    steps (startVector 0x4E00#16 0x0060#16 0xFFE0#16 0x00E0#16 0x3000#16)
      (fun t => t.psw == 0x61E0#16 && t.pc == 0x3000#16) = true := by decide

/-- 95_test_vectors.md 2.11: an illegal word with FLT set halts, and no step follows. -/
theorem test_double_fault_halts :
    steps (start 0x4E00#16 0#16 0#16 0x0800#16 0x0160#16)
      (fun t => t.halted && t.psw == 0x0160#16 && t.sp == 0x0800#16 && t.runStatus == .halted && failsWith t .halted) = true := by decide

/-- 95_test_vectors.md 2.10: `SETPRI 7` at priority 7 is stuck. -/
theorem test_fault_at_priority_7_stuck :
    steps (start 0x4D87#16 0#16 0#16 0x0800#16 0x60E0#16)
      (fun t => t.runStatus == .stuck && t.psw == 0x60E0#16 && failsWith t (.faultNotDeliverable 10#4)) = true := by
  decide

/-- A stuck CPU with a byte in transit and one turn of the agent to come. -/
def stuckSending : State :=
  { start 0x4D87#16 0#16 0#16 0x0800#16 0x60E0#16 with
    stuck := some 10#4
    dev := { State.reset.dev with screen := ⟨0x10#8, 0x41#8⟩, transit := [⟨0x41#8, true⟩] }
    inbox := [[.screenDone]] }

/-- 60_exceptions.md R358: the agent acts "while the CPU sleeps or is stuck". -/
theorem test_agent_completes_byte_while_stuck :
    steps stuckSending (fun t => t.dev.console == [0x41#8] && t.runStatus == .stuck && t.pc == 0x1000#16) = true := by
  decide

/-- 60_exceptions.md R373: `BRA` to itself at priority 7 finishes; halted, asleep or where the word is skipped it does not. -/
theorem test_finished :
    let s := start 0x3FFF#16 0#16 0#16 0x0800#16 0x60E0#16
    s.finished = true ∧ { s with halted := true }.finished = false ∧ (s.setPsw 0x60C8#16).finished = false ∧
    (s.setCex ⟨true, true, 1#3, 1#3⟩).finished = false := by decide

/-- 60_exceptions.md R340: PC = #FFFF pulls the frame; the pulled PSW loses SLP. The frame's CEX word is not looked at. -/
theorem test_return_pulls :
    let s := placeWord 0x07FA#16 0x6068#16 (placeWord 0x07FE#16 0x1012#16 (start 0#16 0#16 0#16 0x07F8#16 0x60A0#16))
    steps (s.setReg .r7 0xFFFF#16) (fun t => t.psw == 0x6060#16 && t.pc == 0x1012#16 && t.sp == 0x0800#16) = true := by decide

/-! ## Devices (95_test_vectors.md 2.12) -/

/-- The timer's CSR and the other devices as after reset. -/
def timerAt (csr : Byte) (irq : BitVec 8) : State :=
  { State.reset with dev := { State.reset.dev with timer := ⟨csr, 1#8⟩, irq := irq } }

theorem test_timer_expiry : (timerExpiry (timerAt 0x13#8 0#8)).dev.timer.csr = 0x17#8 ∧
    (timerExpiry (timerAt 0x13#8 0#8)).dev.irq = 1#8 ∧
    (timerExpiry (timerAt 0x17#8 1#8)).dev.timer.csr = 0x1F#8 := by decide

theorem test_timer_word_read : (loadWord 0#16 (timerAt 0x17#8 1#8)).1 = 0x0117#16 ∧
    (loadWord 0#16 (timerAt 0x17#8 1#8)).2.dev.timer.csr = 0x13#8 := by decide

theorem test_csr_write_keeps_status : (storeByte 0#16 0xFF#8 (timerAt 0x17#8 1#8)).dev.timer.csr = 0xF7#8 ∧
    (storeByte 0#16 0x00#8 (timerAt 0x17#8 1#8)).dev.timer.csr = 0x04#8 := by decide

/-! ## Witnesses: states that meet the hypotheses of the statements -/

/-- An awake state at priority 3 with nothing pending and `ADD R1,R0` at the PC. -/
def running : State := start 0x4008#16 7#16 2#16 0x0800#16 0x0060#16

/-! ## Emulated instructions: the encoding column of R286 and the examples of R288 and R289 -/

/-- The words of emulated instructions, each of one real instruction. -/
theorem test_emulated_words :
    (Emulated.adc .byte .r3).word = 0x41C3#16 ∧ Emulated.clc.word = 0x4DE1#16 ∧ Emulated.cln.word = 0x4DE4#16 ∧ Emulated.cls.word = 0x4DE8#16 ∧
    Emulated.clv.word = 0x4DF0#16 ∧ Emulated.clz.word = 0x4DE2#16 ∧ (Emulated.clr .byte .r2).word = 0x6802#16 ∧ (Emulated.dadc .word .r1).word = 0x4481#16 ∧
    (Emulated.dec .word .r1).word = 0x4289#16 ∧ (Emulated.decd .byte .r1).word = 0x42D1#16 ∧ (Emulated.inc .byte .r3).word = 0x40CB#16 ∧
    (Emulated.incd .word .r2).word = 0x4092#16 ∧ (Emulated.jump .r3).word = 0x4C1F#16 ∧ Emulated.nop.word = 0x4C00#16 ∧
    (Emulated.pull .r7).word = 0x58B7#16 ∧ (Emulated.push .r5).word = 0x5F2E#16 ∧ Emulated.ret.word = 0x4C2F#16 ∧
    (Emulated.rlc .word .r2).word = 0x4112#16 ∧ (Emulated.sbc .word .r1).word = 0x4381#16 ∧ Emulated.sec.word = 0x4DC1#16 ∧ Emulated.sen.word = 0x4DC4#16 ∧
    Emulated.sev.word = 0x4DD0#16 ∧ Emulated.sez.word = 0x4DC2#16 ∧ (Emulated.sla .byte .r0).word = 0x4040#16 ∧ (Emulated.tst .word .r2).word = 0x4582#16 ∧
    (Emulated.call 5#13).word = 0x0005#16 := by decide

theorem witness_DecodeEncodeRoundTrip : (Instr.st ⟨true, true, false⟩ .word .r5 .r6).wellFormed = true := by decide

theorem witness_DecodedWordReencodes :
    decode 0x40F8#16 = .ok (.add .byte (.con .minusOne) .r0) ∧ decode 0x4CD3#16 = .ok (.swap .r2 .r3) := by decide

theorem witness_StepRunsDecodedInstruction :
    running.live ∧ acceptable (agentTurn running) = none ∧ Psw.slp (agentTurn running).psw = false ∧
    (agentTurn running).pc ≠ 0xFFFF#16 ∧ (agentTurn running).pc.getLsbD 0 = false ∧
    (agentTurn running).cex.consume = (true, Cex.inactive) ∧
    decode (fetch (agentTurn running)).1 = .ok (.add .word (.reg .r1) .r0) ∧ ordinary (agentTurn running).pc := by decide

/-- The last counted word of a block, at the top of memory. -/
def skipping : State := { running.setReg .r7 0xFFFE#16 with cex := ⟨true, false, 1#3, 0#3⟩ }

theorem witness_StepSkipsCountedWord :
    skipping.live ∧ acceptable (agentTurn skipping) = none ∧ Psw.slp (agentTurn skipping).psw = false ∧
    (agentTurn skipping).pc ≠ 0xFFFF#16 ∧ (agentTurn skipping).pc.getLsbD 0 = false ∧
    ordinary (agentTurn skipping).pc ∧ (agentTurn skipping).cex.consume = (false, Cex.inactive) := by decide

theorem witness_StepRaisesFetchFaults_odd :
    let s := running.setReg .r7 0xFFFD#16
    s.live ∧ acceptable (agentTurn s) = none ∧ Psw.slp (agentTurn s).psw = false ∧
    (agentTurn s).pc ≠ 0xFFFF#16 ∧ (agentTurn s).pc.getLsbD 0 = true := by decide

theorem witness_StepRaisesFetchFaults_illegal :
    let s := start 0x57FF#16 0#16 0#16 0x0800#16 0x0060#16
    s.live ∧ acceptable (agentTurn s) = none ∧ Psw.slp (agentTurn s).psw = false ∧
    (agentTurn s).pc ≠ 0xFFFF#16 ∧ (agentTurn s).pc.getLsbD 0 = false ∧
    (agentTurn s).cex.consume = (true, Cex.inactive) ∧
    decode (fetch (agentTurn s)).1 = .error .unassignedBesideCex := by decide

theorem witness_SleepAndHalt :
    (let s := running.setPsw 0x0068#16
     s.live ∧ acceptable (agentTurn s) = none ∧ Psw.slp (agentTurn s).psw = true) ∧
    (¬ stuckSending.live ∧ stuckSending.inbox ≠ []) ∧
    ((doubleFault .priority running).halted = true ∧ (doubleFault .priority running).inbox = []) ∧
    ({ running with stuck := some 8#4 }.halted = false ∧ { running with stuck := some 8#4 }.inbox = []) := by decide

/-- Priority 4, the timer about to expire with IE set, and its vector at priority 5: one above. -/
def interrupted : State :=
  { placeWord 0xFFC0#16 0x00A0#16 (start 0x4008#16 0#16 0#16 0x0800#16 0x0080#16) with
    dev := { State.reset.dev with timer := ⟨0x13#8, 1#8⟩ }
    inbox := [[.timerExpiry]] }

theorem witness_StepTakesInterrupt : interrupted.live ∧ acceptable (agentTurn interrupted) = some 0#3 := by decide

theorem witness_StepEndsException :
    let s := running.setReg .r7 0xFFFF#16
    s.live ∧ (agentTurn s).pc = 0xFFFF#16 ∧ Psw.slp (agentTurn s).psw = false := by decide

theorem witness_InterruptAcceptedExactly :
    (∃ d, acceptable (agentTurn interrupted) = some d) ∧ acceptable running = none := ⟨⟨0#3, by decide⟩, by decide⟩

theorem witness_PicSelectsMaximum : picSelect (agentTurn interrupted) = some 0#3 ∧ picSelect running = none := by decide

/-- A frame in ordinary memory, pushed from the loader's default SP and from the lowest SP. -/
theorem frame_ordinary :
    (∀ a ∈ frameBytes 0x0800#16, ordinary a) ∧ (∀ a ∈ frameBytes 0x0018#16, ordinary a) := by
  constructor <;> simp [frameBytes, accessBytes, wordAddr]

theorem witness_ExceptionEntryFrame : Memory.wf running.mem ∧ (∀ a ∈ frameBytes running.sp, ordinary a) :=
  ⟨by decide, frame_ordinary.1⟩

theorem witness_FaultEntry :
    Psw.flt (running.setPsw 0x0160#16).psw = true ∧
    (Psw.flt running.psw = false ∧ prio running.mem FaultCause.priority.vector ≤ Psw.cur running.psw) ∧
    (let s := startVector 0x4E00#16 0x0060#16 0xFFE0#16 0x0080#16 0x3000#16
     Psw.flt s.psw = false ∧ Psw.cur s.psw < prio s.mem FaultCause.illegalInstruction.vector) := by decide +kernel

theorem witness_ReturnPullsFrame :
    picAbove (Psw.prev running.psw) (running.setReg .r6 0x0010#16) = none ∧
    (∀ a ∈ frameBytes ((running.setReg .r6 0x0010#16).sp + 8#16), ordinary a) := ⟨by decide, frame_ordinary.2⟩

theorem witness_TailChainEntersHandler :
    picAbove (Psw.prev ((agentTurn interrupted).setPsw 0x8080#16).psw) ((agentTurn interrupted).setPsw 0x8080#16) = some 0#3 := by
  decide +kernel

theorem witness_EntryThenReturnRestores :
    Memory.wf running.mem ∧ running.cex.wf ∧ (∀ a ∈ frameBytes running.sp, ordinary a) ∧
    picAbove (Psw.cur running.psw) (enter 4#4 running.pc false running) = none :=
  ⟨by decide, by decide, frame_ordinary.1, by decide +kernel⟩

theorem witness_CexWordRoundTrip : Cex.wf ⟨true, false, 0#3, 7#3⟩ ∧ Cex.inactive.wf := by decide

theorem witness_InputDeviceEvents :
    csrEna State.reset.dev.timer.csr = true ∧ csrIo State.reset.dev.timer.csr = true ∧
    csrEna State.reset.dev.keyboard.csr = true ∧ csrIo State.reset.dev.keyboard.csr = true ∧
    csrEna (timerAt 0x03#8 0#8).dev.timer.csr = false ∧
    csrEna (storeByte 2#16 0x03#8 State.reset).dev.keyboard.csr = false := by decide

theorem witness_ScreenOutput :
    csrEna State.reset.dev.screen.csr = true ∧ csrIo State.reset.dev.screen.csr = false ∧
    State.reset.dev.transit = [] := by decide

theorem witness_CsrWriteKeepsStatus : (6 ≤ (0x0006#16).toNat ∧ (0x0006#16).toNat < 16) ∧
    (6 ≤ (0x000F#16).toNat ∧ (0x000F#16).toNat < 16) := by decide

theorem witness_AccessClearsRequest : (0x000F#16).toNat < 16 ∧ (0x0000#16).toNat < 16 := by decide

theorem witness_DeviceReads : State.reset.dev.timerOf = false ∧ State.reset.dev.keyboardOf = false := by decide

theorem witness_LittleEndianWords :
    Memory.wf running.mem ∧ (ordinary 0x0010#16 ∧ (0x0010#16).getLsbD 0 = false) ∧
    (ordinary 0xFFFE#16 ∧ (0xFFFE#16).getLsbD 0 = false) := by decide

theorem witness_StepKeepsInvariant : running.Inv ∧ ∃ t, step running = .next t := ⟨by decide, _, rfl⟩

theorem witness_ExecKeepsSystemPsw :
    (Instr.setpri 2#3).wellFormed = true ∧ (∀ sa, Instr.setpri 2#3 ≠ .svc sa) ∧
    ∃ t, exec (.setpri 2#3) running = .next t := ⟨rfl, by decide, _, rfl⟩

theorem witness_OnlyMemoryInstructionsTouchMemory : ∃ t, exec (.add .word (.reg .r1) .r0) running = .next t := ⟨_, rfl⟩

theorem witness_NoInstructionRefused :
    (Instr.svc 4#4).wellFormed = true ∧ (Instr.setpri 7#3).wellFormed = true := by decide

/-- Effective addresses at the first byte of ordinary memory and at the last device register, direct and pre-incremented. -/
theorem witness_LdResult :
    AddrMode.defined ⟨false, false, false⟩ = true ∧ AddrMode.defined ⟨true, false, true⟩ = true ∧
    ordinary ((running.setReg .r1 0x000E#16).reg .r1 + 2#16) ∧ ¬ ordinary ((running.setReg .r1 0x000F#16).reg .r1) := by
  decide

theorem witness_StResult :
    Memory.wf running.mem ∧ AddrMode.defined ⟨true, true, false⟩ = true ∧ AddrMode.defined ⟨false, true, false⟩ = true ∧
    ordinary ((running.setReg .r1 0x0012#16).reg .r1 + 0xFFFE#16) ∧ ¬ ordinary ((running.setReg .r1 0x000F#16).reg .r1) := by
  decide

theorem witness_LdrResult : ordinary (running.reg .r6 + (0x40#7).signExtend 16) ∧
    ¬ ordinary ((running.setReg .r1 0xFFFF#16).reg .r1 + (0x10#7).signExtend 16) := by decide

theorem witness_StrResult : Memory.wf running.mem ∧ ordinary ((running.setReg .r1 0xFFFF#16).reg .r1 + (0x11#7).signExtend 16) ∧
    ¬ ordinary ((running.setReg .r1 0xFFFF#16).reg .r1 + (0x10#7).signExtend 16) := by decide

theorem witness_UndefinedModeFaults :
    ((⟨true, false, false⟩ : AddrMode).prpo, (⟨true, false, false⟩ : AddrMode).dec, (⟨true, false, false⟩ : AddrMode).inc) ∈
      [(false, true, true), (true, false, false), (true, true, true)] := by decide

/-- The operands of a two-operand instruction at both widths; the hypotheses of its statements only name them. -/
theorem witness_two_operand :
    running.opd .word .r0 = 7#16 ∧ running.source .word (.reg .r1) = 2#16 ∧
    running.opd .byte .r0 = 7#8 ∧ running.source .byte (.con .minusOne) = 0xFF#8 := by decide

theorem witness_CmpResult :
    (6#16 : BitVec 16).toNat = ((running.opd .word .r0).toNat + (~~~(running.source .word (.con .one))).toNat + 1) % 2 ^ 16 := by
  decide

theorem witness_CompareConditions : ∃ t, exec (.cmp .byte (.reg .r1) .r0) running = .next t := ⟨_, rfl⟩

theorem witness_DaddDecimalSum :
    bcdValid 4 (running.opd .word .r0).toNat = true ∧ bcdValid 4 (running.source .word (.con .thirtyTwo)).toNat = true := by
  decide

theorem witness_DaddInvalidCompletes :
    bcdValid 2 (running.source .byte (.con .minusOne)).toNat = false ∧ bcdValid 2 (0x0A#8).toNat = false := by decide

theorem witness_BitOperationResult :
    (running.source .word (.con .sixteen)).toNat = 16 ∧ (running.source .byte (.reg .r0)).toNat = 7 := by decide

theorem witness_CexResult : (0#3 = 0#3 ∧ 0#3 = 0#3) ∧ (0#3 ≠ 0#3 ∨ 1#3 ≠ 0#3) := by decide

theorem witness_SetpriResult : 2#3 < Psw.cur running.psw ∧ Psw.cur running.psw ≤ 3#3 := by decide

theorem witness_SvcResult :
    (let s := startVector 0x4DA4#16 0x0060#16 0xFFD0#16 0x0080#16 0x2000#16
     Psw.cur s.psw < prio s.mem 4#4) ∧
    (let s := startVector 0x4DA4#16 0x0060#16 0xFFD0#16 0x0060#16 0x2000#16
     prio s.mem 4#4 ≤ Psw.cur s.psw) := by decide

end Sys2Proof.Tests
end

section
/-! A word in memory as its two bytes (R62): the even word address, the two halves of a word, and what a read gives after a word store. -/

namespace Sys2Proof.Machine

/-- A word access at an even address touches the word that begins there (R62). -/
theorem wordAddr_of_even (a : Word) (h : a.getLsbD 0 = false) : wordAddr a = a := by
  have heven : a.toNat % 2 = 0 := by simpa [BitVec.getLsbD, Nat.testBit_zero] using h
  apply BitVec.eq_of_toNat_eq
  rw [wordAddr_toNat]
  omega

/-- A word is its high byte over its low byte. -/
theorem highByte_append_lowByte (w : Word) : highByte w ++ lowByte w = w := by
  unfold highByte lowByte
  rw [BitVec.extractLsb'_append_extractLsb'_eq_extractLsb' (by decide), BitVec.extractLsb'_eq_self]

/-! ## Reads after a word store -/

/-- The low byte of a stored word stands at the even address (R62). -/
theorem readByte_writeWord_low (m : Memory) (a v : Word) (hm : Memory.wf m) (ha : ordinary a) :
    Memory.readByte (Memory.writeWord m a v) (wordAddr a) = lowByte v := by
  unfold Memory.writeWord
  rw [readByte_writeByte_ne _ _ _ _ (wordAddr_succ_ne a).symm,
    readByte_writeByte_same _ _ _ hm (wordAddr_ordinary a ha).1]
  rfl

/-- The high byte of a stored word stands at the next address (R62). -/
theorem readByte_writeWord_high (m : Memory) (a v : Word) (hm : Memory.wf m) (ha : ordinary a) :
    Memory.readByte (Memory.writeWord m a v) (wordAddr a + 1#16) = highByte v := by
  unfold Memory.writeWord
  exact readByte_writeByte_same _ _ _ (wf_writeByte _ _ _ hm) (wordAddr_ordinary a ha).2

/-- A word of ordinary memory reads as the value stored, at an odd address too (R62, R66). -/
theorem readWord_writeWord_same (m : Memory) (a v : Word) (hm : Memory.wf m) (ha : ordinary a) :
    Memory.readWord (Memory.writeWord m a v) a = v := by
  unfold Memory.readWord
  rw [readByte_writeWord_low m a v hm ha, readByte_writeWord_high m a v hm ha, highByte_append_lowByte]

/-! ## The obligation -/

/-- Settles O26. At an even address the word address is the address itself, so the rules of `Memory.readWord` and
`Memory.writeWord` speak of `a` and `a + 1`; in ordinary memory a load and a store are just those (R73). -/
theorem littleEndianWords : Obligations.LittleEndianWords := by
  intro s a v hm ha heven
  have haddr : wordAddr a = a := wordAddr_of_even a heven
  have hlow := readByte_writeWord_low s.mem a v hm ha
  have hhigh := readByte_writeWord_high s.mem a v hm ha
  have hframe := readByte_writeWord_ne s.mem a v
  have hload : Memory.readWord s.mem a = Memory.readByte s.mem (a + 1#16) ++ Memory.readByte s.mem a := by
    rw [Memory.readWord, haddr]
  rw [haddr] at hlow hhigh hframe
  rw [storeWord_mem, loadWord_ordinary a _ ha, loadWord_ordinary a _ ha, storeWord_mem, hload]
  exact ⟨rfl, hlow, hhigh, hframe, readWord_writeWord_same s.mem a v hm ha⟩

end Sys2Proof.Machine
end

section
/-! The adder's instructions (R174 to R177, R179): what a result and a row of flags leave unchanged, ADD, ADDC, SUB and SUBC as one sum written to the destination, and the relations that the flags of a subtraction stand for (CMP). -/

namespace Sys2Proof.Machine

/-! ## Frames of a result and of a row of flags -/

/-- A row of flags alone changes the PSW, in the bits of the row only (R38). -/
theorem setFlags_frame (s : State) (row : FlagMask) (f : Flags) :
    sameRegsBut [] s (s.setFlags row f) ∧ samePswBut (rowMask row) s (s.setFlags row f) ∧
    sameMemoryBut [] s (s.setFlags row f) ∧ sameRest s (s.setFlags row f) :=
  ⟨fun _ _ => rfl, writeFlags_and_not s.psw row f, fun _ _ => rfl, rfl, rfl, rfl, rfl, rfl, rfl⟩

/-- A result changes its destination and the bits of its row, nothing else (R171, R38). -/
theorem answer_frame (s : State) (wb : Width) (d : Reg) (row : FlagMask) (r : BitVec wb.bits × Flags) :
    sameRegsBut [d] s (s.answer wb d row r) ∧ samePswBut (rowMask row) s (s.answer wb d row r) ∧
    sameMemoryBut [] s (s.answer wb d row r) ∧ sameRest s (s.answer wb d row r) := by
  obtain ⟨hreg, hpsw, hcex, hmem, hdev, hhalted, hstuck, hinbox, hdraws⟩ := answer_spec s wb d row r
  refine ⟨?regs, ?psw, ?mem, hcex, hdev, hhalted, hstuck, hinbox, hdraws⟩
  case regs => intro q hq; rw [hreg, if_neg (by simpa using hq)]
  case psw => rw [samePswBut, hpsw, writeFlags_and_not]
  case mem => intro a _; rw [hmem]

/-! ## The adder's flags in the PSW -/

/-- The four condition bits of an arithmetic instruction are those of its sum; any `r` with the sum's value is the result they judge (R172, R173). -/
theorem writeFlags_addw {w : Nat} (psw : Word) (D B r : BitVec w) (cin : Bool) (total : Nat)
    (htotal : D.toNat + B.toNat + cin.toNat = total) (hr : r.toNat = total % 2 ^ w) :
    let psw' := Psw.writeFlags psw Config.flagsArith (addw D B cin).2
    Psw.c psw' = decide (2 ^ w ≤ total) ∧ Psw.v psw' = (D.msb == B.msb && r.msb != D.msb) ∧
    Psw.n psw' = r.msb ∧ Psw.z psw' = (r == 0#w) := by
  obtain ⟨hsum, hc, hn, hz, hv⟩ := addw_spec D B cin
  obtain ⟨hpv, hpn, hpz, hpc⟩ := writeFlags_bits psw Config.flagsArith (addw D B cin).2
  rw [htotal] at hsum hc
  have hres : (addw D B cin).1 = r := BitVec.eq_of_toNat_eq (hsum.trans hr.symm)
  rw [hres] at hn hz hv
  exact ⟨hpc.trans hc, hpv.trans hv, hpn.trans hn, hpz.trans hz⟩

/-- What ADD, ADDC, SUB and SUBC share: the sum in the destination, its flags, and the frame (R174 to R177). -/
theorem exec_of_answer_addw (i : Instr) (s : State) (wb : Width) (d : Reg) (D B : BitVec wb.bits) (cin : Bool)
    (total : Nat) (htotal : D.toNat + B.toNat + cin.toNat = total)
    (hexec : exec i s = .next (s.answer wb d Config.flagsArith (addw D B cin))) :
    ∃ (t : State) (r : BitVec wb.bits), exec i s = .next t ∧
      r.toNat = total % 2 ^ wb.bits ∧ t.reg d = mergeLow wb (s.reg d) r ∧
      Psw.c t.psw = decide (2 ^ wb.bits ≤ total) ∧
      Psw.v t.psw = (D.msb == B.msb && r.msb != D.msb) ∧ Psw.n t.psw = r.msb ∧ Psw.z t.psw = (r == 0#wb.bits) ∧
      sameRegsBut [d] s t ∧ samePswBut 0x17#16 s t ∧ sameMemoryBut [] s t ∧ sameRest s t := by
  have hsum : (addw D B cin).1.toNat = total % 2 ^ wb.bits := htotal ▸ (addw_spec D B cin).1
  obtain ⟨hreg, hpsw, -⟩ := answer_spec s wb d Config.flagsArith (addw D B cin)
  obtain ⟨hc, hv, hn, hz⟩ := writeFlags_addw s.psw D B _ cin total htotal hsum
  rw [← hpsw] at hc hv hn hz
  exact ⟨_, (addw D B cin).1, hexec, hsum, by rw [hreg, if_pos rfl], hc, hv, hn, hz, answer_frame ..⟩

/-! ## ADD, ADDC, SUB, SUBC -/

theorem exec_add (wb : Width) (src : Source) (d : Reg) (s : State) : exec (.add wb src d) s =
    .next (s.answer wb d Config.flagsArith (addw (s.opd wb d) (s.source wb src) false)) := rfl

theorem exec_addc (wb : Width) (src : Source) (d : Reg) (s : State) : exec (.addc wb src d) s =
    .next (s.answer wb d Config.flagsArith (addw (s.opd wb d) (s.source wb src) (Psw.c s.psw))) := rfl

theorem exec_sub (wb : Width) (src : Source) (d : Reg) (s : State) : exec (.sub wb src d) s =
    .next (s.answer wb d Config.flagsArith (addw (s.opd wb d) (~~~(s.source wb src)) true)) := rfl

theorem exec_subc (wb : Width) (src : Source) (d : Reg) (s : State) : exec (.subc wb src d) s =
    .next (s.answer wb d Config.flagsArith (addw (s.opd wb d) (~~~(s.source wb src)) (Psw.c s.psw))) := rfl

/-- Settles O41: the sum with carry in 0. -/
theorem addResult : Obligations.AddResult := by
  rintro wb src d s _ _ rfl rfl
  exact ⟨Laws.EncodeMatchesRow.add wb src d, exec_of_answer_addw _ s wb d _ _ false _ rfl (exec_add wb src d s)⟩

/-- Settles O42: the sum with the PSW's carry in. -/
theorem addcResult : Obligations.AddcResult := by
  rintro wb src d s _ _ rfl rfl
  exact ⟨Laws.EncodeMatchesRow.addc wb src d, exec_of_answer_addw _ s wb d _ _ _ _ rfl (exec_addc wb src d s)⟩

/-- Settles O43: the sum with the complement of the source, and carry in 1. -/
theorem subResult : Obligations.SubResult := by
  rintro wb src d s _ _ rfl rfl
  exact ⟨Laws.EncodeMatchesRow.sub wb src d, exec_of_answer_addw _ s wb d _ _ true _ rfl (exec_sub wb src d s)⟩

/-- Settles O44: the sum with the complement of the source, and the PSW's carry in. -/
theorem subcResult : Obligations.SubcResult := by
  rintro wb src d s _ _ rfl rfl
  exact ⟨Laws.EncodeMatchesRow.subc wb src d, exec_of_answer_addw _ s wb d _ _ _ _ rfl (exec_subc wb src d s)⟩

/-! ## What the flags of a subtraction say -/

/-- The ones' complement plus 1 subtracts (R176). -/
theorem eq_sub_of_toNat_add_not_add_one {w : Nat} (D S r : BitVec w)
    (hr : r.toNat = (D.toNat + (~~~S).toNat + 1) % 2 ^ w) : r = D - S := by
  apply BitVec.eq_of_toNat_eq
  rw [hr, BitVec.toNat_sub, BitVec.toNat_not]
  congr 1
  have := S.isLt
  omega

/-- The carry out of a subtraction is the unsigned order: there is no borrow (R179). -/
theorem carry_sub_iff {w : Nat} (D S : BitVec w) :
    2 ^ w ≤ D.toNat + (~~~S).toNat + 1 ↔ S.toNat ≤ D.toNat := by
  have := S.isLt
  rw [BitVec.toNat_not]
  omega

/-- V of a subtraction (R179) is the overflow of the signed difference. -/
theorem overflow_sub_eq {w : Nat} (hw : 0 < w) (D S : BitVec w) :
    (D.msb == (~~~S).msb && (D - S).msb != D.msb) = D.ssubOverflow S := by
  rw [BitVec.ssubOverflow_eq, BitVec.msb_not, decide_eq_true hw]
  cases D.msb <;> cases S.msb <;> simp

/-- N = V after a subtraction is the signed order (R179): without overflow N is the sign of the exact difference; with
overflow the operands have two signs and N is the wrong one. -/
theorem msb_eq_overflow_sub_iff {w : Nat} (D S : BitVec w) :
    (D - S).msb = D.ssubOverflow S ↔ S.toInt ≤ D.toInt := by
  cases hv : D.ssubOverflow S
  case false =>
    rw [BitVec.msb_eq_toInt, BitVec.toInt_sub_of_not_ssubOverflow (by simp [hv]), decide_eq_false_iff_not]
    omega
  case true =>
    rw [BitVec.ssubOverflow_eq] at hv
    have hsigns : D.msb = !S.msb ∧ (D - S).msb = S.msb := by
      revert hv
      cases D.msb <;> cases S.msb <;> simp
    obtain ⟨hDS, hres⟩ := hsigns
    rw [hres, BitVec.msb_eq_toInt, decide_eq_true_iff]
    rw [BitVec.msb_eq_toInt, BitVec.msb_eq_toInt, ← decide_not, decide_eq_decide] at hDS
    omega

/-! ## CMP -/

theorem exec_cmp (wb : Width) (src : Source) (d : Reg) (s : State) : exec (.cmp wb src d) s =
    .next (s.setFlags Config.flagsArith (addw (s.opd wb d) (~~~(s.source wb src)) true).2) := rfl

/-- Settles O45: the flags are those of SUB, whose result is `D - S`: zero iff the operands are equal, and its carry and its sign
read as the two orders by the lemmas above. -/
theorem cmpResult : Obligations.CmpResult := by
  rintro wb src d s D S r rfl rfl hr
  obtain ⟨hc, hv, hn, hz⟩ := writeFlags_addw s.psw _ _ r true _ rfl hr
  have hsub := eq_sub_of_toNat_add_not_add_one _ _ r hr
  refine ⟨Laws.EncodeMatchesRow.cmp wb src d, _, exec_cmp wb src d s, hc, hv, hn, hz, ?equal, ?unsigned, ?signed,
    setFlags_frame ..⟩
  case equal => rw [setFlags_psw, hz, beq_iff_eq, hsub]; exact sub_eq_zero
  case unsigned => rw [setFlags_psw, hc, decide_eq_true_iff]; exact carry_sub_iff _ _
  case signed =>
    have hw : 0 < wb.bits := by cases wb <;> decide
    rw [setFlags_psw, hn, hv, hsub, overflow_sub_eq hw, msb_eq_overflow_sub_iff]

end Sys2Proof.Machine
end

section
/-! Register exchange (R201): what a register write of either width leaves unchanged, the two bytes of a byte write, and MOV. -/

namespace Sys2Proof.Machine

/-! ## A register write of either width -/

/-- A register write changes its register, nothing else (R14, R171). -/
theorem regw_frame (s : State) (wb : Width) (d : Reg) (v : BitVec wb.bits) :
    sameRegsBut [d] s (s.regw wb d v) ∧ (s.regw wb d v).psw = s.psw ∧
    sameMemoryBut [] s (s.regw wb d v) ∧ sameRest s (s.regw wb d v) := by
  refine ⟨?regs, rfl, fun _ _ => rfl, rfl, rfl, rfl, rfl, rfl, rfl⟩
  case regs => intro q hq; rw [regw_reg, if_neg (by simpa using hq)]

/-- The register written, at either width. -/
theorem regw_reg_same (s : State) (wb : Width) (d : Reg) (v : BitVec wb.bits) :
    (s.regw wb d v).reg d = mergeLow wb (s.reg d) v := by
  rw [regw_reg, if_pos rfl]

/-- A byte write keeps the high byte (R30). -/
theorem highByte_mergeLow_byte (old : Word) (v : Byte) : highByte (mergeLow .byte old v) = highByte old :=
  BitVec.extractLsb'_append_eq_left

/-- A byte write puts its value into the low byte (R30). -/
theorem lowByte_mergeLow_byte (old : Word) (v : Byte) : lowByte (mergeLow .byte old v) = v :=
  BitVec.extractLsb'_append_eq_right

/-- A register as a word operand is the register (R14). -/
theorem opd_word (s : State) (r : Reg) : s.opd .word r = s.reg r := BitVec.setWidth_eq _

/-- A register as a byte operand is its low byte (R14, R30). -/
theorem opd_byte (s : State) (r : Reg) : s.opd .byte r = lowByte (s.reg r) := BitVec.setWidth_eq_extractLsb' (by decide)

/-! ## MOV -/

theorem exec_mov (wb : Width) (r d : Reg) (s : State) :
    exec (.mov wb r d) s = .next (s.regw wb d (s.opd wb r)) := rfl

/-- Settles O51: a register write of the source operand, whose frame is the same at both widths; only what the
destination then holds is read off per width. -/
theorem movResult : Obligations.MovResult := by
  intro r d s
  refine ⟨fun wb => Laws.EncodeMatchesRow.mov wb r d,
    ⟨_, exec_mov .word r d s, ?word, regw_frame ..⟩,
    ⟨_, exec_mov .byte r d s, ?high, ?low, regw_frame ..⟩⟩
  case word => rw [regw_reg_same]; exact opd_word s r
  case high => rw [regw_reg_same, highByte_mergeLow_byte]
  case low => rw [regw_reg_same, lowByte_mergeLow_byte, opd_byte]

end Sys2Proof.Machine
end

section
/-! The PSW instructions (R266, R274): what a PSW write leaves unchanged, words that agree outside a mask, SETPRI and CLRCC. -/

namespace Sys2Proof.Machine

/-! ## A PSW write and its mask -/

/-- A write of the PSW changes nothing else (R39). -/
theorem setPsw_frame (s : State) (w : Word) :
    sameRegsBut [] s (s.setPsw w) ∧ sameMemoryBut [] s (s.setPsw w) ∧ sameRest s (s.setPsw w) :=
  ⟨fun q _ => setPsw_reg s w q, fun _ _ => rfl, rfl, rfl, rfl, rfl, rfl, rfl⟩

/-- Two words agree outside a mask when they agree in every bit the mask leaves clear. -/
theorem and_not_eq_of_getLsbD {n : Nat} (mask v w : BitVec n)
    (h : ∀ j, j < n → mask.getLsbD j = false → v.getLsbD j = w.getLsbD j) : v &&& ~~~mask = w &&& ~~~mask := by
  apply BitVec.eq_of_getLsbD_eq
  intro j hj
  cases hm : mask.getLsbD j
  case true => simp [hm]
  case false => simp [hm, h j hj hm]

/-! ## SETPRI -/

/-- CUR is bits 7 to 5 (R31): setting it leaves the other thirteen. -/
theorem setCur_and_not (w : Word) (p : BitVec 3) : Psw.setCur w p &&& ~~~0xE0#16 = w &&& ~~~0xE0#16 := by
  apply and_not_eq_of_getLsbD
  intro j hj hm
  have houtside : ¬ (5 ≤ j ∧ j < 8) := by revert j; decide
  rw [getLsbD_setCur, if_neg houtside]

/-- SETPRI with a priority below CUR lowers CUR (R266). -/
theorem exec_setpri_of_lt (pr : BitVec 3) (s : State) (h : pr < Psw.cur s.psw) :
    exec (.setpri pr) s = .next (s.setPsw (Psw.setCur s.psw pr)) := if_pos h

/-- SETPRI with a priority at or above CUR raises the priority fault (R266). -/
theorem exec_setpri_of_le (pr : BitVec 3) (s : State) (h : Psw.cur s.psw ≤ pr) :
    exec (.setpri pr) s = .next (raise .priority s) := if_neg (BitVec.not_lt.2 h)

/-- Settles O57: below CUR the instruction is one PSW write, in the bits of CUR; at or above it, the fault alone. -/
theorem setpriResult : Obligations.SetpriResult := by
  intro pr s
  refine ⟨Laws.EncodeMatchesRow.setpri pr, ?lowers, exec_setpri_of_le pr s⟩
  case lowers =>
    intro hlt
    exact ⟨_, exec_setpri_of_lt pr s hlt, setCur_cur s.psw pr, setCur_and_not s.psw pr, setPsw_frame ..⟩

/-! ## CLRCC -/

theorem exec_clrcc (m : BitVec 5) (s : State) :
    exec (.clrcc m) s = .next (s.setPsw (s.psw &&& ~~~(m.setWidth 16))) := rfl

/-- Clearing the bits of a mask, bit by bit: from bit 5 up the five-bit mask names none. -/
theorem getLsbD_clear (w : Word) (m : BitVec 5) (j : Nat) (hj : j < 16) :
    (w &&& ~~~(m.setWidth 16)).getLsbD j = (w.getLsbD j && !m.getLsbD j) := by
  simp [hj]

/-- Settles O60: the instruction is one PSW write, and its mask has no bit above bit 4. -/
theorem clrccResult : Obligations.ClrccResult := by
  intro m s
  refine ⟨Laws.EncodeMatchesRow.clrcc m, _, exec_clrcc m s, ?named, ?others, setPsw_frame ..⟩
  case named => exact fun j hj => getLsbD_clear s.psw m j (by omega)
  case others =>
    apply and_not_eq_of_getLsbD
    intro j hj hm
    have habove : 5 ≤ j := by revert j; decide
    rw [setPsw_psw, getLsbD_clear s.psw m j hj, BitVec.getLsbD_of_ge m j habove, Bool.not_false, Bool.and_true]

end Sys2Proof.Machine
end

section
/-! Decoding by formats (R102 to R113, R120 to R127): every word has one of twelve formats, and what the decoder makes of each format, whatever its fields hold. From these the round trip of R121, its converse and the list of the words that are no instruction. -/

namespace Sys2Proof

open Sys2Proof.Machine

/-! ## Fields of a word -/

/-- A field inside a known field. -/
theorem extract_of_field {n s k : Nat} {x : BitVec n} {v : BitVec k} (h : x.extractLsb' s k = v) (a b : Nat)
    (hab : a + b ≤ k) : x.extractLsb' (s + a) b = v.extractLsb' a b := by
  subst h
  apply BitVec.eq_of_getLsbD_eq
  intro j hj
  have : a + j < k := by omega
  simp [hj, this, Nat.add_assoc]

/-- Two neighbouring fields as one. -/
theorem append_of_fields {n s k l : Nat} {x : BitVec n} {hi : BitVec l} {lo : BitVec k}
    (hhi : x.extractLsb' (s + k) l = hi) (hlo : x.extractLsb' s k = lo) : x.extractLsb' s (l + k) = hi ++ lo := by
  rw [← hhi, ← hlo, BitVec.extractLsb'_append_extractLsb'_eq_extractLsb' rfl]

/-- A known field as digits of the word's number. -/
theorem div_mod_of_field {n s k m : Nat} {x : BitVec n} {v : BitVec k} (h : x.extractLsb' s k = v) (hv : v.toNat = m) :
    x.toNat / 2 ^ s % 2 ^ k = m := by
  rw [← hv, ← h, BitVec.extractLsb'_toNat, Nat.shiftRight_eq_div_pow]

/-! ## What the decoder makes of each format -/

/-- Format BL (R102). -/
def encodeBl (off : BitVec 13) : Word := 0b000#3 ++ off

theorem encodeBl_fields (off : BitVec 13) :
    (encodeBl off).extractLsb' 13 3 = 0b000#3 ∧ (encodeBl off).extractLsb' 0 13 = off :=
  ⟨BitVec.extractLsb'_append_eq_left, BitVec.extractLsb'_append_eq_right⟩

theorem decode_encodeBl (off : BitVec 13) : decode (encodeBl off) = .ok (.bl off) := by
  obtain ⟨htop, hoff⟩ := encodeBl_fields off
  rw [decode, htop, hoff]; rfl

theorem decode_encodeBranch (cond : BitVec 3) (off : BitVec 10) :
    decode (encodeBranch cond off) = .ok (decodeBranch cond off) := by
  obtain ⟨htop, hcond, hoff⟩ := encodeBranch_fields cond off
  rw [decode, htop, hcond, hoff]; rfl

theorem decode_encodeMovx (sel : BitVec 2) (b : Byte) (d : Reg) :
    decode (encodeMovx sel b d) = .ok (decodeMovx sel b d) := by
  obtain ⟨htop, hsel, hb, hd⟩ := encodeMovx_fields sel b d
  rw [decode, htop, hsel, hb, hd, Reg.ofBits_toBits]; rfl

/-- Words 0x8000 to 0xFFFF are LDR and STR by bit 14 (R113). -/
theorem decode_encodeRel (op : BitVec 1) (off : BitVec 7) (wb : Width) (s d : Reg) :
    decode (encodeRel op off wb s d) = .ok (if op = 0#1 then .ldr off wb s d else .str off wb s d) := by
  obtain ⟨htop, hop, hoff, hwb, hs, hd⟩ := encodeRel_fields op off wb s d
  have hhigh : 4 ≤ ((encodeRel op off wb s d).extractLsb' 13 3).toNat := by
    have h15 : _ = 1 := div_mod_of_field htop rfl
    have h13 := div_mod_of_field (x := encodeRel op off wb s d) (s := 13) (k := 3) rfl rfl
    omega
  unfold decode
  split
  case h_5 => rw [hop, hoff, hwb, hs, hd, Width.ofBit_toBit, Reg.ofBits_toBits, Reg.ofBits_toBits]; split <;> rfl
  all_goals omega

/-- Words 0x4000 to 0x4FFF go to the register group (R120). -/
theorem decode_registerGroup (w : Word) (h : w.extractLsb' 12 4 = 0x4#4) : decode w = decodeRegisterGroup w := by
  have h13 := extract_of_field h 1 3 (by decide)
  have h12 := extract_of_field h 0 1 (by decide)
  rw [decode, h13, h12]; rfl

/-- Words 0x5000 to 0x5FFF go to CEX, LD and ST (R120). -/
theorem decode_cexLdSt (w : Word) (h : w.extractLsb' 12 4 = 0x5#4) : decode w = decodeCexLdSt w := by
  have h13 := extract_of_field h 1 3 (by decide)
  have h12 := extract_of_field h 0 1 (by decide)
  rw [decode, h13, h12]; rfl

theorem decode_encodeTwoOperand (op : BitVec 4) (wb : Width) (src : Source) (d : Reg) (i : Instr)
    (hi : decodeTwoOperand op wb src d = some i) : decode (encodeTwoOperand op wb src d) = .ok i := by
  obtain ⟨htop, hop, hrc, hwb, hsc, hd⟩ := encodeTwoOperand_fields op wb src d
  rw [decode_registerGroup _ htop, decodeRegisterGroup]
  simp only [hop, hrc, hwb, hsc, hd, Width.ofBit_toBit, Source.ofBits_toBits, Reg.ofBits_toBits, hi]

/-- No two-operand instruction has 12 to 15 in its opcode nibble (R104). -/
theorem decodeTwoOperand_none (op : BitVec 4) (wb : Width) (src : Source) (d : Reg) (h : 12 ≤ op.toNat) :
    decodeTwoOperand op wb src d = none := by
  unfold decodeTwoOperand
  split
  case h_13 => rfl
  all_goals omega

/-- Under the default of log 10 the ignored bit decides nothing (R106, R107). -/
@[simp] theorem decodeIgnoringBit6_eq (b6 : BitVec 1) (i : Instr) : decodeIgnoringBit6 b6 i = .ok i := by
  simp [decodeIgnoringBit6, Config.wbIgnoredDecodes]

theorem decode_encodeExchange (sel b6 : BitVec 1) (s d : Reg) :
    decode (encodeExchange sel b6 s d) = .ok (if sel = 0#1 then .mov (Width.ofBit b6) s d else .swap s d) := by
  obtain ⟨hbyte, hsel, hb6, hs, hd⟩ := encodeExchange_fields sel b6 s d
  have hop : (encodeExchange sel b6 s d).extractLsb' 8 4 = 0xC#4 := extract_of_field hbyte 0 4 (by decide)
  rw [decode_registerGroup _ (extract_of_field hbyte 4 4 (by decide)), decodeRegisterGroup]
  simp only [hop, hsel, hb6, hs, hd, Reg.ofBits_toBits, decodeTwoOperand_none _ _ _ _ (by decide : 12 ≤ (0xC#4).toNat),
    decodeIgnoringBit6_eq, if_true]
  split <;> rfl

theorem decode_encodeSingleRegister (b6 : BitVec 1) (sub : BitVec 3) (d : Reg) :
    decode (encodeSingleRegister b6 sub d) = decodeSingleRegister b6 sub d := by
  obtain ⟨htop, hb6, hsub, hd⟩ := encodeSingleRegister_fields b6 sub d
  have hop : (encodeSingleRegister b6 sub d).extractLsb' 8 4 = 0xD#4 := extract_of_field htop 1 4 (by decide)
  have h7 : (encodeSingleRegister b6 sub d).extractLsb' 7 1 = 0#1 := extract_of_field htop 0 1 (by decide)
  rw [decode_registerGroup _ (extract_of_field htop 5 4 (by decide)), decodeRegisterGroup]
  simp only [hop, h7, hb6, hsub, hd, Reg.ofBits_toBits, decodeTwoOperand_none _ _ _ _ (by decide : 12 ≤ (0xD#4).toNat)]
  rfl

theorem decode_encodePsw (sel : BitVec 2) (is : BitVec 5) : decode (encodePsw sel is) = decodePsw sel is := by
  obtain ⟨htop, hsel, his⟩ := encodePsw_fields sel is
  have hop : (encodePsw sel is).extractLsb' 8 4 = 0xD#4 := extract_of_field htop 1 4 (by decide)
  have h7 : (encodePsw sel is).extractLsb' 7 1 = 1#1 := extract_of_field htop 0 1 (by decide)
  rw [decode_registerGroup _ (extract_of_field htop 5 4 (by decide)), decodeRegisterGroup]
  simp only [hop, h7, hsel, his, decodeTwoOperand_none _ _ _ _ (by decide : 12 ≤ (0xD#4).toNat)]
  rfl

theorem decode_encodeCex (code : BitVec 4) (t f : BitVec 3) :
    decode (encodeCex code t f) = .ok (.cex (Cond.ofBits code) t f) := by
  obtain ⟨htop, hcode, ht, hf⟩ := encodeCex_fields code t f
  have h10 : (encodeCex code t f).extractLsb' 10 2 = 0#2 := extract_of_field htop 0 2 (by decide)
  rw [decode_cexLdSt _ (extract_of_field htop 2 4 (by decide)), decodeCexLdSt, h10, hcode, ht, hf]; rfl

theorem decode_encodeLdSt (op : BitVec 1) (mode : AddrMode) (wb : Width) (s d : Reg) :
    decode (encodeLdSt op mode wb s d) =
      if mode.defined then .ok (if op = 0#1 then .ld mode wb s d else .st mode wb s d)
      else .error .undefinedAddressingMode := by
  obtain ⟨htop, hop, hmode, hwb, hs, hd⟩ := encodeLdSt_fields op mode wb s d
  have h11 : (encodeLdSt op mode wb s d).extractLsb' 11 1 = 1#1 := extract_of_field htop 0 1 (by decide)
  have h10 : (encodeLdSt op mode wb s d).extractLsb' 10 2 = 1#1 ++ op := append_of_fields h11 hop
  rw [decode_cexLdSt _ (extract_of_field htop 1 4 (by decide)), decodeCexLdSt, h10, hmode, hwb, hs, hd,
    AddrMode.ofBits_toBits, Width.ofBit_toBit, Reg.ofBits_toBits, Reg.ofBits_toBits]
  obtain rfl | rfl : op = 0#1 ∨ op = 1#1 := BitVec.eq_zero_or_eq_one op
  · rfl
  · rfl

/-- Opcode bytes 0x4E and 0x4F (R125). -/
def unassignedOpcodeByte (low : BitVec 9) : Word := 0b0100111#7 ++ low

theorem unassignedOpcodeByte_top (low : BitVec 9) : (unassignedOpcodeByte low).extractLsb' 9 7 = 0b0100111#7 :=
  BitVec.extractLsb'_append_eq_left

theorem decode_unassignedOpcodeByte (low : BitVec 9) :
    decode (unassignedOpcodeByte low) = .error .unassignedOpcodeByte := by
  have htop := unassignedOpcodeByte_top low
  have h9 : (unassignedOpcodeByte low).extractLsb' 9 3 = 7#3 := extract_of_field htop 0 3 (by decide)
  have hop : 14 ≤ ((unassignedOpcodeByte low).extractLsb' 8 4).toNat := by
    have h9 : _ = 7 := div_mod_of_field h9 rfl
    have h8 := div_mod_of_field (x := unassignedOpcodeByte low) (s := 8) (k := 4) rfl rfl
    omega
  rw [decode_registerGroup _ (extract_of_field htop 3 4 (by decide)), decodeRegisterGroup]
  generalize (unassignedOpcodeByte low).extractLsb' 8 4 = op at hop
  have hC : op ≠ 0xC#4 := by rintro rfl; revert hop; decide
  have hD : op ≠ 0xD#4 := by rintro rfl; revert hop; decide
  simp only [decodeTwoOperand_none op _ _ _ (by omega), hC, hD, if_false]

/-- Bits 15 to 10 = 010101 (R125). -/
def unassignedBesideCex (low : BitVec 10) : Word := 0b010101#6 ++ low

theorem unassignedBesideCex_top (low : BitVec 10) : (unassignedBesideCex low).extractLsb' 10 6 = 0b010101#6 :=
  BitVec.extractLsb'_append_eq_left

theorem decode_unassignedBesideCex (low : BitVec 10) :
    decode (unassignedBesideCex low) = .error .unassignedBesideCex := by
  have htop := unassignedBesideCex_top low
  have h10 : (unassignedBesideCex low).extractLsb' 10 2 = 1#2 := extract_of_field htop 0 2 (by decide)
  rw [decode_cexLdSt _ (extract_of_field htop 2 4 (by decide)), decodeCexLdSt, h10]; rfl

/-! ## The round trip -/

/-- Settles O2: every row of R121 is a format with its fields, and the decoder gives back the instruction of those fields. The
one check is that of the addressing mode. -/
theorem decodeEncodeRoundTrip : Obligations.DecodeEncodeRoundTrip := by
  intro i hwf
  cases i
  case bl => exact decode_encodeBl _
  case beq | bne | bc | bnc | bn | bge | blt | bra => exact decode_encodeBranch _ _
  case add | addc | sub | subc | dadd | cmp | xor | and | or | bit | bic | bis =>
    exact decode_encodeTwoOperand _ _ _ _ _ rfl
  case mov wb s d => exact (decode_encodeExchange _ _ _ _).trans (by simp)
  case swap => exact decode_encodeExchange _ _ _ _
  case sra wb d | rrc wb d | comp wb d =>
    exact (decode_encodeSingleRegister _ _ _).trans (by simp [decodeSingleRegister])
  case swpb | sxt => exact decode_encodeSingleRegister _ _ _
  case setpri pr => exact (decode_encodePsw _ _).trans (by revert pr; decide)
  case svc sa => exact (decode_encodePsw _ _).trans (by revert sa; decide)
  case setcc | clrcc => exact decode_encodePsw _ _
  case cex code t f => exact (decode_encodeCex _ _ _).trans (by simp)
  case ld | st => exact (decode_encodeLdSt _ _ _ _ _).trans (if_pos hwf)
  case movl | movlz | movls | movh => exact decode_encodeMovx _ _ _
  case ldr | str => exact decode_encodeRel _ _ _ _ _

/-! ## The formats of a word -/

/-- A word written in one of the formats of R102 to R113, or one of the two that R125 leaves unassigned. -/
inductive HasFormat : Word → Prop
  | bl (off : BitVec 13) : HasFormat (encodeBl off)
  | branch (cond : BitVec 3) (off : BitVec 10) : HasFormat (encodeBranch cond off)
  | twoOperand (op : BitVec 4) (wb : Width) (src : Source) (d : Reg) (h : op.toNat < 12) :
      HasFormat (encodeTwoOperand op wb src d)
  | exchange (sel b6 : BitVec 1) (s d : Reg) : HasFormat (encodeExchange sel b6 s d)
  | singleRegister (b6 : BitVec 1) (sub : BitVec 3) (d : Reg) : HasFormat (encodeSingleRegister b6 sub d)
  | psw (sel : BitVec 2) (is : BitVec 5) : HasFormat (encodePsw sel is)
  | opcodeByte (low : BitVec 9) : HasFormat (unassignedOpcodeByte low)
  | cex (code : BitVec 4) (t f : BitVec 3) : HasFormat (encodeCex code t f)
  | besideCex (low : BitVec 10) : HasFormat (unassignedBesideCex low)
  | ldSt (op : BitVec 1) (mode : AddrMode) (wb : Width) (s d : Reg) : HasFormat (encodeLdSt op mode wb s d)
  | movx (sel : BitVec 2) (b : Byte) (d : Reg) : HasFormat (encodeMovx sel b d)
  | rel (op : BitVec 1) (off : BitVec 7) (wb : Width) (s d : Reg) : HasFormat (encodeRel op off wb s d)

/-- A word is what its sixteen bits are put together to. -/
theorem HasFormat.of_bits {w e : Word} (he : HasFormat e) (h : w.extractLsb' 0 16 = e) : HasFormat w := by
  rw [BitVec.extractLsb'_eq_self] at h
  rwa [h]

theorem hasFormat_bl (w : Word) (h : w.extractLsb' 13 3 = 0b000#3) : HasFormat w :=
  (HasFormat.bl (w.extractLsb' 0 13)).of_bits (append_of_fields (k := 13) h rfl)

theorem hasFormat_branch (w : Word) (h : w.extractLsb' 13 3 = 0b001#3) : HasFormat w :=
  (HasFormat.branch (w.extractLsb' 10 3) (w.extractLsb' 0 10)).of_bits
    (append_of_fields (k := 10) (append_of_fields (k := 3) h rfl) rfl)

theorem hasFormat_twoOperand (w : Word) (h : w.extractLsb' 12 4 = 0x4#4) (hop : (w.extractLsb' 8 4).toNat < 12) :
    HasFormat w := by
  refine (HasFormat.twoOperand (w.extractLsb' 8 4) (Width.ofBit (w.extractLsb' 6 1))
    (Source.ofBits (w.extractLsb' 7 1) (w.extractLsb' 3 3)) (Reg.ofBits (w.extractLsb' 0 3)) hop).of_bits ?_
  rw [encodeTwoOperand, Source.toBits_ofBits, Width.toBit_ofBit, Reg.toBits_ofBits,
    BitVec.extractLsb'_append_eq_left, BitVec.extractLsb'_append_eq_right]
  exact append_of_fields (k := 3) (append_of_fields (k := 3) (append_of_fields (k := 1)
    (append_of_fields (k := 1) (append_of_fields (k := 4) h rfl) rfl) rfl) rfl) rfl

theorem hasFormat_exchange (w : Word) (h : w.extractLsb' 8 8 = 0x4C#8) : HasFormat w := by
  refine (HasFormat.exchange (w.extractLsb' 7 1) (w.extractLsb' 6 1) (Reg.ofBits (w.extractLsb' 3 3))
    (Reg.ofBits (w.extractLsb' 0 3))).of_bits ?_
  rw [encodeExchange, Reg.toBits_ofBits, Reg.toBits_ofBits]
  exact append_of_fields (k := 3) (append_of_fields (k := 3) (append_of_fields (k := 1)
    (append_of_fields (k := 1) h rfl) rfl) rfl) rfl

theorem hasFormat_singleRegister (w : Word) (h : w.extractLsb' 7 9 = 0b010011010#9) : HasFormat w := by
  refine (HasFormat.singleRegister (w.extractLsb' 6 1) (w.extractLsb' 3 3) (Reg.ofBits (w.extractLsb' 0 3))).of_bits ?_
  rw [encodeSingleRegister, Reg.toBits_ofBits]
  exact append_of_fields (k := 3) (append_of_fields (k := 3) (append_of_fields (k := 1) h rfl) rfl) rfl

theorem hasFormat_psw (w : Word) (h : w.extractLsb' 7 9 = 0b010011011#9) : HasFormat w :=
  (HasFormat.psw (w.extractLsb' 5 2) (w.extractLsb' 0 5)).of_bits
    (append_of_fields (k := 5) (append_of_fields (k := 2) h rfl) rfl)

theorem hasFormat_opcodeByte (w : Word) (h : w.extractLsb' 9 7 = 0b0100111#7) : HasFormat w :=
  (HasFormat.opcodeByte (w.extractLsb' 0 9)).of_bits (append_of_fields (k := 9) h rfl)

theorem hasFormat_cex (w : Word) (h : w.extractLsb' 10 6 = 0b010100#6) : HasFormat w :=
  (HasFormat.cex (w.extractLsb' 6 4) (w.extractLsb' 3 3) (w.extractLsb' 0 3)).of_bits
    (append_of_fields (k := 3) (append_of_fields (k := 3) (append_of_fields (k := 4) h rfl) rfl) rfl)

theorem hasFormat_besideCex (w : Word) (h : w.extractLsb' 10 6 = 0b010101#6) : HasFormat w :=
  (HasFormat.besideCex (w.extractLsb' 0 10)).of_bits (append_of_fields (k := 10) h rfl)

theorem hasFormat_ldSt (w : Word) (h : w.extractLsb' 11 5 = 0b01011#5) : HasFormat w := by
  refine (HasFormat.ldSt (w.extractLsb' 10 1) (AddrMode.ofBits (w.extractLsb' 7 3)) (Width.ofBit (w.extractLsb' 6 1))
    (Reg.ofBits (w.extractLsb' 3 3)) (Reg.ofBits (w.extractLsb' 0 3))).of_bits ?_
  rw [encodeLdSt, AddrMode.toBits_ofBits, Width.toBit_ofBit, Reg.toBits_ofBits, Reg.toBits_ofBits]
  exact append_of_fields (k := 3) (append_of_fields (k := 3) (append_of_fields (k := 1)
    (append_of_fields (k := 3) (append_of_fields (k := 1) h rfl) rfl) rfl) rfl) rfl

theorem hasFormat_movx (w : Word) (h : w.extractLsb' 13 3 = 0b011#3) : HasFormat w := by
  refine (HasFormat.movx (w.extractLsb' 11 2) (w.extractLsb' 3 8) (Reg.ofBits (w.extractLsb' 0 3))).of_bits ?_
  rw [encodeMovx, Reg.toBits_ofBits]
  exact append_of_fields (k := 3) (append_of_fields (k := 8) (append_of_fields (k := 2) h rfl) rfl) rfl

theorem hasFormat_rel (w : Word) (h : w.extractLsb' 15 1 = 1#1) : HasFormat w := by
  refine (HasFormat.rel (w.extractLsb' 14 1) (w.extractLsb' 7 7) (Width.ofBit (w.extractLsb' 6 1))
    (Reg.ofBits (w.extractLsb' 3 3)) (Reg.ofBits (w.extractLsb' 0 3))).of_bits ?_
  rw [encodeRel, Width.toBit_ofBit, Reg.toBits_ofBits, Reg.toBits_ofBits]
  exact append_of_fields (k := 3) (append_of_fields (k := 3) (append_of_fields (k := 1)
    (append_of_fields (k := 7) (append_of_fields (k := 1) h rfl) rfl) rfl) rfl) rfl

/-- Words 0x4000 to 0x4FFF, by the opcode byte and bit 7 (R104 to R108). -/
theorem hasFormat_registerGroup (w : Word) (h : w.extractLsb' 12 4 = 0x4#4) : HasFormat w := by
  have nibble : ∀ op : BitVec 4, op.toNat < 12 ∨ op = 0xC#4 ∨ op = 0xD#4 ∨ op.extractLsb' 1 3 = 0b111#3 := by decide
  rcases nibble (w.extractLsb' 8 4) with hop | hop | hop | hop
  · exact hasFormat_twoOperand w h hop
  · exact hasFormat_exchange w (append_of_fields (k := 4) h hop)
  · have hbyte : w.extractLsb' 8 8 = 0x4D#8 := append_of_fields (k := 4) h hop
    rcases BitVec.eq_zero_or_eq_one (w.extractLsb' 7 1) with h7 | h7
    · exact hasFormat_singleRegister w (append_of_fields (k := 1) hbyte h7)
    · exact hasFormat_psw w (append_of_fields (k := 1) hbyte h7)
  · have h9 : w.extractLsb' 9 3 = 0b111#3 := by rw [← hop]; exact (extract_of_field rfl 1 3 (by decide))
    exact hasFormat_opcodeByte w (append_of_fields (k := 3) h h9)

/-- Words 0x5000 to 0x5FFF, by bits 11 and 10 (R109, R110). -/
theorem hasFormat_cexLdSt (w : Word) (h : w.extractLsb' 12 4 = 0x5#4) : HasFormat w := by
  rcases BitVec.eq_zero_or_eq_one (w.extractLsb' 11 1) with h11 | h11
  · have htop : w.extractLsb' 11 5 = 0b01010#5 := append_of_fields (k := 1) h h11
    rcases BitVec.eq_zero_or_eq_one (w.extractLsb' 10 1) with h10 | h10
    · exact hasFormat_cex w (append_of_fields (k := 1) htop h10)
    · exact hasFormat_besideCex w (append_of_fields (k := 1) htop h10)
  · exact hasFormat_ldSt w (append_of_fields (k := 1) h h11)

/-- Every word has one of the formats (R120). -/
theorem hasFormat (w : Word) : HasFormat w := by
  have top : ∀ b : BitVec 3, b = 0b000#3 ∨ b = 0b001#3 ∨ b = 0b010#3 ∨ b = 0b011#3 ∨ b.extractLsb' 2 1 = 1#1 := by decide
  rcases top (w.extractLsb' 13 3) with h | h | h | h | h
  · exact hasFormat_bl w h
  · exact hasFormat_branch w h
  · rcases BitVec.eq_zero_or_eq_one (w.extractLsb' 12 1) with h12 | h12
    · exact hasFormat_registerGroup w (append_of_fields (k := 1) h h12)
    · exact hasFormat_cexLdSt w (append_of_fields (k := 1) h h12)
  · exact hasFormat_movx w h
  · have h15 : w.extractLsb' 15 1 = 1#1 := by rw [← h]; exact (extract_of_field rfl 2 1 (by decide))
    exact hasFormat_rel w h15

/-! ## A decoded word and its instruction -/

/-- The instruction is of the opcode table, and the word is its word but for the ignored bit 6 of SWAP, SWPB and SXT (R106, R107). -/
def ReencodesTo (i : Instr) (w : Word) : Prop :=
  i.wellFormed = true ∧
    (encode i = w ∨ (encode i = w &&& 0xFFBF#16 ∧ ((∃ r d, i = .swap r d) ∨ (∃ d, i = .swpb d) ∨ (∃ d, i = .sxt d))))

theorem reencodes_branch (cond : BitVec 3) (off : BitVec 10) :
    ReencodesTo (decodeBranch cond off) (encodeBranch cond off) := by
  obtain ⟨⟨n, hn⟩⟩ := cond
  interval_cases n <;> exact ⟨rfl, .inl rfl⟩

theorem reencodes_movx (sel : BitVec 2) (b : Byte) (d : Reg) : ReencodesTo (decodeMovx sel b d) (encodeMovx sel b d) := by
  obtain ⟨⟨n, hn⟩⟩ := sel
  interval_cases n <;> exact ⟨rfl, .inl rfl⟩

theorem reencodes_twoOperand (op : BitVec 4) (wb : Width) (src : Source) (d : Reg) (h : op.toNat < 12) :
    ∃ i, decodeTwoOperand op wb src d = some i ∧ ReencodesTo i (encodeTwoOperand op wb src d) := by
  obtain ⟨⟨n, hn⟩⟩ := op
  change n < 12 at h
  interval_cases n <;> exact ⟨_, rfl, rfl, .inl rfl⟩

/-- The mask of bit 6 in format SWAP. -/
theorem encodeExchange_bit6 (b6 : BitVec 1) (s d : Reg) :
    encodeExchange 1#1 b6 s d &&& 0xFFBF#16 = encodeExchange 1#1 0#1 s d := by
  show ((0x4C#8 ++ 1#1 ++ b6 ++ s.toBits ++ d.toBits) &&&
    (BitVec.allOnes 8 ++ BitVec.allOnes 1 ++ 0#1 ++ BitVec.allOnes 3 ++ BitVec.allOnes 3) : BitVec (8+1+1+3+3)) = _
  simp only [BitVec.and_append, BitVec.and_allOnes, BitVec.and_zero]
  rfl

/-- The mask of bit 6 in format ONE. -/
theorem encodeSingleRegister_bit6 (b6 : BitVec 1) (sub : BitVec 3) (d : Reg) :
    encodeSingleRegister b6 sub d &&& 0xFFBF#16 = encodeSingleRegister 0#1 sub d := by
  show ((0b010011010#9 ++ b6 ++ sub ++ d.toBits) &&&
    (BitVec.allOnes 9 ++ 0#1 ++ BitVec.allOnes 3 ++ BitVec.allOnes 3) : BitVec (9+1+3+3)) = _
  simp only [BitVec.and_append, BitVec.and_allOnes, BitVec.and_zero]
  rfl

theorem reencodes_exchange (sel b6 : BitVec 1) (s d : Reg) :
    ReencodesTo (if sel = 0#1 then .mov (Width.ofBit b6) s d else .swap s d) (encodeExchange sel b6 s d) := by
  obtain rfl | rfl := BitVec.eq_zero_or_eq_one sel
  · exact ⟨rfl, .inl (by simp [encode])⟩
  · exact ⟨rfl, .inr ⟨(encodeExchange_bit6 b6 s d).symm, .inl ⟨s, d, rfl⟩⟩⟩

theorem reencodes_singleRegister (b6 : BitVec 1) (sub : BitVec 3) (d : Reg) (i : Instr)
    (h : decodeSingleRegister b6 sub d = .ok i) : ReencodesTo i (encodeSingleRegister b6 sub d) := by
  have hignored := encodeSingleRegister_bit6 b6 sub d
  obtain ⟨⟨n, hn⟩⟩ := sub
  interval_cases n <;> simp [decodeSingleRegister] at h <;> subst h
  · exact ⟨rfl, .inl (by simp [encode])⟩
  · exact ⟨rfl, .inl (by simp [encode])⟩
  · exact ⟨rfl, .inl (by simp [encode])⟩
  · exact ⟨rfl, .inr ⟨hignored.symm, .inr (.inl ⟨d, rfl⟩)⟩⟩
  · exact ⟨rfl, .inr ⟨hignored.symm, .inr (.inr ⟨d, rfl⟩)⟩⟩

/-- The selector of format PSW: SETPRI, SVC, SETCC, CLRCC (R108). -/
theorem pswSelector_cases (sel : BitVec 2) : sel = 0#2 ∨ sel = 1#2 ∨ sel = 2#2 ∨ sel = 3#2 := by revert sel; decide

theorem reencodes_psw (sel : BitVec 2) (is : BitVec 5) (i : Instr) (h : decodePsw sel is = .ok i) :
    ReencodesTo i (encodePsw sel is) := by
  obtain rfl | rfl | rfl | rfl := pswSelector_cases sel
  · simp only [decodePsw, BitVec.toNat_ofNat] at h
    split at h <;> cases h
    rename_i hzero
    have hbits : is.extractLsb' 0 5 = 0#2 ++ is.extractLsb' 0 3 := append_of_fields (k := 3) hzero rfl
    rw [BitVec.extractLsb'_eq_self] at hbits
    exact ⟨rfl, .inl (congrArg (encodePsw 0#2) hbits.symm)⟩
  · simp only [decodePsw, BitVec.toNat_ofNat] at h
    split at h <;> cases h
    rename_i hzero
    have hbits : is.extractLsb' 0 5 = 0#1 ++ is.extractLsb' 0 4 := append_of_fields (k := 4) hzero rfl
    rw [BitVec.extractLsb'_eq_self] at hbits
    exact ⟨rfl, .inl (congrArg (encodePsw 1#2) hbits.symm)⟩
  · cases h; exact ⟨rfl, .inl rfl⟩
  · cases h; exact ⟨rfl, .inl rfl⟩

/-- Settles O4. -/
theorem decodedWordReencodes : Obligations.DecodedWordReencodes := by
  intro w i h
  change ReencodesTo i w
  cases hasFormat w with
  | bl off =>
    rw [decode_encodeBl] at h; obtain rfl := Except.ok.inj h
    exact ⟨rfl, .inl rfl⟩
  | branch cond off =>
    rw [decode_encodeBranch] at h; obtain rfl := Except.ok.inj h
    exact reencodes_branch cond off
  | twoOperand op wb src d hop =>
    obtain ⟨j, hj, hre⟩ := reencodes_twoOperand op wb src d hop
    rw [decode_encodeTwoOperand op wb src d j hj] at h; obtain rfl := Except.ok.inj h
    exact hre
  | exchange sel b6 s d =>
    rw [decode_encodeExchange] at h; obtain rfl := Except.ok.inj h
    exact reencodes_exchange sel b6 s d
  | singleRegister b6 sub d =>
    rw [decode_encodeSingleRegister] at h
    exact reencodes_singleRegister b6 sub d i h
  | psw sel is =>
    rw [decode_encodePsw] at h
    exact reencodes_psw sel is i h
  | opcodeByte low => rw [decode_unassignedOpcodeByte] at h; cases h
  | cex code t f =>
    rw [decode_encodeCex] at h; obtain rfl := Except.ok.inj h
    exact ⟨rfl, .inl (by simp [encode])⟩
  | besideCex low => rw [decode_unassignedBesideCex] at h; cases h
  | ldSt op mode wb s d =>
    rw [decode_encodeLdSt] at h
    split at h
    next hm =>
      obtain rfl := Except.ok.inj h
      obtain rfl | rfl := BitVec.eq_zero_or_eq_one op
      · exact ⟨hm, .inl rfl⟩
      · exact ⟨hm, .inl rfl⟩
    next => cases h
  | movx sel b d =>
    rw [decode_encodeMovx] at h; obtain rfl := Except.ok.inj h
    exact reencodes_movx sel b d
  | rel op off wb s d =>
    rw [decode_encodeRel] at h; obtain rfl := Except.ok.inj h
    obtain rfl | rfl := BitVec.eq_zero_or_eq_one op
    · exact ⟨rfl, .inl rfl⟩
    · exact ⟨rfl, .inl rfl⟩

/-! ## The words that are no instruction -/

/-- The undefined modes are PRPO:DEC:INC = 011, 100 and 111 (R110, R126). -/
theorem defined_eq_false_iff (m : AddrMode) :
    m.defined = false ↔ m.toBits.toNat = 3 ∨ m.toBits.toNat = 4 ∨ m.toBits.toNat = 7 := by
  rcases m with ⟨_ | _, _ | _, _ | _⟩ <;> decide

/-- Sub-codes 5, 6 and 7 of format ONE are unassigned (R125). -/
theorem decodeSingleRegister_error_iff (b6 : BitVec 1) (sub : BitVec 3) (d : Reg) :
    (∃ e, decodeSingleRegister b6 sub d = .error e) ↔ 5 ≤ sub.toNat := by
  obtain ⟨⟨n, hn⟩⟩ := sub
  interval_cases n <;> simp [decodeSingleRegister]

/-- SETPRI leaves bits 4 and 3 clear, SVC bit 4 (R125, log 43). -/
theorem decodePsw_error_iff (sel : BitVec 2) (is : BitVec 5) :
    (∃ e, decodePsw sel is = .error e) ↔ sel.toNat = 0 ∧ 8 ≤ is.toNat ∨ sel.toNat = 1 ∧ 16 ≤ is.toNat := by
  have h3 : is.extractLsb' 3 2 = 0#2 ↔ is.toNat < 8 := by revert is; decide
  have h4 : is.extractLsb' 4 1 = 0#1 ↔ is.toNat < 16 := by revert is; decide
  obtain rfl | rfl | rfl | rfl := pswSelector_cases sel
  · simp only [decodePsw, BitVec.toNat_ofNat, h3]; split <;> simp <;> omega
  · simp only [decodePsw, BitVec.toNat_ofNat, h4]; split <;> simp <;> omega
  · simp [decodePsw]
  · simp [decodePsw]

theorem refused_iff_of_ok {w : Word} {i : Instr} (h : decode w = .ok i) (hw : ¬ isNoInstruction w) :
    (∃ e, decode w = .error e) ↔ isNoInstruction w :=
  iff_of_false (by simp [h]) hw

/-- Settles O3, format by format: the decoder's answer is known from the format's fields, and so is the range the word lies in. -/
theorem decodeRefusesExactly : Obligations.DecodeRefusesExactly := by
  intro w
  have hw : w.toNat < 65536 := w.isLt
  cases hasFormat w with
  | bl off =>
    have htop := div_mod_of_field (m := 0) (encodeBl_fields off).1 rfl
    exact refused_iff_of_ok (decode_encodeBl off) (by omega)
  | branch cond off =>
    have htop := div_mod_of_field (m := 1) (encodeBranch_fields cond off).1 rfl
    exact refused_iff_of_ok (decode_encodeBranch cond off) (by omega)
  | twoOperand op wb src d h =>
    obtain ⟨htop, hop, -⟩ := encodeTwoOperand_fields op wb src d
    obtain ⟨i, hi, -⟩ := reencodes_twoOperand op wb src d h
    replace htop := div_mod_of_field (m := 0x4) htop rfl
    replace hop := div_mod_of_field hop rfl
    exact refused_iff_of_ok (decode_encodeTwoOperand op wb src d i hi) (by omega)
  | exchange sel b6 s d =>
    have htop := div_mod_of_field (m := 0x4C) (encodeExchange_fields sel b6 s d).1 rfl
    exact refused_iff_of_ok (decode_encodeExchange sel b6 s d) (by omega)
  | singleRegister b6 sub d =>
    obtain ⟨htop, -, hsub, -⟩ := encodeSingleRegister_fields b6 sub d
    replace htop := div_mod_of_field (m := 0b010011010) htop rfl
    replace hsub := div_mod_of_field hsub rfl
    rw [decode_encodeSingleRegister, decodeSingleRegister_error_iff]
    omega
  | psw sel is =>
    obtain ⟨htop, hsel, his⟩ := encodePsw_fields sel is
    replace htop := div_mod_of_field (m := 0b010011011) htop rfl
    replace hsel := div_mod_of_field hsel rfl
    replace his := div_mod_of_field his rfl
    rw [decode_encodePsw, decodePsw_error_iff]
    omega
  | opcodeByte low =>
    have htop := div_mod_of_field (m := 0b0100111) (unassignedOpcodeByte_top low) rfl
    exact iff_of_true ⟨_, decode_unassignedOpcodeByte low⟩ (by omega)
  | cex code t f =>
    have htop := div_mod_of_field (m := 0b010100) (encodeCex_fields code t f).1 rfl
    exact refused_iff_of_ok (decode_encodeCex code t f) (by omega)
  | besideCex low =>
    have htop := div_mod_of_field (m := 0b010101) (unassignedBesideCex_top low) rfl
    exact iff_of_true ⟨_, decode_unassignedBesideCex low⟩ (by omega)
  | ldSt op mode wb s d =>
    obtain ⟨htop, hop, hmode, -⟩ := encodeLdSt_fields op mode wb s d
    have herror : (∃ e, decode (encodeLdSt op mode wb s d) = .error e) ↔ mode.defined = false := by
      rw [decode_encodeLdSt]; cases mode.defined <;> simp
    replace htop := div_mod_of_field (m := 0b01011) htop rfl
    replace hop := div_mod_of_field hop rfl
    replace hmode := div_mod_of_field hmode rfl
    rw [herror, defined_eq_false_iff]
    omega
  | movx sel b d =>
    have htop := div_mod_of_field (m := 0b011) (encodeMovx_fields sel b d).1 rfl
    exact refused_iff_of_ok (decode_encodeMovx sel b d) (by omega)
  | rel op off wb s d =>
    have htop := div_mod_of_field (m := 1) (encodeRel_fields op off wb s d).1 rfl
    exact refused_iff_of_ok (decode_encodeRel op off wb s d) (by omega)

/-! ## Fixed words -/

/-- Settles O1, by running the decoder on the fifteen words. -/
theorem specWordsDecode : Obligations.SpecWordsDecode := by
  unfold Obligations.SpecWordsDecode; decide

end Sys2Proof
end

section
/-! Devices (R345 to R359): the request bits after every CPU access and every event of the agent, the control/status byte after a status change or a CPU write, and the device registers as the CPU reads and writes them. -/

namespace Sys2Proof.Machine

/-! ## The device agent -/

/-- An event raises requests of devices 0, 1 and 2 only (R357). -/
theorem deviceEvent_absent (e : DeviceEvent) (s : State) (d : Nat) (hd : 3 ≤ d) :
    (deviceEvent e s).dev.irq.getLsbD d = s.dev.irq.getLsbD d := by
  have keep (i : Nat) (b : Bool) (hi : i < 3) : (setBit s.dev.irq i b).getLsbD d = s.dev.irq.getLsbD d := by
    rw [getLsbD_setBit _ _ _ _ (by omega), if_neg (by omega)]
  have keepIf (c : Bool) (i : Nat) (hi : i < 3) :
      (if c then setBit s.dev.irq i true else s.dev.irq).getLsbD d = s.dev.irq.getLsbD d := by
    cases c
    · rfl
    · exact keep i true hi
  cases e with
  | timerExpiry =>
    simp only [deviceEvent, timerExpiry]
    split
    · split
      · exact keepIf _ 0 (by decide)
      · exact keep 0 _ (by decide)
    · rfl
  | keyArrival k =>
    simp only [deviceEvent, keyArrival]
    split
    · split
      · exact keepIf _ 1 (by decide)
      · exact keep 1 _ (by decide)
    · rfl
  | screenDone =>
    simp only [deviceEvent, screenDone]
    split
    · rfl
    · split
      · exact keepIf _ 2 (by decide)
      · exact keep 2 _ (by decide)

theorem deviceEvents_absent (es : List DeviceEvent) (s : State) (d : Nat) (hd : 3 ≤ d) :
    (deviceEvents es s).dev.irq.getLsbD d = s.dev.irq.getLsbD d := by
  induction es generalizing s with
  | nil => rfl
  | cons e es ih => exact (ih (deviceEvent e s)).trans (deviceEvent_absent e s d hd)

theorem agentTurn_absent (s : State) (d : Nat) (hd : 3 ≤ d) :
    (agentTurn s).dev.irq.getLsbD d = s.dev.irq.getLsbD d := by
  unfold agentTurn
  split
  · rfl
  · exact deviceEvents_absent _ _ d hd

/-- Settles O20. -/
theorem agentKeepsCpu : Obligations.AgentKeepsCpu := by
  intro s
  obtain ⟨hregs, hpsw, hcex, hmem, hhalted, hstuck⟩ := agentTurn_sameCpu s
  refine ⟨?regs, hpsw, hcex, ?mem, hhalted, hstuck, agentTurn_absent s⟩
  case regs => intro r _; rw [State.reg, State.reg, hregs]
  case mem => intro a _; rw [hmem]

/-! ## The requests after a CPU access (R354) -/

/-- A read clears the request of the device that the register is of, two registers to a device. -/
theorem portRead_irq (a : Word) (s : State) :
    (portRead a s).2.dev.irq = setBit s.dev.irq (a.toNat / 2) false := by
  unfold portRead
  split
  case h_1 ha => rw [ha]; unfold readTimerCsr; split <;> rfl
  case h_3 ha => rw [ha]; unfold readKeyboardCsr; split <;> rfl
  case h_2 ha | h_4 ha | h_5 ha | h_6 ha => rw [ha]; rfl
  case h_7 => rfl

theorem portWrite_irq (a : Word) (b : Byte) (s : State) :
    (portWrite a b s).dev.irq = setBit s.dev.irq (a.toNat / 2) false := by
  unfold portWrite
  split
  case h_6 ha => rw [ha]; unfold writeScreenDr; split <;> rfl
  case h_1 ha | h_2 ha | h_3 ha | h_4 ha | h_5 ha => rw [ha]; rfl
  case h_7 => rfl

/-- An access to #0000 to #000F is one of a device register (R74). -/
theorem loadByte_port (a : Word) (s : State) (h : a.toNat < 16) : loadByte a s = portRead a s := by
  simp [loadByte, isPort, h]

theorem storeByte_port (a : Word) (b : Byte) (s : State) (h : a.toNat < 16) : storeByte a b s = portWrite a b s := by
  simp [storeByte, isPort, h]

/-- Settles O24: a read and a write both clear the one request bit. -/
theorem accessClearsRequest : Obligations.AccessClearsRequest := by
  intro s a b d ha
  have hbit : a.toNat / 2 < 8 := by omega
  rw [loadByte_port a s ha, storeByte_port a b s ha, portRead_irq, portWrite_irq]
  exact ⟨getLsbD_setBit _ _ _ _ hbit, getLsbD_setBit _ _ _ _ hbit⟩

/-! ## The control/status byte (R346) -/

@[simp] theorem csrDba_csrSetDba (b : Byte) (v : Bool) : csrDba (csrSetDba b v) = v := by simp [csrDba, csrSetDba]
@[simp] theorem csrDba_csrSetOf (b : Byte) (v : Bool) : csrDba (csrSetOf b v) = csrDba b := by simp [csrDba, csrSetOf]
@[simp] theorem csrOf_csrSetOf (b : Byte) (v : Bool) : csrOf (csrSetOf b v) = v := by simp [csrOf, csrSetOf]
@[simp] theorem csrOf_csrSetDba (b : Byte) (v : Bool) : csrOf (csrSetDba b v) = csrOf b := by simp [csrOf, csrSetDba]

/-- DBA and OF are the two bits outside 0xF3 (R346). -/
@[simp] theorem csrSetDba_and (b : Byte) (v : Bool) : csrSetDba b v &&& 0xF3#8 = b &&& 0xF3#8 :=
  setBit_and_not b 0x0C#8 2 v (by decide) (by decide)

@[simp] theorem csrSetOf_and (b : Byte) (v : Bool) : csrSetOf b v &&& 0xF3#8 = b &&& 0xF3#8 :=
  setBit_and_not b 0x0C#8 3 v (by decide) (by decide)

/-- A status change of an input device: DBA rises, OF where DBA stood (R349, R350). -/
theorem csrArrived_spec (b : Byte) :
    csrDba (csrArrived b) = true ∧ csrOf (csrArrived b) = (csrOf b || csrDba b) ∧
    csrArrived b &&& 0xF3#8 = b &&& 0xF3#8 := by
  unfold csrArrived
  cases csrDba b <;> simp

/-- A CPU write keeps DBA and OF and takes the other bits (R348). -/
theorem csrWritten_spec (old b : Byte) :
    csrWritten old b &&& 0xF3#8 = b &&& 0xF3#8 ∧ csrDba (csrWritten old b) = csrDba old ∧
    csrOf (csrWritten old b) = csrOf old := by
  simp [csrWritten]

/-- A CPU read of a CSR shows DBA as it stands (R359). -/
theorem csrDba_csrSeen (csr : Byte) (ofSet : Bool) (free : Word) : csrDba (csrSeen csr ofSet free) = csrDba csr := by
  cases ofSet <;> simp [csrSeen]

/-- A request raised where IE is set, beside the one that may stand. -/
theorem getLsbD_raised (irq : BitVec 8) (i : Nat) (ie : Bool) (hi : i < 8) :
    (if ie then setBit irq i true else irq).getLsbD i = (irq.getLsbD i || ie) := by
  cases ie
  · simp
  · simp [getLsbD_setBit _ _ _ _ hi]

/-! ## Events of the input devices -/

theorem timerExpiry_disabled (s : State) (h : csrEna s.dev.timer.csr = false) : timerExpiry s = s := by
  simp [timerExpiry, h]

theorem keyArrival_disabled (s : State) (k : Byte) (h : csrEna s.dev.keyboard.csr = false) : keyArrival k s = s := by
  simp [keyArrival, h]

/-- The devices after the timer of an enabled input device reaches zero (R349). -/
theorem timerExpiry_dev (s : State) (hena : csrEna s.dev.timer.csr = true) (hio : csrIo s.dev.timer.csr = true) :
    (timerExpiry s).dev =
      { s.dev with
        timer := { s.dev.timer with csr := csrArrived s.dev.timer.csr }
        timerOf := s.dev.timerOf || csrDba s.dev.timer.csr
        irq := if csrIe s.dev.timer.csr then setBit s.dev.irq 0 true else s.dev.irq } := by
  simp [timerExpiry, hena, hio]

/-- The devices after a key arrives at an enabled input device (R350). -/
theorem keyArrival_dev (s : State) (k : Byte) (hena : csrEna s.dev.keyboard.csr = true)
    (hio : csrIo s.dev.keyboard.csr = true) :
    (keyArrival k s).dev =
      { s.dev with
        keyboard := ⟨csrArrived s.dev.keyboard.csr, k⟩
        keyboardOf := s.dev.keyboardOf || csrDba s.dev.keyboard.csr
        irq := if csrIe s.dev.keyboard.csr then setBit s.dev.irq 1 true else s.dev.irq } := by
  simp [keyArrival, hena, hio]

/-- Settles O21: the new control/status byte is `csrArrived` of the old one, and the request is raised by IE. -/
theorem inputDeviceEvents : Obligations.InputDeviceEvents := by
  refine ⟨timerExpiry_disabled, keyArrival_disabled, ?timer, ?keyboard⟩
  case timer =>
    rintro s t hena hio rfl
    obtain ⟨hdba, hof, hrest⟩ := csrArrived_spec s.dev.timer.csr
    rw [timerExpiry_dev s hena hio]
    exact ⟨hdba, hof, hrest, rfl, getLsbD_raised _ 0 _ (by decide), rfl, rfl, rfl, rfl⟩
  case keyboard =>
    rintro s t k hena hio rfl
    obtain ⟨hdba, hof, hrest⟩ := csrArrived_spec s.dev.keyboard.csr
    rw [keyArrival_dev s k hena hio]
    exact ⟨hdba, hof, hrest, rfl, getLsbD_raised _ 1 _ (by decide), rfl, rfl, rfl, rfl⟩

/-! ## The screen -/

/-- A write of the DR of an enabled output screen with nothing in transit (R351). -/
theorem storeByte_screenDr (s : State) (b : Byte) (hena : csrEna s.dev.screen.csr = true)
    (hio : csrIo s.dev.screen.csr = false) (hnone : s.dev.transit = []) :
    storeByte 5#16 b s =
      { s with dev := { s.dev with
          screen := ⟨csrSetDba s.dev.screen.csr false, b⟩
          transit := [⟨b, true⟩]
          irq := setBit s.dev.irq 2 false } } := by
  rw [storeByte_port _ _ _ (by decide)]
  simp [portWrite, writeScreenDr, screenTransit, State.clearRequest, hena, hio, hnone]

/-- The completion of a byte that an enabled output screen was given (R351). -/
theorem screenDone_enabled (s : State) (b : Byte) (rest : List Transit) (ht : s.dev.transit = ⟨b, true⟩ :: rest)
    (hena : csrEna s.dev.screen.csr = true) (hio : csrIo s.dev.screen.csr = false) :
    screenDone s =
      { s with dev := { s.dev with
          screen := { s.dev.screen with csr := csrSetDba s.dev.screen.csr true }
          transit := rest
          console := s.dev.console ++ [b]
          irq := if csrIe s.dev.screen.csr then setBit s.dev.irq 2 true else s.dev.irq } } := by
  simp [screenDone, ht, hena, hio]

/-- Settles O22: the write leaves the screen enabled, so the completion that follows is the one of its byte. -/
theorem screenOutput : Obligations.ScreenOutput := by
  rintro s t u b hena hio hnone rfl rfl
  obtain ⟨hena', hie', hio'⟩ := csrSetDba_controls s.dev.screen.csr false
  rw [storeByte_screenDr s b hena hio hnone, screenDone_enabled _ b [] ?transit ?ena ?io]
  case transit => rfl
  case ena => exact hena'.trans hena
  case io => exact hio'.trans hio
  have hirq : (setBit s.dev.irq 2 false).getLsbD 2 = false := by rw [getLsbD_setBit _ _ _ _ (by decide)]; rfl
  refine ⟨rfl, csrDba_csrSetDba _ _, rfl, rfl, hirq, rfl, csrDba_csrSetDba _ _, rfl, ?_, rfl, rfl, rfl⟩
  exact (getLsbD_raised _ 2 _ (by decide)).trans (by rw [hirq, hie', Bool.false_or])

/-! ## CPU writes and reads of the device registers -/

/-- The registers of devices 3 to 7 are no register of the other three (R357). -/
theorem portWrite_absent (a : Word) (b : Byte) (s : State) (h : 6 ≤ a.toNat) :
    portWrite a b s = s.clearRequest (a.toNat / 2) := by
  unfold portWrite
  split
  case h_7 => rfl
  all_goals omega

/-- Settles O23, by running the write at each address. -/
theorem csrWriteKeepsStatus : Obligations.CsrWriteKeepsStatus := by
  intro s b
  refine ⟨⟨csrWritten_spec _ b, rfl, rfl, rfl⟩, ⟨csrWritten_spec _ b, rfl, rfl, rfl⟩,
    ⟨csrWritten_spec _ b, rfl, rfl, rfl⟩, ⟨rfl, rfl, rfl⟩, rfl, ?absent⟩
  case absent =>
    intro a hlow hhigh
    rw [storeByte_port a b s hhigh, portWrite_absent a b s hlow]

/-- A read of the timer's CSR (R349). -/
theorem loadByte_timerCsr (s : State) :
    (loadByte 0#16 s).1 = csrSeen s.dev.timer.csr s.dev.timerOf s.freeWord ∧
    (loadByte 0#16 s).2.dev.timer.csr = csrSetDba s.dev.timer.csr false := by
  have hread : loadByte 0#16 s = readTimerCsr s := rfl
  rw [hread]
  unfold readTimerCsr
  cases s.dev.timerOf <;> exact ⟨rfl, rfl⟩

/-- A read of the keyboard's CSR (R350). -/
theorem loadByte_keyboardCsr (s : State) :
    (loadByte 2#16 s).1 = csrSeen s.dev.keyboard.csr s.dev.keyboardOf s.freeWord ∧
    (loadByte 2#16 s).2.dev.keyboard = s.dev.keyboard := by
  have hread : loadByte 2#16 s = readKeyboardCsr s := rfl
  rw [hread]
  unfold readKeyboardCsr
  cases s.dev.keyboardOf <;> exact ⟨rfl, rfl⟩

/-- Before OF was first set a CSR is read as it stands (R359, log 26). -/
theorem csrSeen_before (csr : Byte) (free : Word) : csrSeen csr false free = csr := rfl

/-- Settles O25: the two CSRs by the lemmas above, the other registers by running the read. -/
theorem deviceReads : Obligations.DeviceReads := by
  intro s
  obtain ⟨htimer, htimer'⟩ := loadByte_timerCsr s
  obtain ⟨hkey, hkey'⟩ := loadByte_keyboardCsr s
  refine ⟨?timer, htimer', ?dba, rfl, ?keyboard, hkey', rfl, rfl, rfl, rfl⟩
  case timer => intro hof; rw [htimer, hof, csrSeen_before]
  case dba => rw [htimer, csrDba_csrSeen]
  case keyboard => intro hof; rw [hkey, hof, csrSeen_before]

end Sys2Proof.Machine
end

section
/-! The interrupt controller (R310, R352 to R356): the pending devices of the highest priority, the selection among them, and when an interrupt is accepted. -/

namespace Sys2Proof.Machine

/-! ## The candidates -/

theorem mem_deviceNumbers (d : BitVec 3) : d ∈ deviceNumbers := by revert d; decide

/-- The candidates are the pending devices that no pending device exceeds (R355). -/
theorem mem_picCandidates (m : Memory) (v : Devices) (d : BitVec 3) :
    d ∈ picCandidates m v ↔
      pending v d = true ∧ ∀ e, pending v e = true → prio m (deviceVector e) ≤ prio m (deviceVector d) := by
  simp only [picCandidates, List.mem_filter, List.all_eq_true, decide_eq_true_eq, mem_deviceNumbers, true_and]

/-- There is a candidate where a device is pending: of finitely many priorities one is the highest. -/
theorem exists_picCandidate (m : Memory) (v : Devices) (d : BitVec 3) (hd : pending v d = true) :
    ∃ e, e ∈ picCandidates m v := by
  have hmem : ∀ e, pending v e = true → e ∈ deviceNumbers.filter (pending v) := fun e he =>
    List.mem_filter.2 ⟨mem_deviceNumbers e, he⟩
  cases hmax : (deviceNumbers.filter (pending v)).argmax fun e => (prio m (deviceVector e)).toNat with
  | none => rw [List.argmax_eq_none.1 hmax] at hmem; exact absurd (hmem d hd) (by simp)
  | some e =>
    have he := (List.mem_filter.1 (List.argmax_mem hmax)).2
    exact ⟨e, (mem_picCandidates m v e).2 ⟨he, fun x hx => List.le_of_mem_argmax (hmem x hx) hmax⟩⟩

/-! ## The selection -/

/-- A draw among some devices gives one of them (log 23). -/
theorem mem_of_choose (ds : List (BitVec 3)) (free : Word) (d : BitVec 3) (h : choose ds free = some d) : d ∈ ds := by
  unfold choose at h
  split at h
  · cases h
  · cases h; exact List.mem_singleton_self _
  · exact List.mem_of_getElem? h

/-- A draw among some devices fails only where there is none. -/
theorem choose_eq_none_iff (ds : List (BitVec 3)) (free : Word) : choose ds free = none ↔ ds = [] := by
  unfold choose
  split
  · simp
  · simp
  · rename_i d e rest
    have hlt : free.toNat % (rest.length + 2) < (d :: e :: rest).length := Nat.mod_lt _ (by simp)
    simp [List.getElem?_eq_getElem hlt]

theorem picSelect_some (s : State) (d : BitVec 3) (h : picSelect s = some d) :
    pending s.dev d = true ∧ ∀ e, pending s.dev e = true → prio s.mem (deviceVector e) ≤ prio s.mem (deviceVector d) :=
  (mem_picCandidates _ _ _).1 (mem_of_choose _ _ _ h)

theorem picSelect_eq_none_iff (s : State) : picSelect s = none ↔ ∀ d, pending s.dev d = false := by
  rw [picSelect, choose_eq_none_iff, List.eq_nil_iff_forall_not_mem]
  constructor
  · intro hnone d
    by_contra hd
    obtain ⟨e, he⟩ := exists_picCandidate s.mem s.dev d (by simpa using hd)
    exact hnone e he
  · intro hidle d hd
    have := ((mem_picCandidates _ _ _).1 hd).1
    rw [hidle d] at this
    cases this

/-- Settles O12. -/
theorem picSelectsMaximum : Obligations.PicSelectsMaximum := ⟨picSelect_some, picSelect_eq_none_iff⟩

/-! ## The device above a priority -/

/-- Some device is above a priority where a pending one is: the selected device's priority is no lower (R310, R341). -/
theorem exists_picAbove_iff (p : BitVec 3) (s : State) :
    (∃ d, picAbove p s = some d) ↔ ∃ d, pending s.dev d = true ∧ p < prio s.mem (deviceVector d) := by
  constructor
  · rintro ⟨d, h⟩
    obtain ⟨hsel, hlt⟩ := picAbove_some p s d h
    exact ⟨d, picSelect_pending s d hsel, hlt⟩
  · rintro ⟨d, hd, hlt⟩
    cases hsel : picSelect s with
    | none => rw [(picSelect_eq_none_iff s).1 hsel d] at hd; cases hd
    | some e =>
      have hle := (picSelect_some s e hsel).2 d hd
      exact ⟨e, by rw [picAbove, hsel]; exact if_pos (Nat.lt_of_lt_of_le hlt hle)⟩

/-- An interrupt is accepted at a boundary where the PC is not #FFFF, and then it is the device above CUR (R304 line 1, log 36). -/
theorem acceptable_eq_some_iff (s : State) (d : BitVec 3) :
    acceptable s = some d ↔ s.pc ≠ 0xFFFF#16 ∧ picAbove (Psw.cur s.psw) s = some d := by
  unfold acceptable
  split <;> simp_all

/-- Settles O11. -/
theorem interruptAcceptedExactly : Obligations.InterruptAcceptedExactly := by
  intro s
  simp only [acceptable_eq_some_iff, exists_and_left, exists_picAbove_iff]

end Sys2Proof.Machine
end

section
/-! Exceptions (R312 to R341): the fields of a handler's PSW, the frame in memory, entry, faults and SVC, the saved CEX word, and the return, which undoes the entry. -/

namespace Sys2Proof.Machine

/-! ## Fields of the PSW by its bits (R31) -/

/-- A handler's PSW has the vector's bits below PREV, but for SLP and FLT (R312). -/
theorem getLsbD_handlerPsw (vector old : Word) (fault : Bool) (j : Nat) (h13 : j < 13) (h3 : j ≠ 3) (h8 : j ≠ 8) :
    (handlerPsw vector old fault).getLsbD j = vector.getLsbD j := by
  have hprev : (Psw.setPrev (Psw.setSlp (Psw.loaded vector) false) (Psw.cur old)).getLsbD j = vector.getLsbD j := by
    rw [getLsbD_setPrev, if_pos h13, Psw.setSlp, getLsbD_setBit _ _ _ _ (by decide), if_neg h3, loaded_eq]
  cases fault
  case false => exact hprev
  case true =>
    show (setBit _ 8 true).getLsbD j = _
    rw [getLsbD_setBit _ _ _ _ (by decide), if_neg h8, hprev]

/-- V, N, Z, C and RSV of a handler's PSW are the vector's (R312). -/
theorem handlerPsw_conditions (vector old : Word) (fault : Bool) :
    Psw.rsv (handlerPsw vector old fault) = Psw.rsv vector ∧
    Psw.v (handlerPsw vector old fault) = Psw.v vector ∧ Psw.n (handlerPsw vector old fault) = Psw.n vector ∧
    Psw.z (handlerPsw vector old fault) = Psw.z vector ∧ Psw.c (handlerPsw vector old fault) = Psw.c vector := by
  have hbit := getLsbD_handlerPsw vector old fault
  refine ⟨?rsv, hbit 4 (by decide) (by decide) (by decide), hbit 2 (by decide) (by decide) (by decide),
    hbit 1 (by decide) (by decide) (by decide), hbit 0 (by decide) (by decide) (by decide)⟩
  case rsv =>
    apply BitVec.eq_of_getLsbD_eq
    intro j hj
    simp only [Psw.rsv, BitVec.getLsbD_extractLsb', hj, decide_true, Bool.true_and]
    exact hbit (9 + j) (by omega) (by omega) (by omega)

/-- A PSW loaded with SLP cleared is the word under the mask of every bit but SLP (R37, R340). -/
theorem setSlp_loaded (w : Word) : Psw.setSlp (Psw.loaded w) false = w &&& 0xFFF7#16 := rfl

/-! ## The frame in memory (R313) -/

/-- Accesses in different words touch different even addresses. -/
theorem wordAddr_ne_of_div (a b : Word) (h : a.toNat / 2 ≠ b.toNat / 2) : wordAddr a ≠ wordAddr b := by
  intro heq
  have := congrArg BitVec.toNat heq
  rw [wordAddr_toNat, wordAddr_toNat] at this
  omega

/-- A word store leaves every other word. -/
theorem readWord_writeWord_ne (m : Memory) (a b v : Word) (h : a.toNat / 2 ≠ b.toNat / 2) :
    Memory.readWord (Memory.writeWord m b v) a = Memory.readWord m a := by
  have hw := wordAddr_toNat a
  have hw' := wordAddr_toNat b
  have hs := wordAddr_succ_toNat a
  have hs' := wordAddr_succ_toNat b
  have hlow : wordAddr a ≠ wordAddr b + 1#16 := fun e => by have := congrArg BitVec.toNat e; omega
  have hhigh : wordAddr a + 1#16 ≠ wordAddr b := fun e => by have := congrArg BitVec.toNat e; omega
  have hboth : wordAddr a + 1#16 ≠ wordAddr b + 1#16 := fun e => by have := congrArg BitVec.toNat e; omega
  unfold Memory.readWord
  rw [readByte_writeWord_ne _ _ _ _ (wordAddr_ne_of_div a b h) hlow, readByte_writeWord_ne _ _ _ _ hhigh hboth]

/-- The four words of a frame in ordinary memory. -/
theorem ordinary_of_frame (sp : Word) (h : ∀ a ∈ frameBytes sp, ordinary a) :
    ordinary (sp - 2#16) ∧ ordinary (sp - 4#16) ∧ ordinary (sp - 6#16) ∧ ordinary (sp - 8#16) := by
  have hword (a : Word) (ha : wordAddr a ∈ frameBytes sp) : ordinary a := by
    have h1 := h _ ha
    have h2 := wordAddr_toNat a
    simp only [ordinary] at h1 ⊢
    omega
  refine ⟨hword _ ?_, hword _ ?_, hword _ ?_, hword _ ?_⟩ <;> simp [frameBytes, accessBytes]

/-- The words of a frame are four different ones, wherever the stack pointer stands. -/
theorem frame_words_ne (sp : Word) :
    (sp - 2#16).toNat / 2 ≠ (sp - 4#16).toNat / 2 ∧ (sp - 2#16).toNat / 2 ≠ (sp - 6#16).toNat / 2 ∧
    (sp - 2#16).toNat / 2 ≠ (sp - 8#16).toNat / 2 ∧ (sp - 4#16).toNat / 2 ≠ (sp - 6#16).toNat / 2 ∧
    (sp - 4#16).toNat / 2 ≠ (sp - 8#16).toNat / 2 ∧ (sp - 6#16).toNat / 2 ≠ (sp - 8#16).toNat / 2 := by
  have := sp.isLt
  simp only [BitVec.toNat_sub, BitVec.toNat_ofNat]
  omega

/-- The four pushes write no byte outside the frame. -/
theorem pushFrame_frame (pc : Word) (s : State) : sameMemoryBut (frameBytes s.sp) s (pushFrame pc s) := by
  obtain ⟨-, -, -, hmem⟩ := pushFrame_spec pc s
  intro a ha
  simp only [frameBytes, accessBytes, sp_eq_reg, List.mem_append, List.mem_cons, List.not_mem_nil, or_false, not_or] at ha
  obtain ⟨⟨⟨⟨h2, h2'⟩, ⟨h4, h4'⟩⟩, ⟨h6, h6'⟩⟩, ⟨h8, h8'⟩⟩ := ha
  rw [hmem, readByte_writeWord_ne _ _ _ _ h8 h8', readByte_writeWord_ne _ _ _ _ h6 h6',
    readByte_writeWord_ne _ _ _ _ h4 h4', readByte_writeWord_ne _ _ _ _ h2 h2']

/-- The words of a frame in ordinary memory read as the values pushed (R312 steps 1 to 4). -/
theorem pushFrame_words (pc : Word) (s : State) (hwf : Memory.wf s.mem) (hord : ∀ a ∈ frameBytes s.sp, ordinary a) :
    Memory.readWord (pushFrame pc s).mem (s.sp - 2#16) = pc ∧ Memory.readWord (pushFrame pc s).mem (s.sp - 4#16) = s.lr ∧
    Memory.readWord (pushFrame pc s).mem (s.sp - 6#16) = s.psw ∧
    Memory.readWord (pushFrame pc s).mem (s.sp - 8#16) = cexPack s.cex := by
  obtain ⟨o2, o4, o6, o8⟩ := ordinary_of_frame s.sp hord
  obtain ⟨n24, n26, n28, n46, n48, n68⟩ := frame_words_ne s.sp
  obtain ⟨-, -, -, hmem⟩ := pushFrame_spec pc s
  have w2 := wf_writeWord _ (s.sp - 2#16) pc hwf
  have w4 := wf_writeWord _ (s.sp - 4#16) s.lr w2
  have w6 := wf_writeWord _ (s.sp - 6#16) s.psw w4
  rw [hmem, ← sp_eq_reg, ← lr_eq_reg]
  refine ⟨?_, ?_, ?_, readWord_writeWord_same _ _ _ w6 o8⟩
  · rw [readWord_writeWord_ne _ _ _ _ n28, readWord_writeWord_ne _ _ _ _ n26, readWord_writeWord_ne _ _ _ _ n24]
    exact readWord_writeWord_same _ _ _ hwf o2
  · rw [readWord_writeWord_ne _ _ _ _ n48, readWord_writeWord_ne _ _ _ _ n46]
    exact readWord_writeWord_same _ _ _ w2 o4
  · rw [readWord_writeWord_ne _ _ _ _ n68]
    exact readWord_writeWord_same _ _ _ w4 o6

/-- A push to ordinary memory touches no device and draws nothing (R73). -/
theorem push_ordinary (v : Word) (s : State) (h : ordinary (s.sp - 2#16)) :
    (push v s).dev = s.dev ∧ (push v s).draws = s.draws := by
  have h' : 16 ≤ ((s.setReg .r6 (s.sp - 2#16)).sp).toNat := by simpa using h
  rw [push, storeWord_ordinary _ _ _ h']
  exact ⟨rfl, rfl⟩

/-- The pushes to a frame in ordinary memory touch no device and draw nothing (R73). -/
theorem pushFrame_ordinary (pc : Word) (s : State) (hord : ∀ a ∈ frameBytes s.sp, ordinary a) :
    (pushFrame pc s).dev = s.dev ∧ (pushFrame pc s).draws = s.draws := by
  obtain ⟨o2, o4, o6, o8⟩ := ordinary_of_frame s.sp hord
  have hsp (v : Word) (s : State) : (push v s).sp = s.sp - 2#16 := by simp [push_reg]
  have e4 : s.sp - 4#16 = s.sp - 2#16 - 2#16 := by rw [BitVec.sub_sub]; rfl
  have e6 : s.sp - 6#16 = s.sp - 2#16 - 2#16 - 2#16 := by rw [BitVec.sub_sub, BitVec.sub_sub]; rfl
  have e8 : s.sp - 8#16 = s.sp - 2#16 - 2#16 - 2#16 - 2#16 := by rw [BitVec.sub_sub, BitVec.sub_sub, BitVec.sub_sub]; rfl
  obtain ⟨dev1, draws1⟩ := push_ordinary pc s o2
  rw [e4, ← hsp pc s] at o4
  rw [e6, ← hsp pc s] at o6
  rw [e8, ← hsp pc s] at o8
  simp only [pushFrame]
  generalize push pc s = s1 at *
  obtain ⟨dev2, draws2⟩ := push_ordinary s1.lr s1 o4
  rw [← hsp s1.lr s1] at o6 o8
  generalize push s1.lr s1 = s2 at *
  obtain ⟨dev3, draws3⟩ := push_ordinary s2.psw s2 o6
  rw [← hsp s2.psw s2] at o8
  obtain ⟨dev4, draws4⟩ := push_ordinary (cexPack (push s2.psw s2).cex) _ o8
  exact ⟨dev4.trans (dev3.trans (dev2.trans dev1)), draws4.trans (draws3.trans (draws2.trans draws1))⟩

/-! ## Exception entry -/

/-- What an entry leaves: R0 to R4 and all memory outside the frame (R312, R313). -/
theorem enter_frame (n : BitVec 4) (pc : Word) (fault : Bool) (s : State) :
    sameRegsBut [.r5, .r6, .r7] s (enter n pc fault s) ∧ sameMemoryBut (frameBytes s.sp) s (enter n pc fault s) := by
  obtain ⟨-, hmem, -, -, -, -, hreg⟩ := enter_spec n pc fault s
  refine ⟨?regs, ?mem⟩
  case regs =>
    intro r hr
    simp only [List.mem_cons, List.not_mem_nil, or_false, not_or] at hr
    obtain ⟨h5, h6, h7⟩ := hr
    rw [hreg, if_neg h7, if_neg h6, if_neg h5]
  case mem => intro a ha; rw [hmem]; exact pushFrame_frame pc s a ha

/-- An entry touches devices and draws by its pushes only. -/
theorem enter_dev (n : BitVec 4) (pc : Word) (fault : Bool) (s : State) :
    (enter n pc fault s).dev = (pushFrame pc s).dev ∧ (enter n pc fault s).draws = (pushFrame pc s).draws := by
  simp only [enter, setCex_dev, setReg_dev, setPsw_dev, setCex_draws, setReg_draws, setPsw_draws, and_self]

/-- Settles O13: the pushes give the frame, and the vector's words, read from memory after them, give the PSW and the PC. -/
theorem exceptionEntryFrame : Obligations.ExceptionEntryFrame := by
  rintro s _ n pc _ fault hwf rfl rfl
  obtain ⟨hpsw, hmem, hcex, hhalted, hstuck, hinbox, hreg⟩ := enter_spec n pc fault s
  obtain ⟨hregs, hmemory⟩ := enter_frame n pc fault s
  obtain ⟨hslp, hprev, hcur, hflt⟩ := handlerPsw_fields (vectorPsw (pushFrame pc s).mem n) s.psw fault
  obtain ⟨hrsv, hv, hn, hz, hc⟩ := handlerPsw_conditions (vectorPsw (pushFrame pc s).mem n) s.psw fault
  rw [← hpsw, ← hmem] at hcur hflt hrsv hv hn hz hc
  rw [← hpsw] at hslp hprev
  have hentry : vectorAddr n + 2#16 = 0xFFC2#16 + 4#16 * n.setWidth 16 := by
    rw [vectorAddr, add_right_comm]; rfl
  refine ⟨hreg .r6, hreg .r5, ?pc, hregs, hcex, hcur, hprev, hslp, hflt, hrsv, hv, hn, hz, hc, hmemory, hhalted, hstuck,
    hinbox, ?ordinary⟩
  case pc => rw [pc_eq_reg, hreg, if_pos rfl, vectorEntry, hentry, hmem]
  case ordinary =>
    intro hord
    obtain ⟨wpc, wlr, wpsw, wcex⟩ := pushFrame_words pc s hwf hord
    obtain ⟨hdev, hdraws⟩ := pushFrame_ordinary pc s hord
    obtain ⟨edev, edraws⟩ := enter_dev n pc fault s
    rw [hmem]
    exact ⟨wpc, wlr, wpsw, wcex, edev.trans hdev, edraws.trans hdraws⟩

/-! ## Faults and SVC -/

/-- Settles O14: a fault halts the machine, or leaves it stuck, or is the entry. -/
theorem faultEntry : Obligations.FaultEntry := by
  refine ⟨⟨rfl, rfl, rfl⟩, ?_⟩
  rintro c s _ rfl
  rcases raise_cases c s with ⟨hflt, heq⟩ | ⟨hflt, hle, heq⟩ | ⟨hflt, hlt, heq⟩ <;> rw [heq]
  case inl =>
    refine ⟨fun _ => ⟨rfl, rfl, fun _ _ => rfl, rfl, rfl, fun _ _ => rfl, rfl, rfl, rfl⟩, fun h => ?_, fun h => ?_⟩ <;>
      simp [hflt] at h
  case inr.inl =>
    refine ⟨fun h => ?_, fun _ _ => ⟨rfl, rfl, fun _ _ => rfl, rfl, rfl, fun _ _ => rfl, rfl, rfl, rfl⟩, fun _ h => ?_⟩
    · simp [hflt] at h
    · exact absurd hle (BitVec.not_le.2 h)
  case inr.inr =>
    refine ⟨fun h => ?_, fun _ h => ?_, fun _ _ => ?_⟩
    · simp [hflt] at h
    · exact absurd hlt (BitVec.not_lt.2 h)
    · obtain ⟨hpsw, -, hcex, hhalted, hstuck, -, hreg⟩ := enter_spec c.vector s.pc true s
      obtain ⟨hregs, hmemory⟩ := enter_frame c.vector s.pc true s
      obtain ⟨-, hprev, -, hfault⟩ := handlerPsw_fields (vectorPsw (pushFrame s.pc s).mem c.vector) s.psw true
      rw [← hpsw] at hprev hfault
      exact ⟨rfl, hfault, hprev, hreg .r5, hreg .r6, hcex, hregs, hmemory, hhalted, hstuck⟩

/-- SVC of a vector above CUR is the entry through it (R268, R330). -/
theorem exec_svc_of_lt (sa : BitVec 4) (s : State) (h : Psw.cur s.psw < prio s.mem sa) :
    exec (.svc sa) s = .next (enter sa s.pc false s) := if_pos h

/-- SVC of any other vector raises the priority fault (R268). -/
theorem exec_svc_of_le (sa : BitVec 4) (s : State) (h : prio s.mem sa ≤ Psw.cur s.psw) :
    exec (.svc sa) s = .next (raise .priority s) := if_neg (BitVec.not_lt.2 h)

/-- Settles O58. -/
theorem svcResult : Obligations.SvcResult := by
  intro sa s
  refine ⟨fun hlt => ⟨_, exec_svc_of_lt sa s hlt, rfl, ?_⟩, exec_svc_of_le sa s⟩
  obtain ⟨hpsw, hmem, hcex, -, -, -, hreg⟩ := enter_spec sa s.pc false s
  obtain ⟨hslp, hprev, -, hflt⟩ := handlerPsw_fields (vectorPsw (pushFrame s.pc s).mem sa) s.psw false
  rw [← hpsw] at hslp hprev
  rw [← hpsw, ← hmem, Bool.false_or] at hflt
  have hpc : (enter sa s.pc false s).pc = vectorEntry (enter sa s.pc false s).mem sa := by
    rw [pc_eq_reg, hreg, if_pos rfl, hmem]
  exact ⟨hreg .r5, hreg .r6, hcex, hslp, hprev, hflt, hpc, enter_frame sa s.pc false s⟩

/-! ## The saved CEX word (R259) -/

/-- The suggested layout gives the CEX state back: all 256 of them. -/
theorem ofByte_code (c : Cex) : Cex.ofByte (c.code.extractLsb' 0 8) = c.settle := by
  rcases c with ⟨a, b, t, f⟩
  revert a b t f
  decide

/-- Settles O18: the permutation of log 7 is undone, and a state of R254's is settled. -/
theorem cexWordRoundTrip : Obligations.CexWordRoundTrip := by
  intro c hc
  have hsame : Cex.ofByte (c.code.extractLsb' 0 8) = c := (ofByte_code c).trans (settle_of_wf c hc)
  simp only [cexUnpack, cexPack, Equiv.symm_apply_apply, hsame, if_true]

/-! ## The return (R340) -/

/-- The pull of a frame in ordinary memory: the four words from SP upwards. -/
theorem pullFrame_ordinary (s : State) (h0 : ordinary s.sp) (h2 : ordinary (s.sp + 2#16)) (h4 : ordinary (s.sp + 4#16))
    (h6 : ordinary (s.sp + 6#16)) :
    (pullFrame s).cex = cexUnpack (Memory.readWord s.mem s.sp) ∧
    (pullFrame s).psw = Memory.readWord s.mem (s.sp + 2#16) &&& 0xFFF7#16 ∧
    (pullFrame s).lr = Memory.readWord s.mem (s.sp + 4#16) ∧
    (pullFrame s).pc = Memory.readWord s.mem (s.sp + 6#16) ∧
    (pullFrame s).dev = s.dev ∧ (pullFrame s).draws = s.draws := by
  have e4 : s.reg .r6 + 2#16 + 2#16 = s.reg .r6 + 4#16 := by rw [BitVec.add_assoc]; rfl
  have e6 : s.reg .r6 + 4#16 + 2#16 = s.reg .r6 + 6#16 := by rw [BitVec.add_assoc]; rfl
  rw [sp_eq_reg] at *
  simp only [ordinary] at *
  simp [pullFrame, pull_ordinary, h0, h2, h4, h6, e4, e6, -BitVec.toNat_add, -loaded_eq, setSlp_loaded]

/-- Settles O15. -/
theorem returnPullsFrame : Obligations.ReturnPullsFrame := by
  rintro s _ hnone hord rfl
  have heq : endOfException s = pullFrame s := by rw [endOfException, hnone]
  obtain ⟨o6, o4, o2, o0⟩ := ordinary_of_frame _ hord
  have e (a b : Word) : s.sp + a - b = s.sp + (a - b) := add_sub_assoc _ _ _
  rw [e] at o6 o4 o2 o0
  obtain ⟨hcex, hpsw, hlr, hpc, hdev, hdraws⟩ := pullFrame_ordinary s (by simpa using o0) o2 o4 o6
  obtain ⟨hmem, hhalted, hstuck, hinbox, -, -, hsp, hregs⟩ := pullFrame_spec s
  rw [heq]
  refine ⟨hcex, hpsw, hlr, hpc, hsp, ?regs, ?mem, hdev, hhalted, hstuck, hinbox, hdraws⟩
  case regs =>
    intro r hr
    simp only [List.mem_cons, List.not_mem_nil, or_false, not_or] at hr
    obtain ⟨h5, h6, h7⟩ := hr
    exact hregs r h5 h6 h7
  case mem => intro a _; rw [hmem]

/-- Settles O16: the chain is a new PSW, made as for an entry, and a new PC. -/
theorem tailChainEntersHandler : Obligations.TailChainEntersHandler := by
  rintro s _ d hd rfl
  have heq : endOfException s = tailChain d s.tick := by rw [endOfException, hd]
  obtain ⟨hsel, hlt⟩ := picAbove_some _ s d hd
  obtain ⟨hpsw, hmem, hcex, hdev, hhalted, hstuck, hreg⟩ := tailChain_spec d s.tick
  obtain ⟨hslp, hprev, hcur, hflt⟩ := handlerPsw_fields (vectorPsw s.mem (deviceVector d)) s.psw false
  obtain ⟨hrsv, hv, hn, hz, hc⟩ := handlerPsw_conditions (vectorPsw s.mem (deviceVector d)) s.psw false
  rw [tick_psw, tick_mem] at hpsw
  rw [← hpsw, ← heq] at hslp hprev hcur hflt hrsv hv hn hz hc
  rw [Bool.false_or] at hflt
  refine ⟨picSelect_pending s d hsel, hcur ▸ hlt, hcur, hprev, hslp, hflt, hv, hn, hz, hc, hrsv, ?_⟩
  rw [heq]
  refine ⟨hreg .r7, ?regs, hcex, ?mem, hdev, hhalted, hstuck, rfl⟩
  case regs => intro r hr; rw [hreg, if_neg (by simpa using hr), tick_reg]
  case mem => intro a _; rw [hmem, tick_mem]

/-- Settles O17: the entry leaves SP below a frame in ordinary memory and PREV at the interrupted code's priority, so the return
pulls that frame (O15); its words are the values pushed (O13), and the CEX word unpacks to the state packed (O18). -/
theorem entryThenReturnRestores : Obligations.EntryThenReturnRestores := by
  rintro s _ n fault hwf hcexwf hord hnone rfl
  obtain ⟨hsp, -, -, hregs, -, -, hprev, -, -, -, -, -, -, -, hmem, hhalted, hstuck, hinbox, hframe⟩ :=
    exceptionEntryFrame s _ n s.pc _ fault hwf rfl rfl
  obtain ⟨wpc, wlr, wpsw, wcex, hdev, hdraws⟩ := hframe hord
  generalize enter n s.pc fault s = e at *
  have hback : e.sp + 8#16 = s.sp := by rw [hsp, BitVec.sub_add_cancel]
  obtain ⟨rcex, rpsw, rlr, rpc, rsp, rregs, rmem, rdev, rhalted, rstuck, rinbox, rdraws⟩ :=
    returnPullsFrame e _ (by rw [hprev]; exact hnone) (by rw [hback]; exact hord) rfl
  have a2 : e.sp + 2#16 = s.sp - 6#16 := by rw [hsp]; bv_omega
  have a4 : e.sp + 4#16 = s.sp - 4#16 := by rw [hsp]; bv_omega
  have a6 : e.sp + 6#16 = s.sp - 2#16 := by rw [hsp]; bv_omega
  refine ⟨?regs, ?psw, ?cex, ?mem, rdev.trans hdev, rhalted.trans hhalted, rstuck.trans hstuck, rinbox.trans hinbox,
    rdraws.trans hdraws⟩
  case regs =>
    intro r _
    by_cases hr : r ∈ [Reg.r5, Reg.r6, Reg.r7]
    · simp only [List.mem_cons, List.not_mem_nil, or_false] at hr
      rcases hr with rfl | rfl | rfl
      · exact rlr.trans (by rw [a4]; exact wlr)
      · exact rsp.trans hback
      · exact rpc.trans (by rw [a6]; exact wpc)
    · exact (rregs r hr).trans (hregs r hr)
  case psw => rw [rpsw, a2, wpsw]
  case cex => rw [rcex, hsp, wcex]; exact cexWordRoundTrip s.cex hcexwf
  case mem => intro a ha; exact (rmem a (by simp)).trans (hmem a ha)

end Sys2Proof.Machine
end

section
/-! Register instructions: the operand forms (R14, R112, R170), and what MOVx, the logic and bit instructions, SWAP, the shifts, COMP, SWPB and SXT write and leave (R140 to R144, R180 to R187, R202, R211 to R215). -/

namespace Sys2Proof.Machine

/-! ## Operand forms -/

/-- Settles O34. A constant does not depend on the state, so its eight values are read off at both widths. -/
theorem operandForms : Obligations.OperandForms := by
  refine ⟨fun s r => ⟨opd_word s r, opd_byte s r⟩, fun _ _ _ => rfl, ?constants, fun s r v b => ⟨?word, ?low, ?high⟩⟩
  case constants => intro s wb; cases wb <;> exact ⟨rfl, rfl, rfl, rfl, rfl, rfl, rfl, rfl⟩
  case word => exact regw_reg_same s .word r v
  case low => rw [regw_reg_same, lowByte_mergeLow_byte]
  case high => rw [regw_reg_same, highByte_mergeLow_byte]

/-! ## MOVL, MOVLZ, MOVLS, MOVH -/

@[simp] theorem highByte_append (hi lo : Byte) : highByte (hi ++ lo) = hi := BitVec.extractLsb'_append_eq_left

@[simp] theorem lowByte_append (hi lo : Byte) : lowByte (hi ++ lo) = lo := BitVec.extractLsb'_append_eq_right

theorem exec_movl (b : Byte) (d : Reg) (s : State) :
    exec (.movl b d) s = .next (s.regw .word d (highByte (s.reg d) ++ b)) := rfl

theorem exec_movlz (b : Byte) (d : Reg) (s : State) : exec (.movlz b d) s = .next (s.regw .word d (0x00#8 ++ b)) := rfl

theorem exec_movls (b : Byte) (d : Reg) (s : State) : exec (.movls b d) s = .next (s.regw .word d (0xFF#8 ++ b)) := rfl

theorem exec_movh (b : Byte) (d : Reg) (s : State) :
    exec (.movh b d) s = .next (s.regw .word d (b ++ lowByte (s.reg d))) := rfl

/-- A word made of two bytes, written to a register: its bytes and the frame. -/
theorem exec_of_regw_append (i : Instr) (s : State) (d : Reg) (hi lo : Byte)
    (hexec : exec i s = .next (s.regw .word d (hi ++ lo))) :
    ∃ t, exec i s = .next t ∧ highByte (t.reg d) = hi ∧ lowByte (t.reg d) = lo ∧
      sameRegsBut [d] s t ∧ t.psw = s.psw ∧ sameMemoryBut [] s t ∧ sameRest s t := by
  have hreg : (s.regw .word d (hi ++ lo)).reg d = hi ++ lo := regw_reg_same s .word d _
  exact ⟨_, hexec, by rw [hreg, highByte_append], by rw [hreg, lowByte_append], regw_frame ..⟩

/-- Settles O35. -/
theorem movxResult : Obligations.MovxResult := by
  intro b d s
  exact ⟨⟨Laws.EncodeMatchesRow.movl b d, exec_of_regw_append _ s d _ _ (exec_movl b d s)⟩,
    ⟨Laws.EncodeMatchesRow.movlz b d, exec_of_regw_append _ s d _ _ (exec_movlz b d s)⟩,
    ⟨Laws.EncodeMatchesRow.movls b d, exec_of_regw_append _ s d _ _ (exec_movls b d s)⟩,
    ⟨Laws.EncodeMatchesRow.movh b d, exec_of_regw_append _ s d _ _ (exec_movh b d s)⟩⟩

/-! ## N and Z of a result. BIT, BIC, BIS, COMP, SWPB and SXT have the row of the logic instructions (R38, log 11). -/

/-- N and Z of a result under a row that writes both (R33, R34). -/
theorem writeFlags_resultFlags (psw : Word) (row : FlagMask) (hn : row.n = true) (hz : row.z = true) {w : Nat}
    (r : BitVec w) (c : Bool) :
    Psw.n (Psw.writeFlags psw row (resultFlags r c)) = r.msb ∧
    Psw.z (Psw.writeFlags psw row (resultFlags r c)) = (r == 0#w) := by
  obtain ⟨-, hpn, hpz, -⟩ := writeFlags_bits psw row (resultFlags r c)
  exact ⟨by rw [hpn, hn]; rfl, by rw [hpz, hz]; rfl⟩

/-- A result in its destination with the row of N and Z. -/
theorem answer_nz (s : State) (wb : Width) (d : Reg) (r : BitVec wb.bits) :
    (s.answer wb d Config.flagsLogic (r, resultFlags r false)).reg d = mergeLow wb (s.reg d) r ∧
    Psw.n (s.answer wb d Config.flagsLogic (r, resultFlags r false)).psw = r.msb ∧
    Psw.z (s.answer wb d Config.flagsLogic (r, resultFlags r false)).psw = (r == 0#wb.bits) := by
  obtain ⟨hreg, hpsw, -⟩ := answer_spec s wb d Config.flagsLogic (r, resultFlags r false)
  rw [hreg, hpsw, if_pos rfl]
  exact ⟨rfl, writeFlags_resultFlags s.psw _ rfl rfl r false⟩

/-! ## XOR, AND, OR -/

theorem exec_xor (wb : Width) (src : Source) (d : Reg) (s : State) : exec (.xor wb src d) s =
    .next (s.answer wb d Config.flagsLogic
      (s.opd wb d ^^^ s.source wb src, resultFlags (s.opd wb d ^^^ s.source wb src) false)) := rfl

theorem exec_and (wb : Width) (src : Source) (d : Reg) (s : State) : exec (.and wb src d) s =
    .next (s.answer wb d Config.flagsLogic
      (s.opd wb d &&& s.source wb src, resultFlags (s.opd wb d &&& s.source wb src) false)) := rfl

theorem exec_or (wb : Width) (src : Source) (d : Reg) (s : State) : exec (.or wb src d) s =
    .next (s.answer wb d Config.flagsLogic
      (s.opd wb d ||| s.source wb src, resultFlags (s.opd wb d ||| s.source wb src) false)) := rfl

/-- What an instruction does whose result goes to `d` with N and Z; `bits` says what the result is. -/
theorem exec_of_answer_nz (i : Instr) (s : State) (wb : Width) (d : Reg) (r : BitVec wb.bits)
    (hexec : exec i s = .next (s.answer wb d Config.flagsLogic (r, resultFlags r false)))
    (bits : BitVec wb.bits → Prop) (hbits : bits r) :
    ∃ (t : State) (r : BitVec wb.bits), exec i s = .next t ∧ t.reg d = mergeLow wb (s.reg d) r ∧ bits r ∧
      Psw.n t.psw = r.msb ∧ Psw.z t.psw = (r == 0#wb.bits) ∧
      sameRegsBut [d] s t ∧ samePswBut 0x6#16 s t ∧ sameMemoryBut [] s t ∧ sameRest s t := by
  obtain ⟨hreg, hn, hz⟩ := answer_nz s wb d r
  exact ⟨_, r, hexec, hreg, hbits, hn, hz, answer_frame ..⟩

/-- Settles O49. -/
theorem logicResult : Obligations.LogicResult := by
  intro wb src d s
  exact ⟨exec_of_answer_nz _ s wb d _ (exec_xor wb src d s) _ fun _ _ => BitVec.getLsbD_xor,
    exec_of_answer_nz _ s wb d _ (exec_and wb src d s) _ fun _ _ => BitVec.getLsbD_and,
    exec_of_answer_nz _ s wb d _ (exec_or wb src d s) _ fun _ _ => BitVec.getLsbD_or⟩

/-! ## BIT, BIC, BIS -/

theorem exec_bit (wb : Width) (src : Source) (d : Reg) (s : State) : exec (.bit wb src d) s =
    .next (s.setFlags Config.flagsLogic (resultFlags (s.opd wb d &&& bitMask (s.source wb src)) false)) := rfl

theorem exec_bic (wb : Width) (src : Source) (d : Reg) (s : State) : exec (.bic wb src d) s =
    .next (s.answer wb d Config.flagsLogic (s.opd wb d &&& ~~~(bitMask (s.source wb src)),
      resultFlags (s.opd wb d &&& ~~~(bitMask (s.source wb src))) false)) := rfl

theorem exec_bis (wb : Width) (src : Source) (d : Reg) (s : State) : exec (.bis wb src d) s =
    .next (s.answer wb d Config.flagsLogic (s.opd wb d ||| bitMask (s.source wb src),
      resultFlags (s.opd wb d ||| bitMask (s.source wb src)) false)) := rfl

/-- Settles O50: the mask of a bit number has that bit alone, or none where the number is not below the width. -/
theorem bitOperationResult : Obligations.BitOperationResult := by
  rintro wb src d s _ rfl
  refine ⟨?bit, ?bic, ?bis⟩
  case bit =>
    obtain ⟨hn, hz⟩ := writeFlags_resultFlags s.psw Config.flagsLogic rfl rfl
      (s.opd wb d &&& bitMask (s.source wb src)) false
    refine ⟨_, _, exec_bit wb src d s, fun j hj => ?_, by simp, hn, hz, setFlags_frame ..⟩
    rw [BitVec.getLsbD_and, getLsbD_bitMask _ j hj]
  case bic =>
    obtain ⟨t, r, hexec, hreg, hbits, hrest⟩ := exec_of_answer_nz _ s wb d _ (exec_bic wb src d s)
      (fun r => ∀ j, j < wb.bits → r.getLsbD j = ((s.opd wb d).getLsbD j && j != (s.source wb src).toNat)) fun j hj => by
        rw [BitVec.getLsbD_and, BitVec.getLsbD_not, getLsbD_bitMask _ j hj, decide_eq_true hj, Bool.true_and]; rfl
    exact ⟨t, r, hexec, hbits, fun _ => hreg, hrest⟩
  case bis =>
    obtain ⟨t, r, hexec, hreg, hbits, hrest⟩ := exec_of_answer_nz _ s wb d _ (exec_bis wb src d s)
      (fun r => ∀ j, j < wb.bits → r.getLsbD j = ((s.opd wb d).getLsbD j || j == (s.source wb src).toNat)) fun j hj => by
        rw [BitVec.getLsbD_or, getLsbD_bitMask _ j hj]
    exact ⟨t, r, hexec, hbits, fun _ => hreg, hrest⟩

/-! ## SWAP -/

theorem exec_swap (r d : Reg) (s : State) :
    exec (.swap r d) s = .next ((s.setReg d (s.reg r)).setReg r (s.reg d)) := rfl

/-- Settles O52. -/
theorem swapResult : Obligations.SwapResult := by
  intro r d s
  refine ⟨_, exec_swap r d s, ?dest, setReg_reg_same .., ?regs, rfl, fun _ _ => rfl, rfl, rfl, rfl, rfl, rfl, rfl⟩
  case dest =>
    by_cases h : d = r
    · subst h; exact setReg_reg_same ..
    · rw [setReg_reg_ne _ _ _ _ h, setReg_reg_same]
  case regs =>
    intro q hq
    simp only [List.mem_cons, List.not_mem_nil, or_false, not_or] at hq
    rw [setReg_reg_ne _ _ _ _ hq.1, setReg_reg_ne _ _ _ _ hq.2]

/-! ## SRA, RRC -/

/-- The bits of an operand shifted right by one (R211, R212). -/
theorem shiftedRight_bits {w : Nat} (hw : 0 < w) (x : BitVec w) (top : Bool) :
    (∀ j, j + 1 < w → (shiftedRight x top).1.getLsbD j = x.getLsbD (j + 1)) ∧ (shiftedRight x top).1.msb = top := by
  have hlast : w - 1 < w := by omega
  refine ⟨fun j hj => ?_, ?_⟩
  · have hne : j ≠ w - 1 := by omega
    rw [shiftedRight, getLsbD_setBit _ _ _ _ hlast, if_neg hne, BitVec.getLsbD_ushiftRight, Nat.add_comm]
  · rw [BitVec.msb_eq_getLsbD_last, shiftedRight, getLsbD_setBit _ _ _ _ hlast, if_pos rfl]

theorem exec_sra (wb : Width) (d : Reg) (s : State) : exec (.sra wb d) s =
    .next (s.answer wb d Config.flagsShift (shiftedRight (s.opd wb d) (s.opd wb d).msb)) := rfl

theorem exec_rrc (wb : Width) (d : Reg) (s : State) : exec (.rrc wb d) s =
    .next (s.answer wb d Config.flagsShift (shiftedRight (s.opd wb d) (Psw.c s.psw))) := rfl

/-- What SRA and RRC share: the shifted operand in the destination, the bit shifted out in C, and the frame. -/
theorem exec_of_answer_shift (i : Instr) (s : State) (wb : Width) (d : Reg) (top : Bool)
    (hexec : exec i s = .next (s.answer wb d Config.flagsShift (shiftedRight (s.opd wb d) top))) :
    ∃ (t : State) (r : BitVec wb.bits), exec i s = .next t ∧ t.reg d = mergeLow wb (s.reg d) r ∧
      (∀ j, j + 1 < wb.bits → r.getLsbD j = (s.opd wb d).getLsbD (j + 1)) ∧ r.msb = top ∧
      Psw.c t.psw = (s.opd wb d).getLsbD 0 ∧ Psw.n t.psw = r.msb ∧ Psw.z t.psw = (r == 0#wb.bits) ∧
      sameRegsBut [d] s t ∧ samePswBut 0x7#16 s t ∧ sameMemoryBut [] s t ∧ sameRest s t := by
  have hw : 0 < wb.bits := by cases wb <;> decide
  obtain ⟨hbits, htop⟩ := shiftedRight_bits hw (s.opd wb d) top
  obtain ⟨hreg, hpsw, -⟩ := answer_spec s wb d Config.flagsShift (shiftedRight (s.opd wb d) top)
  obtain ⟨-, hn, hz, hc⟩ := writeFlags_bits s.psw Config.flagsShift (shiftedRight (s.opd wb d) top).2
  rw [← hpsw] at hn hz hc
  exact ⟨_, _, hexec, by rw [hreg, if_pos rfl], hbits, htop, hc, hn, hz, answer_frame ..⟩

/-- Settles O53. -/
theorem shiftRightResult : Obligations.ShiftRightResult := by
  rintro wb d s _ rfl
  exact ⟨exec_of_answer_shift _ s wb d _ (exec_sra wb d s), exec_of_answer_shift _ s wb d _ (exec_rrc wb d s)⟩

/-! ## COMP, SWPB, SXT -/

theorem exec_comp (wb : Width) (d : Reg) (s : State) : exec (.comp wb d) s =
    .next (s.answer wb d Config.flagsLogic (~~~(s.opd wb d), resultFlags (~~~(s.opd wb d)) false)) := rfl

theorem exec_swpb (d : Reg) (s : State) : exec (.swpb d) s =
    .next (s.answer .word d Config.flagsLogic (lowByte (s.reg d) ++ highByte (s.reg d),
      resultFlags (lowByte (s.reg d) ++ highByte (s.reg d)) false)) := rfl

theorem exec_sxt (d : Reg) (s : State) : exec (.sxt d) s =
    .next (s.answer .word d Config.flagsLogic ((lowByte (s.reg d)).signExtend 16,
      resultFlags ((lowByte (s.reg d)).signExtend 16) false)) := rfl

/-- Settles O54: three results with N and Z; a word result is the whole register. -/
theorem compSwpbSxtResult : Obligations.CompSwpbSxtResult := by
  intro d s
  refine ⟨fun wb => exec_of_answer_nz _ s wb d _ (exec_comp wb d s) _ fun j hj => ?comp, ?swpb, ?sxt⟩
  case comp => rw [BitVec.getLsbD_not, decide_eq_true hj, Bool.true_and]
  case swpb =>
    obtain ⟨hreg, hn, hz⟩ := answer_nz s .word d (lowByte (s.reg d) ++ highByte (s.reg d))
    refine ⟨_, exec_swpb d s, ?_, ?_, ?_, ?_, answer_frame ..⟩ <;> rw [hreg]
    · exact highByte_append _ _
    · exact lowByte_append _ _
    · exact hn
    · exact hz
  case sxt =>
    obtain ⟨hreg, hn, hz⟩ := answer_nz s .word d ((lowByte (s.reg d)).signExtend 16)
    refine ⟨_, exec_sxt d s, ?_, ?_, ?_, answer_frame ..⟩ <;> rw [hreg]
    · exact BitVec.toInt_signExtend_of_le (by decide)
    · exact hn
    · exact hz

end Sys2Proof.Machine
end

section
/-! Decimal addition (R178), the conditions after CMP (R251), transfer of control (R230 to R240), CEX (R252) and SETCC (R272). -/

namespace Sys2Proof.Machine

/-! ## Decimal addition -/

/-- One digit of a decimal addition: the digit written and the carry stand for the sum of the two digits and the carry in. -/
theorem digit_sum (a b : Nat) (carry : Bool) (ha : a ≤ 9) (hb : b ≤ 9) :
    (if 10 ≤ a + b + carry.toNat then a + b + carry.toNat - 10 else a + b + carry.toNat) ≤ 9 ∧
    (if 10 ≤ a + b + carry.toNat then a + b + carry.toNat - 10 else a + b + carry.toNat) +
      10 * (decide (10 ≤ a + b + carry.toNat)).toNat = a + b + carry.toNat := by
  have hc : carry.toNat ≤ 1 := Bool.toNat_le carry
  split <;> simp_all <;> omega

/-- The digits of a decimal sum are decimal, and with the carry out they stand for the sum (R178). -/
theorem bcdAdd_spec (k a b : Nat) (carry : Bool) (ha : bcdValid k a = true) (hb : bcdValid k b = true) :
    bcdValid k (bcdAdd k a b carry).1 = true ∧ (bcdAdd k a b carry).1 < 16 ^ k ∧
    bcdValue k (bcdAdd k a b carry).1 + 10 ^ k * (bcdAdd k a b carry).2.toNat =
      bcdValue k a + bcdValue k b + carry.toNat := by
  induction k generalizing a b carry with
  | zero => simp [bcdValid, bcdAdd, bcdValue]
  | succ k ih =>
    simp only [bcdValid, Bool.and_eq_true, decide_eq_true_eq] at ha hb
    obtain ⟨hdigit, hsum⟩ := digit_sum (a % 16) (b % 16) carry ha.1 hb.1
    obtain ⟨hvalid, hlt, hvalue⟩ := ih (a / 16) (b / 16) (decide (10 ≤ a % 16 + b % 16 + carry.toNat)) ha.2 hb.2
    simp only [bcdAdd]
    generalize (if 10 ≤ a % 16 + b % 16 + carry.toNat then a % 16 + b % 16 + carry.toNat - 10
      else a % 16 + b % 16 + carry.toNat) = digit at *
    generalize decide (10 ≤ a % 16 + b % 16 + carry.toNat) = carry' at *
    generalize bcdAdd k (a / 16) (b / 16) carry' = rest at *
    have hmod : (digit + 16 * rest.1) % 16 = digit := by omega
    have hdiv : (digit + 16 * rest.1) / 16 = rest.1 := by omega
    refine ⟨?valid, ?bound, ?value⟩
    case valid => simp [bcdValid, hmod, hdiv, hdigit, hvalid]
    case bound => rw [Nat.pow_succ]; omega
    case value =>
      simp only [bcdValue, hmod, hdiv]
      rw [Nat.pow_succ, Nat.mul_right_comm]
      omega

theorem exec_dadd_of_valid (wb : Width) (src : Source) (d : Reg) (s : State)
    (hd : bcdValid (wb.bits / 4) (s.opd wb d).toNat = true) (hs : bcdValid (wb.bits / 4) (s.source wb src).toNat = true) :
    exec (.dadd wb src d) s =
      .next (s.answer wb d Config.flagsDadd (daddDecimal (s.opd wb d) (s.source wb src) (Psw.c s.psw))) :=
  if_pos (by rw [daddValid, hd, hs]; rfl)

theorem exec_dadd_of_invalid (wb : Width) (src : Source) (d : Reg) (s : State)
    (h : bcdValid (wb.bits / 4) (s.opd wb d).toNat = false ∨ bcdValid (wb.bits / 4) (s.source wb src).toNat = false) :
    exec (.dadd wb src d) s = .next (s.tick.tick.answer wb d Config.flagsDadd (daddFree s.freeWord s.tick.freeWord)) :=
  if_neg (by rcases h with h | h <;> simp [daddValid, h])

/-- A word holds four decimal digits and a byte two. -/
theorem sixteen_pow_digits (wb : Width) : 16 ^ (wb.bits / 4) = 2 ^ wb.bits := by cases wb <;> rfl

/-- Settles O47: the digits of the sum fit the width, so the result is the sum as `bcdAdd` gives it. -/
theorem daddDecimalSum : Obligations.DaddDecimalSum := by
  rintro wb src d s D S rfl rfl hD hS
  obtain ⟨hvalid, hlt, hvalue⟩ := bcdAdd_spec _ _ _ (Psw.c s.psw) hD hS
  obtain ⟨hreg, hpsw, -⟩ :=
    answer_spec s wb d Config.flagsDadd (daddDecimal (s.opd wb d) (s.source wb src) (Psw.c s.psw))
  obtain ⟨-, hn, hz, hc⟩ :=
    writeFlags_bits s.psw Config.flagsDadd (daddDecimal (s.opd wb d) (s.source wb src) (Psw.c s.psw)).2
  rw [← hpsw] at hn hz hc
  have hr : (daddDecimal (s.opd wb d) (s.source wb src) (Psw.c s.psw)).1.toNat =
      (bcdAdd (wb.bits / 4) (s.opd wb d).toNat (s.source wb src).toNat (Psw.c s.psw)).1 := by
    rw [sixteen_pow_digits] at hlt
    exact (BitVec.toNat_ofNat ..).trans (Nat.mod_eq_of_lt hlt)
  refine ⟨_, (daddDecimal (s.opd wb d) (s.source wb src) (Psw.c s.psw)).1, exec_dadd_of_valid wb src d s hD hS,
    by rw [hreg, if_pos rfl], ?valid, ?value, hn, hz, answer_frame ..⟩
  case valid => rw [hr]; exact hvalid
  case value => rw [hr, hc]; exact hvalue

/-- Settles O48: two draws, and a result in its destination with the row of DADD. -/
theorem daddInvalidCompletes : Obligations.DaddInvalidCompletes := by
  intro wb src d s h
  obtain ⟨hreg, -⟩ := answer_spec s.tick.tick wb d Config.flagsDadd (daddFree s.freeWord s.tick.freeWord)
  obtain ⟨hregs, hpsw, hmem, hcex, hdev, hhalted, hstuck, hinbox, -⟩ :=
    answer_frame s.tick.tick wb d Config.flagsDadd (daddFree s.freeWord s.tick.freeWord)
  exact ⟨_, exec_dadd_of_invalid wb src d s h, ⟨_, by rw [hreg, if_pos rfl]; rfl⟩, hregs, hpsw, hmem, hcex, hdev, hhalted,
    hstuck, hinbox⟩

/-! ## The conditions after CMP -/

/-- Settles O46: each condition is made of Z, C and N = V, which CMP leaves as equality and the two orders (O45). -/
theorem compareConditions : Obligations.CompareConditions := by
  rintro wb src d s t D S hD hS hexec
  obtain ⟨-, t', hexec', -, -, -, -, hz, hc, hnv, -⟩ :=
    cmpResult wb src d s D S (BitVec.ofNat _ (D.toNat + (~~~S).toNat + 1)) hD hS (BitVec.toNat_ofNat ..)
  obtain rfl : t' = t := Host.Outcome.next.inj (hexec'.symm.trans hexec)
  have hnat : D = S ↔ D.toNat = S.toNat := BitVec.toNat_inj.symm
  have hint : D = S ↔ D.toInt = S.toInt := BitVec.toInt_inj.symm
  have hz' : Psw.z t'.psw = false ↔ ¬ D = S := by rw [← hz, Bool.not_eq_true]
  have hc' : Psw.c t'.psw = false ↔ ¬ S.toNat ≤ D.toNat := by rw [← hc, Bool.not_eq_true]
  simp only [condHolds, Bool.and_eq_true, Bool.or_eq_true, Bool.not_eq_true', beq_iff_eq, bne_iff_ne, ne_eq,
    hz, hz', hc, hc', hnv]
  refine ⟨trivial, trivial, trivial, Nat.not_le, ?hi, ?ls, trivial, Int.not_le, ?gt, ?le⟩
  case hi | ls => rw [hnat]; omega
  case gt | le => rw [hint]; omega

/-! ## Transfer of control -/

/-- The offset shifted left is twice the signed offset (R231). -/
theorem branchTarget_eq {k : Nat} (s : State) (off : BitVec k) :
    branchTarget s off = s.pc + BitVec.ofInt 16 (2 * off.toInt) := by
  rw [branchTarget, BitVec.shiftLeft_eq_mul_twoPow, BitVec.signExtend, Int.mul_comm, BitVec.ofInt_mul]
  rfl

theorem exec_bl (off : BitVec 13) (s : State) :
    exec (.bl off) s = .next ((s.setReg .r5 s.pc).setReg .r7 (branchTarget s off)) := rfl

/-- A branch is one write of the PC, or nothing (R233 to R240, log 11). -/
theorem branchIf_eq {k : Nat} (taken : Bool) (off : BitVec k) (s : State) :
    branchIf taken off s = if taken then s.setReg .r7 (branchTarget s off) else s := rfl

/-- What the eight branches share. -/
theorem exec_of_branchIf (i : Instr) (s : State) (taken : Bool) (off : BitVec 10)
    (hexec : exec i s = .next (branchIf taken off s)) :
    ∃ t, exec i s = .next t ∧
      t.pc = (if taken then s.pc + BitVec.ofInt 16 (2 * off.toInt) else s.pc) ∧
      sameRegsBut [.r7] s t ∧ t.psw = s.psw ∧ sameMemoryBut [] s t ∧ sameRest s t := by
  refine ⟨_, hexec, ?_⟩
  rw [branchIf_eq]
  cases taken
  case false => exact ⟨rfl, fun _ _ => rfl, rfl, fun _ _ => rfl, rfl, rfl, rfl, rfl, rfl, rfl⟩
  case true => exact ⟨branchTarget_eq s off, regw_frame s .word .r7 (branchTarget s off)⟩

/-- Settles O55. -/
theorem transferOfControl : Obligations.TransferOfControl := by
  intro off far s
  refine ⟨⟨_, exec_bl far s, branchTarget_eq s far, rfl, ?regs, rfl, fun _ _ => rfl, rfl, rfl, rfl, rfl, rfl, rfl⟩,
    exec_of_branchIf _ s _ off rfl, exec_of_branchIf _ s _ off rfl, exec_of_branchIf _ s _ off rfl,
    exec_of_branchIf _ s _ off rfl, exec_of_branchIf _ s _ off rfl, exec_of_branchIf _ s _ off rfl,
    exec_of_branchIf _ s _ off rfl, exec_of_branchIf _ s true off rfl⟩
  case regs =>
    intro q hq
    simp only [List.mem_cons, List.not_mem_nil, or_false, not_or] at hq
    rw [setReg_reg_ne _ _ _ _ hq.2, setReg_reg_ne _ _ _ _ hq.1]

/-! ## CEX -/

theorem exec_cex (code : Cond) (t f : BitVec 3) (s : State) :
    exec (.cex code t f) s = .next (s.setCex (Cex.settle ⟨true, condHolds code s.psw, t, f⟩)) := rfl

/-- A block with a word to come is settled. -/
theorem settle_block (cond : Bool) (t f : BitVec 3) (h : t ≠ 0#3 ∨ f ≠ 0#3) :
    Cex.settle ⟨true, cond, t, f⟩ = ⟨true, cond, t, f⟩ :=
  settle_of_wf _ (by simpa [Cex.wf] using h)

/-- Settles O56. -/
theorem cexResult : Obligations.CexResult := by
  intro code tc fc s
  refine ⟨_, exec_cex code tc fc s, ?none, ?block, fun _ _ => rfl, rfl, fun _ _ => rfl, rfl, rfl, rfl, rfl, rfl⟩
  case none => rintro ⟨rfl, rfl⟩; rfl
  case block =>
    intro h
    rw [settle_block _ _ _ h]
    exact ⟨rfl, rfl, rfl, by cases code <;> rfl⟩

/-! ## SETCC -/

theorem exec_setcc (m : BitVec 5) (s : State) :
    exec (.setcc m) s = .next (s.setPsw (s.psw ||| (setccMask m s.psw).setWidth 16)) := rfl

/-- The bits that SETCC sets: the named ones, but for SLP at priority 7 (R272, log 39). -/
theorem getLsbD_setccMask (m : BitVec 5) (w : Word) (j : Nat) :
    (setccMask m w).getLsbD j = (m.getLsbD j && !(j == 3 && Psw.cur w == 7#3)) := by
  have hmask : (0b10111#5).getLsbD j = (decide (j < 5) && !(j == 3)) := by
    by_cases hj : j < 5
    · revert j; decide
    · simp [BitVec.getLsbD_of_ge _ j (Nat.le_of_not_lt hj), hj]
  unfold setccMask
  split
  case isTrue h =>
    rw [BitVec.getLsbD_and, hmask, h]
    by_cases hj : j < 5
    · simp [hj]
    · simp [BitVec.getLsbD_of_ge m j (Nat.le_of_not_lt hj)]
  case isFalse h => simp [h]

/-- Setting the bits of a mask, bit by bit. -/
theorem getLsbD_set (w : Word) (m : BitVec 5) (j : Nat) (hj : j < 16) :
    (w ||| m.setWidth 16).getLsbD j = (w.getLsbD j || m.getLsbD j) := by
  simp [hj]

/-- Settles O59: one PSW write, whose mask has no bit above bit 4. -/
theorem setccResult : Obligations.SetccResult := by
  intro m s
  refine ⟨_, exec_setcc m s, ?named, ?others, setPsw_frame ..⟩
  case named =>
    intro j hj
    rw [setPsw_psw, getLsbD_set _ _ j (by omega), getLsbD_setccMask]
  case others =>
    apply and_not_eq_of_getLsbD
    intro j hj hm
    have habove : 5 ≤ j := by revert j; decide
    rw [setPsw_psw, getLsbD_set _ _ j hj, BitVec.getLsbD_of_ge _ j habove, Bool.or_false]

end Sys2Proof.Machine
end

section
/-! Memory access (R150 to R158): what a load gives and a store writes at either width, in ordinary memory and at a device register; LD and ST in their modes, LDR and STR. -/

namespace Sys2Proof.Machine

/-! ## Loads and stores of either width -/

/-- A load from ordinary memory gives what memory holds and has no side effect (R66, R73). -/
theorem load_ordinary (wb : Width) (a : Word) (s : State) (h : ordinary a) :
    load wb a s = (memoryValue wb s.mem a, s) := by
  cases wb
  · exact loadWord_ordinary a s h
  · exact loadByte_ordinary a s h

/-- A store does the same whatever a register holds. -/
theorem store_setReg (wb : Width) (a : Word) (v : BitVec wb.bits) (s : State) (r : Reg) (x : Word) :
    store wb a v (s.setReg r x) = (store wb a v s).setReg r x := by
  cases wb
  · exact storeWord_setReg a v s r x
  · exact storeByte_setReg a v s r x

/-- A store writes no byte outside those its access touches (R66). -/
theorem store_frame (wb : Width) (a : Word) (v : BitVec wb.bits) (s : State) :
    sameMemoryBut (accessBytes wb a) s (store wb a v s) := by
  intro c hc
  cases wb with
  | word =>
    simp only [accessBytes, List.mem_cons, List.not_mem_nil, or_false, not_or] at hc
    exact (congrArg (Memory.readByte · c) (storeWord_mem a v s)).trans (readByte_writeWord_ne _ _ _ _ hc.1 hc.2)
  | byte =>
    simp only [accessBytes, List.mem_singleton] at hc
    exact (congrArg (Memory.readByte · c) (storeByte_mem a v s)).trans (readByte_writeByte_ne _ _ _ _ hc)

/-- What is stored in ordinary memory is read back, and no device is touched (R62, R73). -/
theorem store_ordinary (wb : Width) (a : Word) (v : BitVec wb.bits) (s : State) (hwf : Memory.wf s.mem) (h : ordinary a) :
    memoryValue wb (store wb a v s).mem a = v ∧ (store wb a v s).dev = s.dev ∧ (store wb a v s).draws = s.draws := by
  cases wb with
  | word =>
    rw [store, storeWord_ordinary a v s h]
    exact ⟨readWord_writeWord_same s.mem a v hwf h, rfl, rfl⟩
  | byte =>
    rw [store, storeByte_ordinary a v s h]
    exact ⟨readByte_writeByte_same s.mem a v hwf h, rfl, rfl⟩

/-- A store to a device register leaves memory (R74). -/
theorem store_port_mem (wb : Width) (a : Word) (v : BitVec wb.bits) (s : State) (h : ¬ ordinary a) :
    (store wb a v s).mem = s.mem := by
  have ha : a.toNat < 16 := Nat.lt_of_not_le h
  cases wb with
  | word =>
    have hlow := wordAddr_toNat a
    have hhigh := wordAddr_succ_toNat a
    rw [store, storeWord_mem, Memory.writeWord, writeByte_port _ _ _ (by omega), writeByte_port _ _ _ (by omega)]
  | byte => rw [store, storeByte_mem, writeByte_port _ _ _ ha]

/-- What a store does to memory and devices, in both kinds of address. -/
theorem store_spec (wb : Width) (a : Word) (v : BitVec wb.bits) (s t : State) (hwf : Memory.wf s.mem)
    (hmem : t.mem = (store wb a v s).mem) (hdev : t.dev = (store wb a v s).dev) (hdraws : t.draws = (store wb a v s).draws) :
    sameMemoryBut (accessBytes wb a) s t ∧
    (ordinary a → memoryValue wb t.mem a = v ∧ t.dev = s.dev ∧ t.draws = s.draws) ∧
    (¬ ordinary a → sameMemoryBut [] s t ∧ t.dev = (store wb a v s).dev) := by
  rw [hdev, hdraws]
  refine ⟨fun c hc => ?_, fun h => ?_, fun h => ⟨fun c _ => ?_, rfl⟩⟩ <;> rw [hmem]
  · exact store_frame wb a v s c hc
  · exact store_ordinary wb a v s hwf h
  · rw [store_port_mem wb a v s h]

/-! ## LDR and STR -/

theorem exec_ldr (off : BitVec 7) (wb : Width) (r d : Reg) (s : State) : exec (.ldr off wb r d) s =
    .next ((load wb (s.reg r + off.signExtend 16) s).2.regw wb d (load wb (s.reg r + off.signExtend 16) s).1) := rfl

theorem exec_str (off : BitVec 7) (wb : Width) (r d : Reg) (s : State) :
    exec (.str off wb r d) s = .next (store wb (s.reg d + off.signExtend 16) (s.opd wb r) s) := rfl

/-- Settles O38: a load, and a register write of its value. -/
theorem ldrResult : Obligations.LdrResult := by
  rintro off wb r d s ea rfl
  generalize hea : s.reg r + off.signExtend 16 = ea
  have hreg (q : Reg) := regw_reg (load wb ea s).2 wb d q (load wb ea s).1
  simp only [load_reg] at hreg
  refine ⟨_, by rw [exec_ldr, hea], ?dest, ?regs, ?psw, ?mem, ?cex, ?halted, ?stuck, ?inbox, regw_dev .., regw_draws ..,
    ?ordinary⟩
  case dest => rw [hreg, if_pos rfl]
  case regs => intro q hq; rw [hreg, if_neg (by simpa using hq)]
  case mem => intro a _; rw [regw_mem, load_mem]
  case ordinary => intro h; rw [load_ordinary wb ea s h]; exact ⟨rfl, rfl, rfl⟩
  case psw | cex | halted | stuck | inbox => simp

/-- Settles O39: a store, and nothing else. -/
theorem strResult : Obligations.StrResult := by
  rintro off wb r d s _ hwf rfl
  exact ⟨_, exec_str off wb r d s, fun q _ => store_reg .., store_psw .., store_cex .., store_halted .., store_stuck ..,
    store_inbox .., store_spec wb _ _ s _ hwf rfl rfl rfl⟩

/-! ## LD and ST in the defined modes -/

/-- LD with PRPO = 1: the index register holds the effective address when the value is written (R152). -/
theorem exec_ld_pre (m : AddrMode) (wb : Width) (r d : Reg) (s : State) (ea : Word) (hdef : m.defined = true)
    (hpre : m.prpo = true) (hea : ea = s.reg r + autoDelta m wb) :
    exec (.ld m wb r d) s = .next (((load wb ea s).2.setReg r ea).regw wb d (load wb ea s).1) := by
  simp [exec, execLd, preStep, postStep, hdef, hpre, ← hea, load_setReg]

/-- LD with PRPO = 0: the index register is stepped as the load left it (R152, log 40). -/
theorem exec_ld_post (m : AddrMode) (wb : Width) (r d : Reg) (s : State) (hdef : m.defined = true) (hpre : m.prpo = false) :
    exec (.ld m wb r d) s =
      .next (((load wb (s.reg r) s).2.regw wb d (load wb (s.reg r) s).1).setReg r
        (((load wb (s.reg r) s).2.regw wb d (load wb (s.reg r) s).1).reg r + autoDelta m wb)) := by
  simp [exec, execLd, preStep, postStep, hdef, hpre]

/-- The registers after LD: the destination takes the value, the index register is stepped; of one register in both roles the
later write stays. -/
theorem exec_ld_regs (m : AddrMode) (wb : Width) (r d : Reg) (s : State) (k ea : Word) (hdef : m.defined = true)
    (hk : k = autoDelta m wb) (hea : ea = (if m.prpo then s.reg r + k else s.reg r)) :
    ∃ t, exec (.ld m wb r d) s = .next t ∧
      (r ≠ d → t.reg d = mergeLow wb (s.reg d) (load wb ea s).1 ∧ t.reg r = s.reg r + k) ∧
      (r = d → t.reg d = (if m.prpo then mergeLow wb ea (load wb ea s).1 else mergeLow wb ea (load wb ea s).1 + k)) ∧
      sameRegsBut [r, d] s t ∧ ∃ g, t = { (load wb ea s).2 with regs := g } := by
  subst hk
  cases hpre : m.prpo
  case true =>
    simp only [hpre, if_true] at hea ⊢
    refine ⟨_, exec_ld_pre m wb r d s ea hdef hpre hea, ?two, ?one, ?regs, _, rfl⟩
    case two => intro hne; rw [regw_reg, regw_reg, if_pos rfl, if_neg hne]; simp [hea, Ne.symm hne]
    case one => rintro rfl; rw [regw_reg_same, setReg_reg_same]
    case regs =>
      intro q hq
      simp only [List.mem_cons, List.not_mem_nil, or_false, not_or] at hq
      rw [regw_reg, if_neg hq.2, setReg_reg_ne _ _ _ _ hq.1, load_reg]
  case false =>
    simp only [hpre, if_false, Bool.false_eq_true] at hea ⊢
    subst hea
    refine ⟨_, exec_ld_post m wb r d s hdef hpre, ?two, ?one, ?regs, _, rfl⟩
    case two =>
      intro hne
      rw [setReg_reg_ne _ _ _ _ (Ne.symm hne), setReg_reg_same, regw_reg, regw_reg, if_pos rfl, if_neg hne, load_reg,
        load_reg]
      exact ⟨rfl, rfl⟩
    case one => rintro rfl; rw [setReg_reg_same, regw_reg_same, load_reg]
    case regs =>
      intro q hq
      simp only [List.mem_cons, List.not_mem_nil, or_false, not_or] at hq
      rw [setReg_reg_ne _ _ _ _ hq.1, regw_reg, if_neg hq.2, load_reg]

/-- Settles O36: outside the registers LD is its load. -/
theorem ldResult : Obligations.LdResult := by
  rintro m wb r d s k ea hdef hk hea
  have hstep : k = autoDelta m wb := by cases wb <;> exact hk
  obtain ⟨t, hexec, htwo, hone, hregs, g, rfl⟩ := exec_ld_regs m wb r d s k ea hdef hstep hea
  refine ⟨_, hexec, htwo, hone, hregs, load_psw .., ?mem, load_cex .., load_halted .., load_stuck .., load_inbox .., rfl, rfl,
    ?ordinary⟩
  case mem => intro a _; exact congrArg (Memory.readByte · a) (load_mem wb ea s)
  case ordinary => intro h; rw [load_ordinary wb ea s h]; exact ⟨rfl, rfl, rfl⟩

/-- ST in a defined mode: the source, read after a pre-step, is stored at the effective address and the destination register ends
stepped (R154, log 40). -/
theorem exec_st (m : AddrMode) (wb : Width) (r d : Reg) (s : State) (k ea x : Word) (hdef : m.defined = true)
    (hk : k = autoDelta m wb) (hea : ea = (if m.prpo then s.reg d + k else s.reg d))
    (hx : x = (if r = d then ea else s.reg r)) :
    exec (.st m wb r d) s = .next ((store wb ea (x.setWidth wb.bits) s).setReg d (s.reg d + k)) := by
  subst hk
  cases hpre : m.prpo
  case true =>
    simp only [hpre, if_true] at hea
    have hsource : (s.setReg d ea).opd wb r = x.setWidth wb.bits := by rw [State.opd, setReg_reg, hx]
    simp [exec, execSt, preStep, postStep, hdef, hpre, ← hea, hsource, store_setReg]
  case false =>
    simp only [hpre, if_false, Bool.false_eq_true] at hea
    have hsource : s.opd wb r = x.setWidth wb.bits := by
      rw [State.opd, hx, hea]; split
      · rename_i h; rw [h]
      · rfl
    simp [exec, execSt, preStep, postStep, hdef, hpre, ← hea, hsource]

/-- Settles O37: outside the destination register ST is its store. -/
theorem stResult : Obligations.StResult := by
  rintro m wb r d s k ea x hwf hdef hk hea hx
  have hstep : k = autoDelta m wb := by cases wb <;> exact hk
  refine ⟨_, exec_st m wb r d s k ea x hdef hstep hea hx, setReg_reg_same .., ?regs, store_psw .., store_cex .., store_halted .., store_stuck .., store_inbox ..,
    store_spec wb ea (x.setWidth wb.bits) s _ hwf rfl rfl rfl⟩
  case regs => intro q hq; rw [setReg_reg_ne _ _ _ _ (by simpa using hq), store_reg]

/-! ## LD and ST in the undefined modes -/

theorem exec_ld_undefined (m : AddrMode) (wb : Width) (r d : Reg) (s : State) (h : m.defined = false) :
    exec (.ld m wb r d) s = .next (raise .illegalInstruction s) := if_neg (by simp [h])

theorem exec_st_undefined (m : AddrMode) (wb : Width) (r d : Reg) (s : State) (h : m.defined = false) :
    exec (.st m wb r d) s = .next (raise .illegalInstruction s) := if_neg (by simp [h])

/-- Settles O40. -/
theorem undefinedModeFaults : Obligations.UndefinedModeFaults := by
  intro m wb r d s h
  have hundefined : m.defined = false := by
    obtain ⟨prpo, dec, inc⟩ := m
    revert h; revert prpo dec inc; decide
  exact ⟨exec_ld_undefined m wb r d s hundefined, exec_st_undefined m wb r d s hundefined⟩

end Sys2Proof.Machine
end

section
/-! What an instruction can do, said once for all 41: a change of registers, flags and CEX state, a memory access, a trap or a fault. From this the rules over all instructions (R60, R276). -/

namespace Sys2Proof.Machine

/-! ## The PSW of an instruction that takes no exception -/

/-- FLT, PREV and RSV stay, CUR does not rise, and SLP is not newly set at priority 7 (R272, R276). -/
structure KeepsSystemPsw (old new : Word) : Prop where
  flt : Psw.flt new = Psw.flt old
  prev : Psw.prev new = Psw.prev old
  rsv : Psw.rsv new = Psw.rsv old
  cur : Psw.cur new ≤ Psw.cur old
  sleep : Psw.slp new = true → Psw.slp old = true ∨ Psw.cur new ≠ 7#3

theorem KeepsSystemPsw.refl (w : Word) : KeepsSystemPsw w w :=
  ⟨rfl, rfl, rfl, BitVec.le_refl _, .inl⟩

/-- A row of flags names none of the system's bits (R38). -/
theorem keepsSystemPsw_writeFlags (w : Word) (row : FlagMask) (f : Flags) :
    KeepsSystemPsw w (Psw.writeFlags w row f) where
  flt := writeFlags_flt w row f
  prev := writeFlags_prev w row f
  rsv := writeFlags_rsv w row f
  cur := by rw [writeFlags_cur]; exact BitVec.le_refl _
  sleep := by rw [writeFlags_slp]; exact .inl

/-- A lower CUR is not 7, so SLP may stay as it is (R266). -/
theorem keepsSystemPsw_setCur (w : Word) (p : BitVec 3) (h : p < Psw.cur w) : KeepsSystemPsw w (Psw.setCur w p) where
  flt := setCur_flt w p
  prev := setCur_prev w p
  rsv := by
    apply BitVec.eq_of_getLsbD_eq
    intro j hj
    have houtside : ¬ (5 ≤ 9 + j ∧ 9 + j < 8) := by omega
    simp only [Psw.rsv, BitVec.getLsbD_extractLsb', getLsbD_setCur, if_neg houtside]
  cur := by rw [setCur_cur]; exact BitVec.le_of_lt h
  sleep := by rw [setCur_slp]; exact .inl

/-- A word that differs in the condition bits and SLP only. -/
theorem keepsSystemPsw_of_low (old new : Word) (h : ∀ j, 5 ≤ j → j < 16 → new.getLsbD j = old.getLsbD j)
    (hslp : Psw.slp new = true → Psw.slp old = true ∨ Psw.cur old ≠ 7#3) : KeepsSystemPsw old new := by
  have field (start len : Nat) (hstart : 5 ≤ start) (hlen : start + len ≤ 16) :
      new.extractLsb' start len = old.extractLsb' start len := by
    apply BitVec.eq_of_getLsbD_eq
    intro j hj
    rw [BitVec.getLsbD_extractLsb', BitVec.getLsbD_extractLsb', h (start + j) (by omega) (by omega)]
  have hcur : Psw.cur new = Psw.cur old := field 5 3 (by decide) (by decide)
  exact {
    flt := h 8 (by decide) (by decide)
    prev := field 13 3 (by decide) (by decide)
    rsv := field 9 4 (by decide) (by decide)
    cur := by rw [hcur]; exact BitVec.le_refl _
    sleep := by rw [hcur]; exact hslp }

/-- SETCC drops SLP at priority 7 (R272, log 39). -/
theorem keepsSystemPsw_setcc (w : Word) (m : BitVec 5) : KeepsSystemPsw w (w ||| (setccMask m w).setWidth 16) := by
  refine keepsSystemPsw_of_low _ _ (fun j h5 hj => ?_) (fun hslp => ?_)
  · rw [getLsbD_set _ _ j hj, BitVec.getLsbD_of_ge _ j h5, Bool.or_false]
  · rw [Psw.slp, getLsbD_set _ _ 3 (by decide), getLsbD_setccMask, Bool.or_eq_true, Bool.and_eq_true] at hslp
    exact hslp.imp id fun h => by simpa using h.2

/-- CLRCC sets no bit (R274). -/
theorem keepsSystemPsw_clrcc (w : Word) (m : BitVec 5) : KeepsSystemPsw w (w &&& ~~~(m.setWidth 16)) := by
  refine keepsSystemPsw_of_low _ _ (fun j h5 hj => ?_) (fun hslp => ?_)
  · rw [getLsbD_clear _ _ j hj, BitVec.getLsbD_of_ge m j h5, Bool.not_false, Bool.and_true]
  · rw [Psw.slp, getLsbD_clear _ _ 3 (by decide), Bool.and_eq_true] at hslp
    exact .inl hslp.1

/-! ## The effects -/

/-- The effect of an instruction that works on registers, flags and the CEX state (R60). -/
structure RegisterEffect (s t : State) : Prop where
  mem : t.mem = s.mem
  dev : t.dev = s.dev
  halted : t.halted = s.halted
  stuck : t.stuck = s.stuck
  inbox : t.inbox = s.inbox
  psw : KeepsSystemPsw s.psw t.psw
  cex : s.cex.wf → t.cex.wf

/-- The effect of a load or a store: no PSW bit, no CEX state, and what every CPU access keeps (R155). -/
structure AccessEffect (s t : State) : Prop where
  psw : t.psw = s.psw
  cex : t.cex = s.cex
  halted : t.halted = s.halted
  stuck : t.stuck = s.stuck
  wf : Memory.wf s.mem → Memory.wf t.mem
  quiet : absentQuiet s → absentQuiet t

/-- LD, ST, LDR and STR. -/
def accessesMemory : Instr → Bool
  | .ld _ _ _ _ | .st _ _ _ _ | .ldr _ _ _ _ | .str _ _ _ _ => true
  | _ => false

/-- All that an instruction can answer. -/
inductive InstrEffect (i : Instr) (s : State) : Result → Prop
  | registers (t : State) (h : RegisterEffect s t) : InstrEffect i s (.next t)
  | access (t : State) (hi : accessesMemory i = true) (h : AccessEffect s t) : InstrEffect i s (.next t)
  | trap (sa : BitVec 4) (hi : i = .svc sa) (h : Psw.cur s.psw < prio s.mem sa) :
      InstrEffect i s (.next (enter sa s.pc false s))
  | svcFault (sa : BitVec 4) (hi : i = .svc sa) (h : prio s.mem sa ≤ Psw.cur s.psw) :
      InstrEffect i s (.next (raise .priority s))
  | setpriFault (pr : BitVec 3) (hi : i = .setpri pr) (h : Psw.cur s.psw ≤ pr) :
      InstrEffect i s (.next (raise .priority s))
  | undefinedMode (hi : i.wellFormed = false) : InstrEffect i s (.next (raise .illegalInstruction s))

/-! ## Register instructions -/

/-- Registers and draws alone. -/
theorem RegisterEffect.of_samePsw {s t : State} (hpsw : t.psw = s.psw) (hcex : t.cex = s.cex) (hmem : t.mem = s.mem)
    (hdev : t.dev = s.dev) (hhalted : t.halted = s.halted) (hstuck : t.stuck = s.stuck) (hinbox : t.inbox = s.inbox) :
    RegisterEffect s t :=
  ⟨hmem, hdev, hhalted, hstuck, hinbox, hpsw ▸ .refl _, fun h => hcex ▸ h⟩

theorem registerEffect_regw (s : State) (wb : Width) (d : Reg) (v : BitVec wb.bits) : RegisterEffect s (s.regw wb d v) :=
  .of_samePsw rfl rfl rfl rfl rfl rfl rfl

theorem registerEffect_setFlags (s : State) (row : FlagMask) (f : Flags) : RegisterEffect s (s.setFlags row f) :=
  ⟨rfl, rfl, rfl, rfl, rfl, keepsSystemPsw_writeFlags s.psw row f, id⟩

theorem registerEffect_answer (s : State) (wb : Width) (d : Reg) (row : FlagMask) (r : BitVec wb.bits × Flags) :
    RegisterEffect s (s.answer wb d row r) :=
  ⟨rfl, rfl, rfl, rfl, rfl, keepsSystemPsw_writeFlags s.psw row r.2, id⟩

theorem registerEffect_setPsw (s : State) (w : Word) (h : KeepsSystemPsw s.psw w) : RegisterEffect s (s.setPsw w) :=
  ⟨rfl, rfl, rfl, rfl, rfl, h, id⟩

theorem registerEffect_branchIf {k : Nat} (taken : Bool) (off : BitVec k) (s : State) :
    RegisterEffect s (branchIf taken off s) := by
  rw [branchIf_eq]
  cases taken <;> exact .of_samePsw rfl rfl rfl rfl rfl rfl rfl

theorem registerEffect_cex (s : State) (c : Cex) : RegisterEffect s (s.setCex c.settle) :=
  ⟨rfl, rfl, rfl, rfl, rfl, .refl _, fun _ => settle_wf c⟩

/-- A draw before an effect (log 6). -/
theorem RegisterEffect.of_tick {s t : State} (h : RegisterEffect s.tick t) : RegisterEffect s t :=
  ⟨h.mem, h.dev, h.halted, h.stuck, h.inbox, h.psw, h.cex⟩

/-- DADD is a result with its row, after two draws where a digit is above 9 (R178). -/
theorem registerEffect_dadd (wb : Width) (src : Source) (d : Reg) (s : State) :
    ∃ t, exec (.dadd wb src d) s = .next t ∧ RegisterEffect s t := by
  have invalid := exec_dadd_of_invalid wb src d s
  cases hd : bcdValid (wb.bits / 4) (s.opd wb d).toNat
  case false => exact ⟨_, invalid (.inl hd), .of_tick (.of_tick (registerEffect_answer ..))⟩
  case true =>
    cases hs : bcdValid (wb.bits / 4) (s.source wb src).toNat
    case false => exact ⟨_, invalid (.inr hs), .of_tick (.of_tick (registerEffect_answer ..))⟩
    case true => exact ⟨_, exec_dadd_of_valid wb src d s hd hs, registerEffect_answer ..⟩

/-! ## Loads and stores -/

theorem load_absentQuiet (wb : Width) (a : Word) (s : State) (h : absentQuiet s) : absentQuiet (load wb a s).2 := by
  cases wb
  · exact loadWord_absentQuiet a s h
  · exact loadByte_absentQuiet a s h

theorem store_absentQuiet (wb : Width) (a : Word) (v : BitVec wb.bits) (s : State) (h : absentQuiet s) :
    absentQuiet (store wb a v s) := by
  cases wb
  · exact storeWord_absentQuiet a v s h
  · exact storeByte_absentQuiet a v s h

theorem store_wf (wb : Width) (a : Word) (v : BitVec wb.bits) (s : State) (h : Memory.wf s.mem) :
    Memory.wf (store wb a v s).mem := by
  cases wb
  · exact storeWord_wf a v s h
  · exact storeByte_wf a v s h

/-- A load, whatever is written to the registers after it. -/
theorem accessEffect_load (wb : Width) (a : Word) (s : State) (g : Regs) :
    AccessEffect s { (load wb a s).2 with regs := g } where
  psw := load_psw wb a s
  cex := load_cex wb a s
  halted := load_halted wb a s
  stuck := load_stuck wb a s
  wf h := (load_mem wb a s).symm ▸ h
  quiet := load_absentQuiet wb a s

/-- A store, whatever is written to the registers after it. -/
theorem accessEffect_store (wb : Width) (a : Word) (v : BitVec wb.bits) (s : State) (g : Regs) :
    AccessEffect s { store wb a v s with regs := g } where
  psw := store_psw wb a v s
  cex := store_cex wb a v s
  halted := store_halted wb a v s
  stuck := store_stuck wb a v s
  wf := store_wf wb a v s
  quiet := store_absentQuiet wb a v s

theorem instrEffect_ld (m : AddrMode) (wb : Width) (r d : Reg) (s : State) :
    InstrEffect (.ld m wb r d) s (exec (.ld m wb r d) s) := by
  cases hdef : m.defined
  case false => rw [exec_ld_undefined m wb r d s hdef]; exact .undefinedMode hdef
  case true =>
    obtain ⟨t, hexec, -, -, -, g, rfl⟩ := exec_ld_regs m wb r d s _ _ hdef rfl rfl
    rw [hexec]
    exact .access _ rfl (accessEffect_load wb _ s g)

theorem instrEffect_st (m : AddrMode) (wb : Width) (r d : Reg) (s : State) :
    InstrEffect (.st m wb r d) s (exec (.st m wb r d) s) := by
  cases hdef : m.defined
  case false => rw [exec_st_undefined m wb r d s hdef]; exact .undefinedMode hdef
  case true =>
    rw [exec_st m wb r d s _ _ _ hdef rfl rfl rfl]
    exact .access _ rfl (accessEffect_store wb _ _ s _)

/-! ## PSW instructions -/

theorem instrEffect_setpri (pr : BitVec 3) (s : State) : InstrEffect (.setpri pr) s (exec (.setpri pr) s) := by
  by_cases h : pr < Psw.cur s.psw
  · rw [exec_setpri_of_lt pr s h]
    exact .registers _ (registerEffect_setPsw s _ (keepsSystemPsw_setCur s.psw pr h))
  · rw [exec_setpri_of_le pr s (BitVec.not_lt.1 h)]
    exact .setpriFault pr rfl (BitVec.not_lt.1 h)

theorem instrEffect_svc (sa : BitVec 4) (s : State) : InstrEffect (.svc sa) s (exec (.svc sa) s) := by
  by_cases h : Psw.cur s.psw < prio s.mem sa
  · rw [exec_svc_of_lt sa s h]
    exact .trap sa rfl h
  · rw [exec_svc_of_le sa s (BitVec.not_lt.1 h)]
    exact .svcFault sa rfl (BitVec.not_lt.1 h)

/-- What an instruction can do (R121). -/
theorem instrEffect (i : Instr) (s : State) : InstrEffect i s (exec i s) := by
  cases i with
  | bl => exact .registers _ (.of_samePsw rfl rfl rfl rfl rfl rfl rfl)
  | beq | bne | bc | bnc | bn | bge | blt | bra => exact .registers _ (registerEffect_branchIf _ _ s)
  | add | addc | sub | subc | xor | and | or | bic | bis | sra | rrc | comp | swpb | sxt =>
    exact .registers _ (registerEffect_answer s ..)
  | dadd wb src d =>
    obtain ⟨t, hexec, heffect⟩ := registerEffect_dadd wb src d s
    exact hexec ▸ .registers t heffect
  | cmp | bit => exact .registers _ (registerEffect_setFlags s _ _)
  | mov | movl | movlz | movls | movh => exact .registers _ (registerEffect_regw s ..)
  | swap => exact .registers _ (.of_samePsw rfl rfl rfl rfl rfl rfl rfl)
  | setpri pr => exact instrEffect_setpri pr s
  | svc sa => exact instrEffect_svc sa s
  | setcc m => exact .registers _ (registerEffect_setPsw s _ (keepsSystemPsw_setcc s.psw m))
  | clrcc m => exact .registers _ (registerEffect_setPsw s _ (keepsSystemPsw_clrcc s.psw m))
  | cex => exact .registers _ (registerEffect_cex s _)
  | ld m wb r d => exact instrEffect_ld m wb r d s
  | st m wb r d => exact instrEffect_st m wb r d s
  | ldr off wb r d => exact .access _ rfl (accessEffect_load wb (relAddr s r off) s _)
  | str off wb r d => exact .access _ rfl (accessEffect_store wb (relAddr s d off) (s.opd wb r) s _)

/-! ## The rules over all instructions -/

/-- Settles O31. -/
theorem execKeepsSystemPsw : Obligations.ExecKeepsSystemPsw := by
  intro i s t hwf hsvc hexec
  have keeps (h : KeepsSystemPsw s.psw t.psw) : Psw.flt t.psw = Psw.flt s.psw ∧ Psw.prev t.psw = Psw.prev s.psw ∧
      Psw.rsv t.psw = Psw.rsv s.psw ∧ Psw.cur t.psw ≤ Psw.cur s.psw := ⟨h.flt, h.prev, h.rsv, h.cur⟩
  have heffect := instrEffect i s
  rw [hexec] at heffect
  cases heffect with
  | registers _ h => exact .inl (keeps h.psw)
  | access _ _ h => exact .inl (keeps (h.psw ▸ .refl _))
  | trap sa hi => exact absurd hi (hsvc sa)
  | svcFault sa hi => exact absurd hi (hsvc sa)
  | setpriFault pr hi h => exact .inr ⟨pr, hi, h⟩
  | undefinedMode hi => rw [hi] at hwf; cases hwf

/-- An ill-formed instruction is an LD or ST (R126), so no other can end in the illegal instruction fault. -/
theorem accessesMemory_of_illFormed (i : Instr) (h : i.wellFormed = false) : accessesMemory i = true := by
  cases i
  case ld | st => rfl
  all_goals cases h

/-- Settles O32. -/
theorem onlyMemoryInstructionsTouchMemory : Obligations.OnlyMemoryInstructionsTouchMemory := by
  intro i s t hexec hld hst hldr hstr hsvc hsetpri
  have hnone : accessesMemory i = false := by
    cases i
    case ld => exact absurd rfl (hld _ _ _ _)
    case st => exact absurd rfl (hst _ _ _ _)
    case ldr => exact absurd rfl (hldr _ _ _ _)
    case str => exact absurd rfl (hstr _ _ _ _)
    all_goals rfl
  have heffect := instrEffect i s
  rw [hexec] at heffect
  cases heffect with
  | registers _ h => exact ⟨fun a _ => by rw [h.mem], h.dev, h.halted, h.stuck, h.inbox⟩
  | access _ hi => rw [hnone] at hi; cases hi
  | trap sa hi => exact absurd hi (hsvc sa)
  | svcFault sa hi => exact absurd hi (hsvc sa)
  | setpriFault pr hi => exact absurd hi (hsetpri pr)
  | undefinedMode hi => rw [accessesMemory_of_illFormed i hi] at hnone; cases hnone

/-- What the priority fault of SETPRI or SVC does to the two terminal conditions (R325, R327). -/
theorem raise_priority_stops (s : State) (faults : Prop) (h : faults) :
    ((raise .priority s).stuck = s.stuck ∨
      ((raise .priority s).stuck = some 10#4 ∧ Psw.flt s.psw = false ∧ prio s.mem 10#4 ≤ Psw.cur s.psw ∧ faults)) ∧
    ((raise .priority s).halted = s.halted ∨ ((raise .priority s).halted = true ∧ Psw.flt s.psw = true ∧ faults)) := by
  rcases raise_cases .priority s with ⟨hflt, heq⟩ | ⟨hflt, hle, heq⟩ | ⟨-, -, heq⟩ <;> rw [heq]
  · exact ⟨.inl rfl, .inr ⟨rfl, hflt, h⟩⟩
  · exact ⟨.inr ⟨rfl, hflt, hle, h⟩, .inl rfl⟩
  · obtain ⟨-, -, -, hhalted, hstuck, -⟩ := enter_spec FaultCause.priority.vector s.pc true s
    exact ⟨.inl hstuck, .inl hhalted⟩

/-- Settles O33. -/
theorem noInstructionRefused : Obligations.NoInstructionRefused := by
  intro i s hwf
  generalize hresult : exec i s = result
  have heffect := instrEffect i s
  rw [hresult] at heffect
  cases heffect with
  | registers t h => exact ⟨t, rfl, .inl h.stuck, .inl h.halted⟩
  | access t _ h => exact ⟨t, rfl, .inl h.stuck, .inl h.halted⟩
  | trap sa =>
    obtain ⟨-, -, -, hhalted, hstuck, -⟩ := enter_spec sa s.pc false s
    exact ⟨_, rfl, .inl hstuck, .inl hhalted⟩
  | svcFault sa hi h => exact ⟨_, rfl, raise_priority_stops s _ (.inr ⟨sa, hi, h⟩)⟩
  | setpriFault pr hi h => exact ⟨_, rfl, raise_priority_stops s _ (.inl ⟨pr, hi, h⟩)⟩
  | undefinedMode hi => rw [hi] at hwf; cases hwf

end Sys2Proof.Machine
end

section
/-! One step (R304): which of its lines is taken, the conditional block (R254), power-up (R380), and the invariant that every step keeps. -/

namespace Sys2Proof.Machine

/-! ## The lines of R304 -/

/-- A live machine's step is the CPU's after the agent's turn. -/
theorem step_live (s : State) (h : s.live) : step s = boundary (agentTurn s) := by
  unfold step cycle
  rw [stopReason_live s h]
  rfl

/-- Line 1: an accepted interrupt is taken. -/
theorem boundary_accepted (s : State) (d : BitVec 3) (h : acceptable s = some d) :
    boundary s = .next (takeInterrupt d s) := by
  rw [boundary, h]

/-- Line 2: asleep nothing happens. -/
theorem boundary_asleep (s : State) (hacc : acceptable s = none) (hslp : Psw.slp s.psw = true) : boundary s = .next s := by
  rw [boundary, hacc]; exact if_pos hslp

section Awake
variable {s : State} (hacc : acceptable s = none) (hslp : Psw.slp s.psw = false)
include hacc hslp

/-- Line 3: the PC #FFFF ends an exception. -/
theorem boundary_ends (hpc : s.pc = 0xFFFF#16) : boundary s = .next (endOfException s) := by
  simp only [boundary, hacc, hslp, hpc, Bool.false_eq_true, if_false, if_true]

/-- Line 4: an odd PC is a fault. -/
theorem boundary_odd (hpc : s.pc ≠ 0xFFFF#16) (hodd : s.pc.getLsbD 0 = true) :
    boundary s = .next (raise .invalidAddress s) := by
  simp only [boundary, hacc, hslp, hpc, hodd, Bool.false_eq_true, if_false, if_true]

/-- Lines 5 to 8: one word is fetched. -/
theorem boundary_fetches (hpc : s.pc ≠ 0xFFFF#16) (heven : s.pc.getLsbD 0 = false) : boundary s = fetchAndRun s := by
  simp only [boundary, hacc, hslp, hpc, heven, Bool.false_eq_true, if_false]

end Awake

/-- A fetched word leaves the CEX state for the count (R254). -/
theorem fetch_cex (s : State) : (fetch s).2.cex = s.cex := by simp [fetch]

/-- A fetched word that is counted and not skipped is run. -/
theorem fetchAndRun_runs (s : State) (c : Cex) (h : s.cex.consume = (true, c)) :
    fetchAndRun s = runWord (fetch s).1 ((fetch s).2.setCex c) := by
  rcases gate_cases (fetch s).1 (fetch s).2 with ⟨hc, -⟩ | ⟨-, hgate⟩
  · rw [fetch_cex, h] at hc; cases hc
  · rw [fetch_cex, h] at hgate; exact hgate

/-- A fetched word that is skipped. -/
theorem fetchAndRun_skips (s : State) (c : Cex) (h : s.cex.consume = (false, c)) :
    fetchAndRun s = .next ((fetch s).2.setCex c) := by
  rcases gate_cases (fetch s).1 (fetch s).2 with ⟨-, hgate⟩ | ⟨hc, -⟩
  · rw [fetch_cex, h] at hgate; exact hgate
  · rw [fetch_cex, h] at hc; cases hc

theorem runWord_ok (w : Word) (i : Instr) (s : State) (h : decode w = .ok i) : runWord w s = exec i s := by
  rw [runWord, h]

/-- Every word that is no instruction raises the same fault, the undefined modes by the default of log 16 (R321, R126). -/
theorem runWord_error (w : Word) (e : DecodeError) (s : State) (h : decode w = .error e) :
    runWord w s = .next (raise .illegalInstruction s) := by
  rw [runWord, h]; cases e <;> rfl

/-! ## What a step does -/

/-- Settles O5. -/
theorem stepRunsDecodedInstruction : Obligations.StepRunsDecodedInstruction := by
  rintro s _ c i hlive rfl hacc hslp hpc heven hcount hdecode
  refine ⟨?_, fetch_ordinary _⟩
  rw [step_live s hlive, boundary_fetches hacc hslp hpc heven, fetchAndRun_runs _ c hcount, runWord_ok _ i _ hdecode]

/-- The agent's turn neither halts nor frees a machine (R358). -/
theorem agentTurn_live (s : State) (h : s.live) : (agentTurn s).live := by
  obtain ⟨-, -, -, -, hhalted, hstuck⟩ := agentTurn_sameCpu s
  exact ⟨hhalted.trans h.1, hstuck.trans h.2⟩

/-- Settles O6. -/
theorem stepSkipsCountedWord : Obligations.StepSkipsCountedWord := by
  rintro s _ c hlive rfl hacc hslp hpc heven hord hcount
  have hstep : step s = .next (((agentTurn s).setReg .r7 ((agentTurn s).pc + 2#16)).setCex c) := by
    rw [step_live s hlive, boundary_fetches hacc hslp hpc heven, fetchAndRun_skips _ c hcount, fetch_ordinary _ hord]
    rfl
  refine ⟨_, hstep, rfl, rfl, ?regs, rfl, fun _ _ => rfl, rfl, agentTurn_live s hlive, rfl, rfl⟩
  case regs => intro q hq; rw [setCex_reg, setReg_reg_ne _ _ _ _ (by simpa using hq)]

/-- Settles O7. -/
theorem stepRaisesFetchFaults : Obligations.StepRaisesFetchFaults := by
  refine ⟨rfl, rfl, ?_⟩
  rintro s _ hlive rfl hacc hslp hpc
  rw [step_live s hlive]
  refine ⟨boundary_odd hacc hslp hpc, fun heven c e hcount hdecode => ?_⟩
  rw [boundary_fetches hacc hslp hpc heven, fetchAndRun_runs _ c hcount, runWord_error _ e _ hdecode]

/-- Settles O8. -/
theorem sleepAndHalt : Obligations.SleepAndHalt := by
  refine ⟨fun s hlive hacc hslp => ?asleep, fun s hdead hinbox => ?agent, fun s hhalted hinbox => ?halted,
    fun s v hhalted hstuck hinbox => ?stuck⟩
  case asleep => rw [step_live s hlive, boundary_asleep _ hacc hslp]
  case agent =>
    rcases step_cases s with ⟨hlive, -⟩ | ⟨_, -, ⟨hnone, -⟩ | ⟨-, hstep⟩⟩
    · exact absurd hlive hdead
    · exact absurd hnone hinbox
    · exact hstep
  case halted => simp [step, cycle, State.stopReason, hhalted, hinbox]
  case stuck => simp [step, cycle, State.stopReason, hhalted, hstuck, hinbox]

/-- Settles O9. -/
theorem stepTakesInterrupt : Obligations.StepTakesInterrupt := by
  rintro s _ d hlive rfl hacc
  obtain ⟨hpc, hpic⟩ := (acceptable_eq_some_iff _ d).1 hacc
  obtain ⟨hsel, hlt⟩ := picAbove_some _ _ d hpic
  exact ⟨picSelect_pending _ d hsel, hlt, hpc, by rw [step_live s hlive, boundary_accepted _ d hacc, takeInterrupt]⟩

/-- Settles O10: with the PC at #FFFF no interrupt is accepted, so an awake CPU is at line 3. -/
theorem stepEndsException : Obligations.StepEndsException := by
  intro s hlive hpc hslp
  have hacc : acceptable (agentTurn s) = none := if_pos hpc
  rw [step_live s hlive, boundary_ends hacc hslp hpc]

/-! ## Conditional blocks -/

/-- A word of the true part is executed where the condition was true (R253, R254). -/
theorem consume_truePart (cond : Bool) (t f : BitVec 3) (ht : t ≠ 0#3) :
    (Cex.settle ⟨true, cond, t, f⟩).consume = (cond, Cex.settle ⟨true, cond, t - 1#3, f⟩) := by
  rw [settle_block cond t f (.inl ht)]
  simp [Cex.consume, ht]

/-- A word of the false part is executed where the condition was false. -/
theorem consume_falsePart (cond : Bool) (f : BitVec 3) (hf : f ≠ 0#3) :
    (Cex.settle ⟨true, cond, 0#3, f⟩).consume = (!cond, Cex.settle ⟨true, cond, 0#3, f - 1#3⟩) := by
  rw [settle_block cond 0#3 f (.inr hf)]
  simp [Cex.consume]

/-- A count that is not zero falls by one. -/
theorem ne_zero_and_pred {n : Nat} (b : BitVec 3) (hb : b.toNat = n + 1) : b ≠ 0#3 ∧ (b - 1#3).toNat = n := by
  constructor
  · rintro rfl; cases hb
  · bv_omega

/-- The false part, run to the end of the block. -/
theorem blockOutcomes_falsePart (n : Nat) (cond : Bool) (f : BitVec 3) (hf : f.toNat = n) :
    blockOutcomes n (Cex.settle ⟨true, cond, 0#3, f⟩) = (List.replicate n (!cond), Cex.inactive) := by
  induction n generalizing f with
  | zero => obtain rfl : f = 0#3 := BitVec.eq_of_toNat_eq hf; rfl
  | succ n ih =>
    obtain ⟨hne, hpred⟩ := ne_zero_and_pred f hf
    simp only [blockOutcomes, consume_falsePart cond f hne, ih _ hpred, List.replicate_succ]

/-- The true part, and the false part after it. -/
theorem blockOutcomes_block (n : Nat) (cond : Bool) (t f : BitVec 3) (ht : t.toNat = n) :
    blockOutcomes (n + f.toNat) (Cex.settle ⟨true, cond, t, f⟩) =
      (List.replicate n cond ++ List.replicate f.toNat (!cond), Cex.inactive) := by
  induction n generalizing t with
  | zero =>
    obtain rfl : t = 0#3 := BitVec.eq_of_toNat_eq ht
    rw [Nat.zero_add]
    exact blockOutcomes_falsePart _ cond f rfl
  | succ n ih =>
    obtain ⟨hne, hpred⟩ := ne_zero_and_pred t ht
    rw [Nat.succ_add]
    simp only [blockOutcomes, consume_truePart cond t f hne, ih _ hpred, List.replicate_succ, List.cons_append]

/-- Settles O19, by induction on the counts. -/
theorem blockOutcomesCounted : Obligations.BlockOutcomesCounted :=
  fun cond t f => blockOutcomes_block t.toNat cond t f rfl

/-! ## Power-up -/

/-- Settles O27. -/
theorem resetState : Obligations.ResetState := by
  unfold Obligations.ResetState; decide

/-- Settles O28. -/
theorem resetInvariant : Obligations.ResetInvariant :=
  ⟨wf_reset, inactive_wf, rfl, by decide, by decide, by decide⟩

/-- Vector 15 stands at #FFFC and #FFFE (R80). -/
theorem vectorAddr_reset : vectorAddr 15#4 = 0xFFFC#16 ∧ vectorAddr 15#4 + 2#16 = 0xFFFE#16 := by decide

/-- Settles O29. -/
theorem powerUpSequence : Obligations.PowerUpSequence := by
  obtain ⟨hpsw, hentry⟩ := vectorAddr_reset
  refine ⟨fun s => ⟨?psw, ?pc, ?regs, rfl, rfl, ⟨rfl, rfl⟩, fun _ _ => rfl, rfl⟩, by decide⟩
  case psw => rw [← hpsw]; exact setSlp_loaded _
  case pc => rw [← hentry]; exact setReg_reg_same s .r7 _
  case regs => exact fun q hq => setReg_reg_ne s .r7 q _ (by simpa using hq)

/-! ## The invariant -/

/-- The part of the invariant that a running machine has: all but the clauses of the two terminal conditions. -/
structure Sound (s : State) : Prop where
  wf : Memory.wf s.mem
  cex : s.cex.wf
  quiet : absentQuiet s
  sleep : Psw.slp s.psw = true → Psw.cur s.psw ≠ 7#3

theorem sound_of_inv {s : State} (h : s.Inv) : Sound s := by
  obtain ⟨hwf, hcex, hquiet, hsleep, -, -⟩ := h
  exact ⟨hwf, hcex, hquiet, hsleep⟩

/-- In a live machine the clauses of the terminal conditions say nothing. -/
theorem Sound.inv {s : State} (h : Sound s) (hlive : s.live) : s.Inv := by
  obtain ⟨hhalted, hstuck⟩ := hlive
  refine ⟨h.wf, h.cex, h.quiet, h.sleep, fun hh => ?_, fun v hv => ?_⟩
  · rw [hhalted] at hh; cases hh
  · rw [hstuck] at hv; cases hv

/-- A state with the same memory, CEX state, requests and PSW. -/
theorem Sound.congr {s t : State} (h : Sound s) (hmem : t.mem = s.mem) (hcex : t.cex = s.cex)
    (hirq : absentQuiet s → absentQuiet t) (hpsw : t.psw = s.psw) : Sound t :=
  ⟨hmem ▸ h.wf, hcex ▸ h.cex, hirq h.quiet, hpsw ▸ h.sleep⟩

theorem push_absentQuiet (v : Word) (s : State) (h : absentQuiet s) : absentQuiet (push v s) :=
  storeWord_absentQuiet _ _ _ h

theorem pull_absentQuiet (s : State) (h : absentQuiet s) : absentQuiet (pull s).2 :=
  loadWord_absentQuiet _ s h

/-- The four pushes of an entry raise no request. -/
theorem pushFrame_absentQuiet (pc : Word) (s : State) (h : absentQuiet s) : absentQuiet (pushFrame pc s) := by
  have h1 := push_absentQuiet pc s h
  unfold pushFrame
  generalize push pc s = s1 at h1
  have h2 := push_absentQuiet s1.lr s1 h1
  simp only
  generalize push s1.lr s1 = s2 at h2
  have h3 := push_absentQuiet s2.psw s2 h2
  generalize push s2.psw s2 = s3 at h3
  exact push_absentQuiet (cexPack s3.cex) s3 h3

/-- The four pulls of a return raise no request. -/
theorem pullFrame_absentQuiet (s : State) (h : absentQuiet s) : absentQuiet (pullFrame s) := by
  have h1 := pull_absentQuiet s h
  unfold pullFrame
  generalize pull s = r1 at h1
  have h2 := pull_absentQuiet (r1.2.setCex (cexUnpack r1.1)) h1
  simp only
  generalize pull (r1.2.setCex (cexUnpack r1.1)) = r2 at h2
  have h3 := pull_absentQuiet (r2.2.setPsw (Psw.setSlp (Psw.loaded r2.1) false)) h2
  generalize pull (r2.2.setPsw (Psw.setSlp (Psw.loaded r2.1) false)) = r3 at h3
  exact pull_absentQuiet (r3.2.setReg .r5 r3.1) h3

/-- An entry: the pushes keep memory's form and the absent devices, and the handler starts awake and outside any block (R312). -/
theorem Sound.enter {s : State} (h : Sound s) (n : BitVec 4) (pc : Word) (fault : Bool) : Sound (enter n pc fault s) := by
  obtain ⟨hpsw, hmem, hcex, -⟩ := enter_spec n pc fault s
  obtain ⟨-, -, -, hframe⟩ := pushFrame_spec pc s
  obtain ⟨hslp, -⟩ := handlerPsw_fields (vectorPsw (pushFrame pc s).mem n) s.psw fault
  refine ⟨?wf, hcex ▸ inactive_wf, ?quiet, fun hs => ?sleep⟩
  case wf =>
    rw [hmem, hframe]
    exact wf_writeWord _ _ _ (wf_writeWord _ _ _ (wf_writeWord _ _ _ (wf_writeWord _ _ _ h.wf)))
  case quiet => rw [absentQuiet, (enter_dev n pc fault s).1]; exact pushFrame_absentQuiet pc s h.quiet
  case sleep => rw [hpsw, hslp] at hs; cases hs

/-- An entry neither halts nor frees a machine. -/
theorem enter_live (n : BitVec 4) (pc : Word) (fault : Bool) (s : State) (h : s.live) : (enter n pc fault s).live := by
  obtain ⟨-, -, -, hhalted, hstuck, -⟩ := enter_spec n pc fault s
  exact ⟨hhalted.trans h.1, hstuck.trans h.2⟩

theorem inv_enter {s : State} (h : Sound s) (hlive : s.live) (n : BitVec 4) (pc : Word) (fault : Bool) :
    (enter n pc fault s).Inv :=
  (h.enter n pc fault).inv (enter_live n pc fault s hlive)

/-- A fault: the machine halts in the fault state, is stuck on a priority not above CUR, or enters (R320, R325, R327). -/
theorem inv_raise {s : State} (h : Sound s) (hlive : s.live) (c : FaultCause) : (raise c s).Inv := by
  obtain ⟨hhalted, hstuck⟩ := hlive
  rcases raise_cases c s with ⟨hflt, heq⟩ | ⟨hflt, hle, heq⟩ | ⟨-, -, heq⟩ <;> rw [heq]
  · exact ⟨h.wf, h.cex, h.quiet, h.sleep, fun _ => hflt, fun v hv => by rw [hstuck] at hv; cases hv⟩
  · have hrunning : s.halted ≠ true := by rw [hhalted]; decide
    refine ⟨h.wf, h.cex, h.quiet, h.sleep, fun hh => absurd hh hrunning, fun v hv => ?_⟩
    obtain rfl := Option.some.inj hv
    exact ⟨hflt, hle⟩
  · exact inv_enter h ⟨hhalted, hstuck⟩ _ _ _

/-- SLP is not newly set at priority 7, and where it stood CUR was not 7 and has not risen. -/
theorem KeepsSystemPsw.sleep_ok {old new : Word} (h : KeepsSystemPsw old new)
    (hold : Psw.slp old = true → Psw.cur old ≠ 7#3) (hslp : Psw.slp new = true) : Psw.cur new ≠ 7#3 := by
  rcases h.sleep hslp with hs | hne
  · intro h7
    have hle := h.cur
    rw [h7] at hle
    have : ∀ p : BitVec 3, 7#3 ≤ p → p = 7#3 := by decide
    exact hold hs (this _ hle)
  · exact hne

/-- Every instruction keeps the invariant, by what it can do. -/
theorem inv_exec {s t : State} (h : Sound s) (hlive : s.live) (i : Instr) (hexec : exec i s = .next t) : t.Inv := by
  have heffect := instrEffect i s
  rw [hexec] at heffect
  cases heffect with
  | registers _ e =>
    have hsound : Sound t := ⟨e.mem ▸ h.wf, e.cex h.cex, by rw [absentQuiet, e.dev]; exact h.quiet, e.psw.sleep_ok h.sleep⟩
    exact hsound.inv ⟨e.halted.trans hlive.1, e.stuck.trans hlive.2⟩
  | access _ _ e =>
    have hsound : Sound t := ⟨e.wf h.wf, e.cex ▸ h.cex, e.quiet h.quiet, e.psw ▸ h.sleep⟩
    exact hsound.inv ⟨e.halted.trans hlive.1, e.stuck.trans hlive.2⟩
  | trap sa => exact inv_enter h hlive sa _ _
  | svcFault | setpriFault | undefinedMode => exact inv_raise h hlive _

/-- The end of an exception: a chain keeps the CEX state, a pull gives a legal one, and both wake the CPU (R340). -/
theorem inv_endOfException {s : State} (h : Sound s) (hlive : s.live) : (endOfException s).Inv := by
  rcases endOfException_cases s with ⟨d, -, heq⟩ | ⟨-, heq⟩ <;> rw [heq]
  · obtain ⟨hpsw, hmem, hcex, hdev, hhalted, hstuck, -⟩ := tailChain_spec d s.tick
    obtain ⟨hslp, -⟩ := handlerPsw_fields (vectorPsw s.mem (deviceVector d)) s.psw false
    have hsound : Sound (tailChain d s.tick) := by
      refine ⟨hmem ▸ h.wf, hcex ▸ h.cex, by rw [absentQuiet, hdev]; exact h.quiet, fun hs => ?_⟩
      rw [hpsw, tick_psw, tick_mem, hslp] at hs; cases hs
    exact hsound.inv ⟨hhalted.trans hlive.1, hstuck.trans hlive.2⟩
  · obtain ⟨hmem, hhalted, hstuck, -, hcex, hslp, -⟩ := pullFrame_spec s
    have hsound : Sound (pullFrame s) :=
      ⟨hmem ▸ h.wf, hcex, pullFrame_absentQuiet s h.quiet, fun hs => by rw [hslp] at hs; cases hs⟩
    exact hsound.inv ⟨hhalted.trans hlive.1, hstuck.trans hlive.2⟩

/-- One fetched word: the count keeps the CEX state legal, and what runs is an instruction or the illegal instruction fault. -/
theorem inv_fetchAndRun {s t : State} (h : Sound s) (hlive : s.live) (hrun : fetchAndRun s = .next t) : t.Inv := by
  have hfetched : Sound ((fetch s).2.setCex s.cex.consume.2) :=
    ⟨by simpa [fetch] using h.wf, consume_wf _ h.cex, loadWord_absentQuiet _ s h.quiet, by simpa [fetch] using h.sleep⟩
  have hlive' : ((fetch s).2.setCex s.cex.consume.2).live := by simpa [State.live, fetch] using hlive
  cases hcount : s.cex.consume.1
  case false =>
    rw [fetchAndRun_skips s s.cex.consume.2 (Prod.ext hcount rfl)] at hrun
    cases hrun
    exact hfetched.inv hlive'
  case true =>
    rw [fetchAndRun_runs s s.cex.consume.2 (Prod.ext hcount rfl)] at hrun
    cases hdecode : decode (fetch s).1 with
    | ok i => rw [runWord_ok _ i _ hdecode] at hrun; exact inv_exec hfetched hlive' i hrun
    | error e => rw [runWord_error _ e _ hdecode] at hrun; cases hrun; exact inv_raise hfetched hlive' _

/-- The CPU's step keeps the invariant, line by line of R304. -/
theorem inv_boundary {s t : State} (h : Sound s) (hlive : s.live) (hstep : boundary s = .next t) : t.Inv := by
  cases hacc : acceptable s with
  | some d =>
    rw [boundary_accepted s d hacc] at hstep; cases hstep
    have htick : Sound s.tick := h.congr rfl rfl id rfl
    exact inv_enter htick hlive _ _ _
  | none =>
    cases hslp : Psw.slp s.psw
    case true => rw [boundary_asleep s hacc hslp] at hstep; cases hstep; exact h.inv hlive
    case false =>
      by_cases hpc : s.pc = 0xFFFF#16
      · rw [boundary_ends hacc hslp hpc] at hstep; cases hstep
        exact inv_endOfException h hlive
      · cases hodd : s.pc.getLsbD 0
        case true => rw [boundary_odd hacc hslp hpc hodd] at hstep; cases hstep; exact inv_raise h hlive _
        case false => rw [boundary_fetches hacc hslp hpc hodd] at hstep; exact inv_fetchAndRun h hlive hstep

/-- The agent raises no request of an absent device (R357). -/
theorem agentTurn_absentQuiet (s : State) (h : absentQuiet s) : absentQuiet (agentTurn s) := by
  rw [absentQuiet_iff] at *
  exact fun d hd => (agentTurn_absent s d hd).trans (h d hd)

/-- The agent's turn keeps the invariant, of a stopped machine too: it touches nothing that the terminal conditions speak of. -/
theorem inv_agentTurn {s : State} (h : s.Inv) : (agentTurn s).Inv := by
  obtain ⟨hwf, hcex, hquiet, hsleep, hhalt, hstop⟩ := h
  obtain ⟨-, epsw, ecex, emem, ehalted, estuck⟩ := agentTurn_sameCpu s
  refine ⟨emem ▸ hwf, ecex ▸ hcex, agentTurn_absentQuiet s hquiet, epsw ▸ hsleep, ?halted, ?stuck⟩
  case halted => rw [ehalted, epsw]; exact hhalt
  case stuck => rw [estuck, epsw, emem]; exact hstop

/-- Settles O30: a live machine's step is the CPU's after the agent's turn, a stopped one's is the agent's turn alone. -/
theorem stepKeepsInvariant : Obligations.StepKeepsInvariant := by
  intro s t hinv hstep
  have hturn := inv_agentTurn hinv
  rcases step_cases s with ⟨hlive, heq⟩ | ⟨_, -, ⟨-, heq⟩ | ⟨-, heq⟩⟩ <;> rw [heq] at hstep
  · exact inv_boundary (sound_of_inv hturn) (agentTurn_live s hlive) hstep
  · cases hstep
  · cases hstep; exact hturn

end Sys2Proof.Machine
end
